-- ==== Sys2Proof/Word.lean ====
section
/-! DEFINITION. The word types of VBITS (00_scope.md R7, R10): bytes, the 64-bit native word and the 128-bit wide
integer as a pair of words, `value = high * 2^64 + low` (10_state.md R24). -/

namespace Sys2Proof

/-- 8 bits, bit 0 the least significant (R7, R10). -/
abbrev Byte := BitVec 8

/-- The native word (R7). -/
abbrev Word64 := BitVec 64

/-- A wide integer, `{high, low}` (R7, R24). -/
abbrev Word128 := BitVec 128

namespace Word128

/-- `x[127:64]` (R24). -/
def high (x : Word128) : Word64 := x.extractLsb' 64 64

/-- `x[63:0]` (R24). -/
def low (x : Word128) : Word64 := x.extractLsb' 0 64

/-- `{high, low} = high * 2^64 + low` (R11). -/
def ofPair (high low : Word64) : Word128 := high ++ low

end Word128

end Sys2Proof
end

