-- ==== Sys2Proof/Syntax.lean ====
section
/-! DEFINITION. The 44 commands of 30_encoding.md R95, one constructor per row of spec/opcode_table.json, with the
operands R96 assembles: only the fields a command uses, at the width it reads. -/

namespace Sys2Proof

/-- The BitValue token `(n, sgn, ext)` that carries a BitValue in a command or a response (41_bitvalue.md R151). -/
structure Token where
  n : BitVec 8
  sgn : Bool
  ext : Word128
deriving DecidableEq, Repr

/-- A command (R95). -/
inductive Instr where
  -- unit WIA (40_wide_integer.md)
  | wAdd (x y : Word128)
  | wSub (x y : Word128)
  | wAnd (x y : Word128)
  | wOr (x y : Word128)
  | wXor (x y : Word128)
  | wNot (x : Word128)
  | wShl (x : Word128) (amount : BitVec 8)
  | wShr (x : Word128) (amount : BitVec 8)
  | wSar (x : Word128) (amount : BitVec 8)
  | wCmpU (x y : Word128)
  | wCmpS (x y : Word128)
  -- unit BVU (41_bitvalue.md)
  | bvNewU (value : Word128) (n : BitVec 8)
  | bvNewS (value : Word64) (n : BitVec 8)
  | bvNewS128 (value : Word128) (n : BitVec 8)
  | bvToU64 (t : Token)
  | bvToU128 (t : Token)
  | bvToI64 (t : Token)
  | bvToI128 (t : Token)
  | bvEq (t u : Token)
  -- unit BCU (42_container.md)
  | bcClear
  | bcLoad (payload : List Byte)
  | bcWrite (value : Word64) (n : BitVec 8)
  | bcRead (n : BitVec 8)
  | bcWrite128 (value : Word128) (n : BitVec 8)
  | bcRead128 (n : BitVec 8)
  | bcWriteV (t : Token)
  | bcReadV (sgn : Bool) (n : BitVec 8)
  | bcSeek (position : Word64)
  | bcReset
  | bcAtEnd
  | bcStat
  | bcBytes
  -- unit BRU (43_reader.md)
  | rdOpen (cap : BitVec 32)
  | rdRead (n : BitVec 8)
  | rdRead128 (n : BitVec 8)
  | rdReadV (sgn : Bool) (n : BitVec 8)
  | rdAtEnd
  | rdClose
  -- unit BWU (44_writer.md)
  | wrOpen (leave : Bool) (cap : BitVec 32)
  | wrWrite (value : Word64) (n : BitVec 8)
  | wrWrite128 (value : Word128) (n : BitVec 8)
  | wrWriteV (t : Token)
  | wrFlush
  | wrClose
deriving DecidableEq, Repr

end Sys2Proof
end

