-- ==== Sys2Proof/WellFormed.lean ====
section
/-! DEFINITION. Which terms of `Instr` are commands a frame can carry. Every operand field has the width of its place in
CMD36, so the one thing the type leaves open is the payload of `BC_LOAD`, whose length the frame states in the 64 bits
`a[63:0]` (30_encoding.md R94). A command whose operand VALUES the spec refuses (a shift amount of 128, an ill-formed
token) is well formed here: it decodes, and its meaning answers the status the spec gives. -/

namespace Sys2Proof

/-- Whether a frame can carry the command (R94). -/
def Instr.wellFormed : Instr → Bool
  | .bcLoad payload => decide (payload.length < 2 ^ 64)
  | _ => true

end Sys2Proof
end

