-- ==== Sys2Proof/Decode.lean ====
section
/-! DEFINITION. Decoding a command frame (30_encoding.md R91, R94 to R97), total on any bytes and rejecting by name, and
the encoder written from the same table. -/

namespace Sys2Proof

/-- The number whose bytes, least significant first, are the list: bit i of the word is bit `i mod 8` of byte
`i div 8` (R91). -/
def leValue : List Byte → Nat
  | [] => 0
  | b :: bs => b.toNat + 256 * leValue bs

/-- The `k` low bytes of a number, least significant first (R91). -/
def leBytes : Nat → Nat → List Byte
  | 0, _ => []
  | k + 1, v => BitVec.ofNat 8 v :: leBytes k (v / 256)

/-- The fields of the command word CMD36 (R91). -/
structure Fields where
  op : BitVec 8
  n : BitVec 8
  m : BitVec 8
  f : BitVec 8
  a : Word128
  b : Word128
deriving DecidableEq, Repr

/-- CMD36 has 36 bytes (R91). -/
def wordBytes : Nat := 36

/-- The fields of the word of 288 bits (R91). -/
def fieldsOfWord (w : BitVec 288) : Fields where
  op := w.extractLsb' 0 8
  n := w.extractLsb' 8 8
  m := w.extractLsb' 16 8
  f := w.extractLsb' 24 8
  a := w.extractLsb' 32 128
  b := w.extractLsb' 160 128

/-- The word of 288 bits that has the fields (R91). -/
def wordOfFields (x : Fields) : BitVec 288 := x.b ++ x.a ++ x.f ++ x.m ++ x.n ++ x.op

/-- The fields of a frame's first 36 bytes (R91). -/
def fieldsOfFrame (frame : List Byte) : Fields :=
  fieldsOfWord (BitVec.ofNat 288 (leValue (frame.take wordBytes)))

/-- `a[63:0]`, the length of the payload of `BC_LOAD` (R94, R96). -/
def payloadLength (x : Fields) : Nat := x.a.low.toNat

/-- The length a frame with these fields must have: `36 + a[63:0]` if `op` is 0x21, else 36 (R94). -/
def requiredLength (x : Fields) : Nat :=
  if x.op = 0x21#8 then wordBytes + payloadLength x else wordBytes

/-- The first BitValue token of a command word (R96, 41_bitvalue.md R151). -/
def firstToken (x : Fields) : Token := ⟨x.n, x.f.getLsbD 0, x.a⟩

/-- The second BitValue token, of `BV_EQ` (R96, R151). -/
def secondToken (x : Fields) : Token := ⟨x.m, x.f.getLsbD 1, x.b⟩

/-- The opcode map (R95) with the operands of R96; the unused fields of a row are ignored. `none` is one of the 212
unassigned opcodes (R97). -/
def instrOfFields (x : Fields) (payload : List Byte) : Option Instr :=
  match x.op.toNat with
  | 0x01 => some (.wAdd x.a x.b)
  | 0x02 => some (.wSub x.a x.b)
  | 0x03 => some (.wAnd x.a x.b)
  | 0x04 => some (.wOr x.a x.b)
  | 0x05 => some (.wXor x.a x.b)
  | 0x06 => some (.wNot x.a)
  | 0x07 => some (.wShl x.a x.n)
  | 0x08 => some (.wShr x.a x.n)
  | 0x09 => some (.wSar x.a x.n)
  | 0x0A => some (.wCmpU x.a x.b)
  | 0x0B => some (.wCmpS x.a x.b)
  | 0x10 => some (.bvNewU x.a x.n)
  | 0x11 => some (.bvNewS x.a.low x.n)
  | 0x12 => some (.bvNewS128 x.a x.n)
  | 0x13 => some (.bvToU64 (firstToken x))
  | 0x14 => some (.bvToU128 (firstToken x))
  | 0x15 => some (.bvToI64 (firstToken x))
  | 0x16 => some (.bvToI128 (firstToken x))
  | 0x17 => some (.bvEq (firstToken x) (secondToken x))
  | 0x20 => some .bcClear
  | 0x21 => some (.bcLoad payload)
  | 0x22 => some (.bcWrite x.a.low x.n)
  | 0x23 => some (.bcRead x.n)
  | 0x24 => some (.bcWrite128 x.a x.n)
  | 0x25 => some (.bcRead128 x.n)
  | 0x26 => some (.bcWriteV (firstToken x))
  | 0x27 => some (.bcReadV (x.f.getLsbD 0) x.n)
  | 0x28 => some (.bcSeek x.a.low)
  | 0x29 => some .bcReset
  | 0x2A => some .bcAtEnd
  | 0x2B => some .bcStat
  | 0x2C => some .bcBytes
  | 0x30 => some (.rdOpen (x.a.extractLsb' 0 32))
  | 0x31 => some (.rdRead x.n)
  | 0x32 => some (.rdRead128 x.n)
  | 0x33 => some (.rdReadV (x.f.getLsbD 0) x.n)
  | 0x34 => some .rdAtEnd
  | 0x35 => some .rdClose
  | 0x40 => some (.wrOpen (x.f.getLsbD 0) (x.a.extractLsb' 0 32))
  | 0x41 => some (.wrWrite x.a.low x.n)
  | 0x42 => some (.wrWrite128 x.a x.n)
  | 0x43 => some (.wrWriteV (firstToken x))
  | 0x44 => some .wrFlush
  | 0x45 => some .wrClose
  | _ => none

/-- Why a frame is no command: the illegal frames of R94 and R97. All of them are answered `IllegalCommand`. -/
inductive DecodeError where
  /-- The frame is shorter than a command word, so it cannot have the length any command requires (R94). -/
  | shortFrame (length : Nat)
  /-- The frame's length is not the one its `op` and `a` require (R94). -/
  | wrongLength (required length : Nat)
  /-- `op` is one of the 212 values outside the opcode map (R97). -/
  | unassignedOpcode (op : BitVec 8)
deriving DecidableEq, Repr

/-- Decode a command frame (R94 to R97). -/
def decode (frame : List Byte) : Except DecodeError Instr :=
  if frame.length < wordBytes then .error (.shortFrame frame.length)
  else
    let x := fieldsOfFrame frame
    if frame.length ≠ requiredLength x then .error (.wrongLength (requiredLength x) frame.length)
    else
      match instrOfFields x (frame.drop wordBytes) with
      | some i => .ok i
      | none => .error (.unassignedOpcode x.op)

/-! The encoder: the same table read the other way, unused fields zero. -/

/-- Bit 0 of a byte, as `f[0]` carries it (R91). -/
def flagByte (b : Bool) : BitVec 8 := if b then 1#8 else 0#8

/-- A word with the opcode alone (R95). -/
def fieldsOp (op : BitVec 8) : Fields := ⟨op, 0, 0, 0, 0, 0⟩

/-- A word with two 128-bit operands (R95). -/
def fieldsAB (op : BitVec 8) (a b : Word128) : Fields := ⟨op, 0, 0, 0, a, b⟩

/-- A word with a count and one 128-bit operand (R95). -/
def fieldsNA (op n : BitVec 8) (a : Word128) : Fields := ⟨op, n, 0, 0, a, 0⟩

/-- A word with a flag, a count and one 128-bit operand (R95). -/
def fieldsFNA (op : BitVec 8) (f : Bool) (n : BitVec 8) (a : Word128) : Fields := ⟨op, n, 0, flagByte f, a, 0⟩

/-- The command word's fields, unused ones zero (R95, R96). -/
def fieldsOfInstr : Instr → Fields
  | .wAdd x y => fieldsAB 0x01 x y
  | .wSub x y => fieldsAB 0x02 x y
  | .wAnd x y => fieldsAB 0x03 x y
  | .wOr x y => fieldsAB 0x04 x y
  | .wXor x y => fieldsAB 0x05 x y
  | .wNot x => fieldsNA 0x06 0 x
  | .wShl x s => fieldsNA 0x07 s x
  | .wShr x s => fieldsNA 0x08 s x
  | .wSar x s => fieldsNA 0x09 s x
  | .wCmpU x y => fieldsAB 0x0A x y
  | .wCmpS x y => fieldsAB 0x0B x y
  | .bvNewU v n => fieldsNA 0x10 n v
  | .bvNewS v n => fieldsNA 0x11 n (v.setWidth 128)
  | .bvNewS128 v n => fieldsNA 0x12 n v
  | .bvToU64 t => fieldsFNA 0x13 t.sgn t.n t.ext
  | .bvToU128 t => fieldsFNA 0x14 t.sgn t.n t.ext
  | .bvToI64 t => fieldsFNA 0x15 t.sgn t.n t.ext
  | .bvToI128 t => fieldsFNA 0x16 t.sgn t.n t.ext
  | .bvEq t u => ⟨0x17, t.n, u.n, flagByte t.sgn + 2#8 * flagByte u.sgn, t.ext, u.ext⟩
  | .bcClear => fieldsOp 0x20
  | .bcLoad p => fieldsNA 0x21 0 (BitVec.ofNat 128 p.length)
  | .bcWrite v n => fieldsNA 0x22 n (v.setWidth 128)
  | .bcRead n => fieldsNA 0x23 n 0
  | .bcWrite128 v n => fieldsNA 0x24 n v
  | .bcRead128 n => fieldsNA 0x25 n 0
  | .bcWriteV t => fieldsFNA 0x26 t.sgn t.n t.ext
  | .bcReadV sgn n => fieldsFNA 0x27 sgn n 0
  | .bcSeek p => fieldsNA 0x28 0 (p.setWidth 128)
  | .bcReset => fieldsOp 0x29
  | .bcAtEnd => fieldsOp 0x2A
  | .bcStat => fieldsOp 0x2B
  | .bcBytes => fieldsOp 0x2C
  | .rdOpen c => fieldsNA 0x30 0 (c.setWidth 128)
  | .rdRead n => fieldsNA 0x31 n 0
  | .rdRead128 n => fieldsNA 0x32 n 0
  | .rdReadV sgn n => fieldsFNA 0x33 sgn n 0
  | .rdAtEnd => fieldsOp 0x34
  | .rdClose => fieldsOp 0x35
  | .wrOpen leave c => fieldsFNA 0x40 leave 0 (c.setWidth 128)
  | .wrWrite v n => fieldsNA 0x41 n (v.setWidth 128)
  | .wrWrite128 v n => fieldsNA 0x42 n v
  | .wrWriteV t => fieldsFNA 0x43 t.sgn t.n t.ext
  | .wrFlush => fieldsOp 0x44
  | .wrClose => fieldsOp 0x45

/-- The bytes that follow the command word: those of `BC_LOAD`, else none (R94). -/
def payloadOfInstr : Instr → List Byte
  | .bcLoad p => p
  | _ => []

/-- The frame of a command (R90, R91, R94). -/
def encode (i : Instr) : List Byte :=
  leBytes wordBytes (wordOfFields (fieldsOfInstr i)).toNat ++ payloadOfInstr i

/-- The frame whose bits are `w`, bit 0 the least significant bit of the first byte, of `nbits` bits; every bit of the
instruction above `nbits` is zero, up to the length the frame's own `op` and `a` require (R94). -/
def tableFrame (nbits w : Nat) : List Byte :=
  let head := leBytes (nbits / 8) w ++ List.replicate (wordBytes - nbits / 8) 0#8
  head ++ List.replicate (requiredLength (fieldsOfFrame head) - head.length) 0#8

/-- What the decoder reads from the instruction whose bits are `w` (see `tableFrame`). -/
def decodeTableWord (nbits w : Nat) : Option Instr :=
  match decode (tableFrame nbits w) with
  | .ok i => some i
  | .error _ => none

end Sys2Proof
end

