-- ==== Sys2Proof/Config.lean ====
section
/-! DEFINITION. What an implementation fixes (00_scope.md R9, 92_eei_decisions.md section 8), each at the value the spec
decides, and the free values: what a byte medium answers when State holds no answer for it (20_memory.md R80). -/

namespace Sys2Proof.Config

/-- The greatest value of `bc.cursor` and `bc.bit_length` (R9, D26; log 7). -/
def maxBits : Nat := 2 ^ 64 - 1

/-- The least capacity `RD_OPEN` and `WR_OPEN` accept (R9, D29; log 7). `CAP_MAX` = 2^32 - 1 holds by the field's width. -/
def capMin : Nat := 16

/-- The greatest capacity: what the 32-bit operand can say (R9, D29; log 7). -/
def capMax : Nat := 2 ^ 32 - 1

/-- The capacity that operand 0 selects (R8, R33). -/
def capDefault : Nat := 4096

/-- Whether BitValue equality also compares signedness: false (R9, R161, D18; log 8). -/
def bvEqSigned : Bool := false

/-- Free value: whether port call number `k` fails, where no answer stands on the port's tape (R80; log 2). -/
opaque freeCallFails : Nat → Bool

/-- Free value: the cause a failing port call number `k` gives (R80, 93_implementation_defined.md U12; log 2). -/
opaque freeCause : Nat → Word64

/-- Free value: the bytes a source has for `SrcRead` number `k`; the port hands on at most as many as were asked
(R80; log 2). -/
opaque freeBytes : Nat → List Byte

end Sys2Proof.Config
end

