-- ==== Sys2Proof/Machine/State.lean ====
section
/-! DEFINITION. The state of VBITS (10_state.md), as plain data: the container, the reader, the writer, and the boundary
of the block (70_reset_and_hazards.md R321) as lists of what the host presents and answers and of what the block
sends and calls. -/

namespace Sys2Proof.Machine

/-- A byte sequence by address: strictly rising addresses, no entry equal to what an unlisted address reads as (see
`Memory.wf`). -/
abbrev Memory := List Host.Cell

/-- What an address that is not listed reads as: growth appends zero bytes (42_container.md R183; log 6). -/
def Memory.blank : Byte := 0#8

/-- The Bit Container (10_state.md R26). `bc.len` is `ceil8(bc.bit_length)` (R27 (ii)) and is computed, not stored. -/
structure Container where
  /-- `bc.storage` -/
  storage : Memory
  /-- `bc.cursor`, a bit position -/
  cursor : Nat
  /-- `bc.bit_length` -/
  bitLength : Nat
deriving DecidableEq, Repr

/-- The Buffered Reader (10_state.md R29). -/
structure Reader where
  /-- `rd.open` -/
  opened : Bool
  /-- `rd.capacity`, in bytes -/
  capacity : Nat
  /-- `rd.buf` -/
  buf : Memory
  /-- `rd.buffer_size`, valid bytes loaded -/
  bufferSize : Nat
  /-- `rd.byte_pos` -/
  bytePos : Nat
  /-- `rd.bit_pos` -/
  bitPos : Nat
  /-- `rd.at_end_of_source` -/
  atEndOfSource : Bool
  /-- `rd.fatal` -/
  fatal : Bool
  /-- `rd.cause` -/
  cause : Word64
deriving DecidableEq, Repr

/-- The Buffered Writer (10_state.md R31). -/
structure Writer where
  /-- `wr.open` -/
  opened : Bool
  /-- `wr.capacity`, in bytes -/
  capacity : Nat
  /-- `wr.leave_open` -/
  leaveOpen : Bool
  /-- `wr.buf` -/
  buf : Memory
  /-- `wr.byte_pos` -/
  bytePos : Nat
  /-- `wr.bit_pos` -/
  bitPos : Nat
deriving DecidableEq, Repr

/-- What the host presents to the block between commands (R321): a command frame, or reset. -/
inductive HostInput where
  | frame (bytes : List Byte)
  | reset
deriving DecidableEq, Repr

/-- The answer to `SrcClose`, `SinkWrite`, `SinkFlush` or `SinkClose` (20_memory.md R80). -/
inductive PortAnswer where
  | ok
  | err (cause : Word64)
deriving DecidableEq, Repr

/-- The answer to `SrcRead` (R80); no bytes means end of data. -/
inductive ReadAnswer where
  | ok (bytes : List Byte)
  | err (cause : Word64)
deriving DecidableEq, Repr

/-- One port call the block has made, with the answer it got (R80). -/
inductive PortCall where
  | srcRead (count : Nat) (answer : ReadAnswer)
  | srcClose (answer : PortAnswer)
  | sinkWrite (bytes : List Byte) (answer : PortAnswer)
  | sinkFlush (answer : PortAnswer)
  | sinkClose (answer : PortAnswer)
deriving DecidableEq, Repr

/-- The boundary of the block (R321). The spec takes the answers of the media as an oracle supplied with the run: here a
tape for each port, whose head the next call takes; when a tape is empty the answer is a free value of Config, indexed
by `draws` (log 1, log 2, log 3). -/
structure Env where
  /-- what the host presents next, in order (command port and reset) -/
  inbox : List HostInput
  /-- the next answers to `SrcRead` -/
  srcReadTape : List ReadAnswer
  /-- the next answers to `SrcClose` -/
  srcCloseTape : List PortAnswer
  /-- the next answers to `SinkWrite` -/
  sinkWriteTape : List PortAnswer
  /-- the next answers to `SinkFlush` -/
  sinkFlushTape : List PortAnswer
  /-- the next answers to `SinkClose` -/
  sinkCloseTape : List PortAnswer
  /-- how many port calls have been made: the index of the next free answer -/
  draws : Nat
  /-- every port call made, oldest first -/
  calls : List PortCall
  /-- every response frame sent, oldest first (response port) -/
  responses : List (List Byte)
deriving DecidableEq, Repr

/-- The machine's state: the three units that hold any (00_scope.md R16) and the boundary. -/
structure State where
  bc : Container
  rd : Reader
  wr : Writer
  env : Env
deriving DecidableEq, Repr

/-- No command makes the block stop (00_scope.md R17), so there is no fault: every failure of the spec is the status of a
response (60_exceptions.md R280), and the machine goes on. Nothing raises a fault; that is safe (log 16). -/
inductive Fault
deriving DecidableEq, Repr

/-- Why a step has no meaning. -/
inductive Refusal where
  /-- Raised by `exec` for a command that has no meaning yet, by its mnemonic. No arm of this model raises it. Safe: the
  model stops where the hardware goes on. -/
  | notModelled (mnemonic : String)
  /-- Raised by `RD_READ`, `RD_READ128` and `RD_READV` when the source answers `SrcRead(K)` with more than K bytes: the
  medium has broken the contract of R80, and the spec gives such a run no meaning (93_implementation_defined.md U11;
  log 10). Safe: the model stops. -/
  | sourceBrokeContract
deriving DecidableEq, Repr

/-- The container "created empty" (R36, R310). -/
def emptyContainer : Container := ⟨[], 0, 0⟩

/-- The reader not open; its other fields, which the spec leaves unspecified and unobservable (R36), at log 4's values. -/
def closedReader : Reader := ⟨false, 0, [], 0, 0, 0, false, false, 0#64⟩

/-- The writer not open; its other fields, which the spec leaves unspecified and unobservable (R36), at log 4's values. -/
def closedWriter : Writer := ⟨false, 0, false, [], 0, 0⟩

/-- Nothing presented, nothing on a tape, nothing sent (log 5). -/
def idleEnv : Env := ⟨[], [], [], [], [], [], 0, [], []⟩

/-- The machine right after reset (R36, R310). -/
def State.reset : State := ⟨emptyContainer, closedReader, closedWriter, idleEnv⟩

end Sys2Proof.Machine
end

