-- ==== Sys2Proof/Machine/Operands.lean ====
section
/-! DEFINITION. Operand forms and results: the helper functions of 00_scope.md R12, BitValue tokens (41_bitvalue.md R151,
R152), and the response word RSP20 (30_encoding.md R92, R93, R98). -/

namespace Sys2Proof.Machine

/-- Bytes needed for k bits (R12). -/
def ceil8 (k : Nat) : Nat := (k + 7) / 8

/-- The storage width of a BitValue of n bits (R12, R150). -/
def storageWidth (n : Nat) : Nat :=
  if n ≤ 8 then 8 else if n ≤ 16 then 16 else if n ≤ 32 then 32 else if n ≤ 64 then 64 else 128

/-- `sext_128(v, k)`: the low k bits of v, sign-extended from bit k - 1 to 128 bits (R12). -/
def signExtend (v k : Nat) : Word128 :=
  let t := v % 2 ^ k
  if t.testBit (k - 1) then BitVec.ofNat 128 (t + (2 ^ 128 - 2 ^ k)) else BitVec.ofNat 128 t

/-- `value mod 2^n` as a 128-bit value (R12, R70). -/
def truncate (v : Word128) (n : Nat) : Word128 := BitVec.ofNat 128 (v.toNat % 2 ^ n)

/-- Whether a bit count lies outside `[1, limit]` (60_exceptions.md R284). -/
def badCount (n : BitVec 8) (limit : Nat) : Bool := n.toNat = 0 || limit < n.toNat

/-- Whether a shift amount is outside 0..127 (40_wide_integer.md R121). -/
def badShift (amount : BitVec 8) : Bool := 128 ≤ amount.toNat

/-- Well-formed tokens (41_bitvalue.md R152). -/
def tokenWellFormed (t : Token) : Bool :=
  decide (1 ≤ t.n.toNat) && decide (t.n.toNat ≤ 128) &&
    if t.sgn then t.ext == signExtend t.ext.toNat (storageWidth t.n.toNat)
    else decide (t.ext.toNat < 2 ^ t.n.toNat)

/-- The capacity an open command asks for: 0 selects the default (R33, R221, R251). -/
def askedCapacity (cap : BitVec 32) : Nat := if cap = 0#32 then Config.capDefault else cap.toNat

/-- The outcome of a command (30_encoding.md R98). -/
inductive Status where
  | ok
  | invalidBitCount
  | endOfStream
  | ioError
  | invalidConversion
  | illegalCommand
deriving DecidableEq, Repr

/-- The status codes (R98). -/
def statusCode : Status → BitVec 8
  | .ok => 0x00
  | .invalidBitCount => 0x01
  | .endOfStream => 0x02
  | .ioError => 0x03
  | .invalidConversion => 0x04
  | .illegalCommand => 0xFF

/-- What a response carries (R92, R93). -/
structure Response where
  status : Status
  n : BitVec 8
  sgn : Bool
  r : Word128
  payload : List Byte
deriving DecidableEq, Repr

/-- `respond OK(r)` (R93). -/
def okValue (r : Word128) : Response := ⟨.ok, 0, false, r, []⟩

/-- `respond OK(bv)` for a BitValue token (R93, R151). -/
def okToken (t : Token) : Response := ⟨.ok, t.n, t.sgn, t.ext, []⟩

/-- `respond OK(r, payload)` (R93). -/
def okPayload (r : Word128) (payload : List Byte) : Response := ⟨.ok, 0, false, r, payload⟩

/-- A failure other than `IoError`: `n = f = r = 0` and no payload (R93, R281). -/
def failed (status : Status) : Response := ⟨status, 0, false, 0, []⟩

/-- `IoError(cause)`: `r[63:0]` is the cause (R93, R281). -/
def ioFailed (cause : Word64) : Response := ⟨.ioError, 0, false, cause.setWidth 128, []⟩

/-- The response word RSP20, 160 bits: `status`, `n`, `f`, `z = 0`, `r` (R92). -/
def responseWord (x : Response) : BitVec 160 :=
  x.r ++ (0#8 : BitVec 8) ++ flagByte x.sgn ++ x.n ++ statusCode x.status

/-- The response frame: the 20 bytes of the word, then the payload (R90, R92). -/
def responseFrame (x : Response) : List Byte := leBytes 20 (responseWord x).toNat ++ x.payload

/-- The status `BC_SEEK` returns for a position beyond `bit_length`: the parameter `SEEK_ERR` at the value the spec
decides (R9, R192, D24; log 8). -/
def seekError : Status := .endOfStream

end Sys2Proof.Machine
end

