-- ==== Sys2Proof/Machine/Ops.lean ====
section
/-! DEFINITION. The named operations every unit shares: byte and bit access to a byte sequence and the packing rule
(20_memory.md R61 to R64), the response of a command and the failure mechanism (60_exceptions.md R280, R281), the five
port calls (20_memory.md R80), reset (70_reset_and_hazards.md R310). -/

namespace Sys2Proof.Machine

/-! ## Byte sequences -/

/-- The byte at an address. -/
def Memory.read : Memory → Nat → Byte
  | [], _ => Memory.blank
  | (k, v) :: rest, a => if k = a then v else Memory.read rest a

/-- Store one byte, keeping the canonical form: writing what an unlisted address reads as leaves no entry. -/
def Memory.write : Memory → Nat → Byte → Memory
  | [], a, b => if b = Memory.blank then [] else [(a, b)]
  | (k, v) :: rest, a, b =>
    if a < k then (if b = Memory.blank then (k, v) :: rest else (a, b) :: (k, v) :: rest)
    else if a = k then (if b = Memory.blank then rest else (a, b) :: rest)
    else (k, v) :: Memory.write rest a b

/-- Every address is at least `lo`, addresses rise strictly, and no entry is blank. -/
def Memory.wfFrom : Nat → Memory → Bool
  | _, [] => true
  | lo, (k, v) :: rest => decide (lo ≤ k) && (v != Memory.blank) && Memory.wfFrom (k + 1) rest

/-- The canonical form. -/
def Memory.wf (m : Memory) : Bool := Memory.wfFrom 0 m

/-- The `k` bytes from address `a`. -/
def Memory.readBytes (m : Memory) (a : Nat) : Nat → List Byte
  | 0 => []
  | k + 1 => Memory.read m a :: Memory.readBytes m (a + 1) k

/-- Store consecutive bytes from address `a`. -/
def Memory.writeBytes (m : Memory) (a : Nat) : List Byte → Memory
  | [] => m
  | b :: bs => Memory.writeBytes (Memory.write m a b) (a + 1) bs

/-! ## Bits (R61) -/

/-- A byte with bit `i` replaced. -/
def putBit (x : Byte) (i : Nat) (b : Bool) : Byte :=
  (x &&& ~~~(1#8 <<< i)) ||| (if b then 1#8 <<< i else 0#8)

/-- Replace bit `i` of the byte at address `a`. -/
def Memory.setBitOf (m : Memory) (a i : Nat) (b : Bool) : Memory := Memory.write m a (putBit (Memory.read m a) i b)

/-- `GetBit(S, p)` (R61). -/
def Memory.getBit (m : Memory) (p : Nat) : Bool := (Memory.read m (p / 8)).getLsbD (p % 8)

/-- The sequence with bit position `p` replaced (R61, R64). -/
def Memory.setBit (m : Memory) (p : Nat) (b : Bool) : Memory := Memory.setBitOf m (p / 8) (p % 8) b

/-- `Extract(S, p, n)`: the first bit read becomes bit 0 of the result (R63). -/
def Memory.extract (m : Memory) (p : Nat) : Nat → Nat
  | 0 => 0
  | n + 1 => (Memory.getBit m p).toNat + 2 * Memory.extract m (p + 1) n

/-- `Deposit(S, p, n, v)`: the n bits of the field are replaced, every other bit is kept (R64). -/
def Memory.deposit (m : Memory) (p : Nat) : Nat → Nat → Memory
  | 0, _ => m
  | n + 1, v => Memory.deposit (Memory.setBit m p (v.testBit 0)) (p + 1) n (v / 2)

/-! ## Responses and failures -/

/-- A command's answer, or the stop of 93_implementation_defined.md U11. -/
abbrev Result := Host.Outcome State Fault Refusal

/-- Send a response frame (30_encoding.md R90). -/
def State.respond (s : State) (x : Response) : State :=
  { s with env := { s.env with responses := s.env.responses ++ [responseFrame x] } }

/-- End a command with a response; the block then accepts the next command (R281, R317). -/
def answer (x : Response) (s : State) : Result := .next (s.respond x)

/-- `raise S` (R281): the failure mechanism of the block, for every status but `IoError`. It saves nothing, changes no
mode and vectors nowhere (R283): the status in the response is all there is. -/
def raise (status : Status) (s : State) : Result := answer (failed status) s

/-- `raise IoError(cause)` (R281). -/
def raiseIo (cause : Word64) (s : State) : Result := answer (ioFailed cause) s

/-! ## Port calls (R80) -/

/-- The answer of a close, write or flush port that has no answer on its tape: a free value (log 2). -/
def freePortAnswer (k : Nat) : PortAnswer :=
  if Config.freeCallFails k then .err (Config.freeCause k) else .ok

/-- The answer of a source asked for `count` bytes that has no answer on its tape: a free value under the one law of
R80, at most `count` bytes (log 2). -/
def freeReadAnswer (k count : Nat) : ReadAnswer :=
  if Config.freeCallFails k then .err (Config.freeCause k) else .ok ((Config.freeBytes k).take count)

/-- The next answer of a port: the head of its tape, else the free answer. -/
def nextAnswer (tape : List PortAnswer) (k : Nat) : PortAnswer :=
  match tape with
  | a :: _ => a
  | [] => freePortAnswer k

/-- What `SrcRead(count)` answers now. -/
def srcReadAnswer (s : State) (count : Nat) : ReadAnswer :=
  match s.env.srcReadTape with
  | a :: _ => a
  | [] => freeReadAnswer s.env.draws count

/-- What `SrcClose()` answers now. -/
def srcCloseAnswer (s : State) : PortAnswer := nextAnswer s.env.srcCloseTape s.env.draws

/-- What `SinkWrite(bytes)` answers now. -/
def sinkWriteAnswer (s : State) : PortAnswer := nextAnswer s.env.sinkWriteTape s.env.draws

/-- What `SinkFlush()` answers now. -/
def sinkFlushAnswer (s : State) : PortAnswer := nextAnswer s.env.sinkFlushTape s.env.draws

/-- What `SinkClose()` answers now. -/
def sinkCloseAnswer (s : State) : PortAnswer := nextAnswer s.env.sinkCloseTape s.env.draws

/-- The state after the call `SrcRead(count)`: its answer taken, the call recorded. -/
def afterSrcRead (s : State) (count : Nat) : State :=
  { s with env := { s.env with
      srcReadTape := s.env.srcReadTape.tail, draws := s.env.draws + 1,
      calls := s.env.calls ++ [.srcRead count (srcReadAnswer s count)] } }

/-- The state after the call `SrcClose()`. -/
def afterSrcClose (s : State) : State :=
  { s with env := { s.env with
      srcCloseTape := s.env.srcCloseTape.tail, draws := s.env.draws + 1,
      calls := s.env.calls ++ [.srcClose (srcCloseAnswer s)] } }

/-- The state after the call `SinkWrite(bytes)`. -/
def afterSinkWrite (s : State) (bytes : List Byte) : State :=
  { s with env := { s.env with
      sinkWriteTape := s.env.sinkWriteTape.tail, draws := s.env.draws + 1,
      calls := s.env.calls ++ [.sinkWrite bytes (sinkWriteAnswer s)] } }

/-- The state after the call `SinkFlush()`. -/
def afterSinkFlush (s : State) : State :=
  { s with env := { s.env with
      sinkFlushTape := s.env.sinkFlushTape.tail, draws := s.env.draws + 1,
      calls := s.env.calls ++ [.sinkFlush (sinkFlushAnswer s)] } }

/-- The state after the call `SinkClose()`. -/
def afterSinkClose (s : State) : State :=
  { s with env := { s.env with
      sinkCloseTape := s.env.sinkCloseTape.tail, draws := s.env.draws + 1,
      calls := s.env.calls ++ [.sinkClose (sinkCloseAnswer s)] } }

/-! ## The command port and reset -/

/-- What the host presents now. -/
inductive Presented where
  /-- Nothing: between commands the block is idle and holds its state (R300). -/
  | nothing
  /-- The reset event (R310). -/
  | reset (s : State)
  /-- A command frame (R90). -/
  | frame (bytes : List Byte) (s : State)

/-- Take the host's next input; the state that remains no longer holds it (R90, R317). -/
def takeInput (s : State) : Presented :=
  match s.env.inbox with
  | [] => .nothing
  | .reset :: rest => .reset { s with env := { s.env with inbox := rest } }
  | .frame bytes :: rest => .frame bytes { s with env := { s.env with inbox := rest } }

/-- The reset event: the container empty, reader and writer not open, no port call made, nothing sent (R310, R311). -/
def applyReset (s : State) : State := ⟨emptyContainer, closedReader, closedWriter, s.env⟩

/-- A frame that is no command: `IllegalCommand`, no state changed (30_encoding.md R94, R97). -/
def rejectFrame (s : State) : Result := raise .illegalCommand s

end Sys2Proof.Machine
end

