-- ==== Sys2Proof/Machine/BitValue.lean ====
section
/-! DEFINITION. The BitValue unit BVU (41_bitvalue.md). It keeps no state and makes no port call (R162). -/

namespace Sys2Proof.Machine

/-- The unsigned constructor: mask to n bits (R153). -/
def unsignedToken (value : Word128) (n : BitVec 8) : Token := ⟨n, false, truncate value n.toNat⟩

/-- The signed constructors: cut to the storage width, no masking to n bits (R154, R155). -/
def signedToken (value : Nat) (n : BitVec 8) : Token := ⟨n, true, signExtend value (storageWidth n.toNat)⟩

/-- "A negative 128-bit value": signed, of kind I128, with bit 127 set (R157, 60_exceptions.md R288). -/
def negativeWide (t : Token) : Bool := t.sgn && storageWidth t.n.toNat == 128 && t.ext.getLsbD 127

/-- BitValue equality: the same `bit_count` and the same stored pattern, and the same signedness only if the parameter
`BV_EQ_SIGNED` says so (R161). -/
def tokensEqual (t u : Token) : Bool :=
  let w := storageWidth t.n.toNat
  (t.n == u.n) && (t.ext.toNat % 2 ^ w == u.ext.toNat % 2 ^ w) && (!Config.bvEqSigned || t.sgn == u.sgn)

/-- 1 or 0 as a result. -/
def flagValue (b : Bool) : Word128 := if b then 1 else 0

/-- `BV_NEWU` (R153). -/
def execBvNewU (value : Word128) (n : BitVec 8) (s : State) : Result :=
  if badCount n 128 then raise .invalidBitCount s else answer (okToken (unsignedToken value n)) s

/-- `BV_NEWS` (R154). -/
def execBvNewS (value : Word64) (n : BitVec 8) (s : State) : Result :=
  if badCount n 64 then raise .invalidBitCount s else answer (okToken (signedToken value.toNat n)) s

/-- `BV_NEWS128` (R155). -/
def execBvNewS128 (value : Word128) (n : BitVec 8) (s : State) : Result :=
  if badCount n 128 then raise .invalidBitCount s else answer (okToken (signedToken value.toNat n)) s

/-- `BV_TOU64` (R157). -/
def execBvToU64 (t : Token) (s : State) : Result :=
  if !tokenWellFormed t then raise .illegalCommand s
  else if negativeWide t then raise .invalidConversion s
  else answer (okValue (t.ext.low.setWidth 128)) s

/-- `BV_TOU128` (R158). -/
def execBvToU128 (t : Token) (s : State) : Result :=
  if !tokenWellFormed t then raise .illegalCommand s else answer (okValue t.ext) s

/-- `BV_TOI64` (R159): the signed result is sign-extended into `r`. -/
def execBvToI64 (t : Token) (s : State) : Result :=
  if !tokenWellFormed t then raise .illegalCommand s else answer (okValue (signExtend t.ext.low.toNat 64)) s

/-- `BV_TOI128` (R160). -/
def execBvToI128 (t : Token) (s : State) : Result :=
  if !tokenWellFormed t then raise .illegalCommand s else answer (okValue t.ext) s

/-- `BV_EQ` (R161). -/
def execBvEq (t u : Token) (s : State) : Result :=
  if !tokenWellFormed t || !tokenWellFormed u then raise .illegalCommand s
  else answer (okValue (flagValue (tokensEqual t u))) s

end Sys2Proof.Machine
end

