-- ==== Sys2Proof/Machine/Container.lean ====
section
/-! DEFINITION. The Bit Container BCU (42_container.md). No command of it makes a port call, and a command that raises
changes no state (R180). -/

namespace Sys2Proof.Machine

/-- `bc.len`: storage holds exactly the bytes the valid bits need (10_state.md R27 (ii)). -/
def containerBytes (c : Container) : Nat := ceil8 c.bitLength

/-- `BcPut(v, n)`, the container's field write (R184). `Grow(cursor + n)` (R183) appends zero bytes: unlisted bytes read as
zero and the length is computed from `bit_length`, so it is the update of `bit_length` that grows the storage. -/
def bcPut (v n : Nat) (c : Container) : Container where
  storage := c.storage.deposit c.cursor n v
  cursor := c.cursor + n
  bitLength := max c.bitLength (c.cursor + n)

/-- `BcGet(n)`, the container's field read: the value (R197). -/
def bcGet (n : Nat) (c : Container) : Nat := c.storage.extract c.cursor n

/-- The cursor moved on by n bits (R197). -/
def bcAdvance (n : Nat) (c : Container) : Container := { c with cursor := c.cursor + n }

/-- The field write of the 128-bit path, low half first (R188, 20_memory.md R70). -/
def bcPutWide (value : Word128) (n : Nat) (c : Container) : Container :=
  let v := truncate value n
  if n ≤ 64 then bcPut v.low.toNat n c
  else bcPut v.high.toNat (n - 64) (bcPut v.low.toNat 64 c)

/-- The field read of the 128-bit path, low half first (R189, 20_memory.md R70). -/
def bcGetWide (n : Nat) (c : Container) : Word128 :=
  if n ≤ 64 then BitVec.ofNat 128 (bcGet n c)
  else
    let lo := bcGet 64 c
    let hi := bcGet (n - 64) (bcAdvance 64 c)
    Word128.ofPair (BitVec.ofNat 64 hi) (BitVec.ofNat 64 lo)

/-- Whether a field of n bits would end beyond `MAXBITS` (R185). -/
def pastMaxBits (n : Nat) (c : Container) : Bool := Config.maxBits < c.cursor + n

/-- Whether fewer than n bits remain (20_memory.md R69). -/
def fewerBits (n : Nat) (c : Container) : Bool := c.bitLength < c.cursor + n

/-- The token of a tagged-value read (R191). -/
def readToken (sgn : Bool) (n : BitVec 8) (raw : Word128) : Token :=
  ⟨n, sgn, if sgn then signExtend raw.toNat n.toNat else raw⟩

/-- Replace the container. -/
def State.withContainer (s : State) (c : Container) : State := { s with bc := c }

/-- `BC_CLEAR` (R181). -/
def execBcClear (s : State) : Result := answer (okValue 0) (s.withContainer emptyContainer)

/-- `BC_LOAD` (R182); that the frame carries exactly the payload it announces is the decoder's test (R94). -/
def execBcLoad (payload : List Byte) (s : State) : Result :=
  if Config.maxBits < 8 * payload.length then raise .illegalCommand s
  else answer (okValue 0) (s.withContainer ⟨Memory.writeBytes [] 0 payload, 0, 8 * payload.length⟩)

/-- `BC_WRITE` (R186). -/
def execBcWrite (value : Word64) (n : BitVec 8) (s : State) : Result :=
  if badCount n 64 then raise .invalidBitCount s
  else if pastMaxBits n.toNat s.bc then raise .illegalCommand s
  else answer (okValue 0) (s.withContainer (bcPut value.toNat n.toNat s.bc))

/-- `BC_READ` (R187). -/
def execBcRead (n : BitVec 8) (s : State) : Result :=
  if badCount n 64 then raise .invalidBitCount s
  else if fewerBits n.toNat s.bc then raise .endOfStream s
  else answer (okValue (BitVec.ofNat 128 (bcGet n.toNat s.bc))) (s.withContainer (bcAdvance n.toNat s.bc))

/-- `BC_WRITE128` (R188). -/
def execBcWrite128 (value : Word128) (n : BitVec 8) (s : State) : Result :=
  if badCount n 128 then raise .invalidBitCount s
  else if pastMaxBits n.toNat s.bc then raise .illegalCommand s
  else answer (okValue 0) (s.withContainer (bcPutWide value n.toNat s.bc))

/-- `BC_READ128` (R189): all n bits are tested for before the first segment. -/
def execBcRead128 (n : BitVec 8) (s : State) : Result :=
  if badCount n 128 then raise .invalidBitCount s
  else if fewerBits n.toNat s.bc then raise .endOfStream s
  else answer (okValue (bcGetWide n.toNat s.bc)) (s.withContainer (bcAdvance n.toNat s.bc))

/-- `BC_WRITEV` (R190). -/
def execBcWriteV (t : Token) (s : State) : Result :=
  if !tokenWellFormed t then raise .illegalCommand s
  else if pastMaxBits t.n.toNat s.bc then raise .illegalCommand s
  else answer (okValue 0) (s.withContainer (bcPutWide t.ext t.n.toNat s.bc))

/-- `BC_READV` (R191). -/
def execBcReadV (sgn : Bool) (n : BitVec 8) (s : State) : Result :=
  if badCount n 128 then raise .invalidBitCount s
  else if fewerBits n.toNat s.bc then raise .endOfStream s
  else answer (okToken (readToken sgn n (bcGetWide n.toNat s.bc))) (s.withContainer (bcAdvance n.toNat s.bc))

/-- `BC_SEEK` (R192). -/
def execBcSeek (position : Word64) (s : State) : Result :=
  if s.bc.bitLength < position.toNat then raise seekError s
  else answer (okValue 0) (s.withContainer { s.bc with cursor := position.toNat })

/-- `BC_RESET` (R193). -/
def execBcReset (s : State) : Result := answer (okValue 0) (s.withContainer { s.bc with cursor := 0 })

/-- `BC_ATEND` (R194). -/
def execBcAtEnd (s : State) : Result := answer (okValue (flagValue (decide (s.bc.cursor = s.bc.bitLength)))) s

/-- `BC_STAT` (R195). -/
def execBcStat (s : State) : Result :=
  answer (okValue (Word128.ofPair (BitVec.ofNat 64 s.bc.bitLength) (BitVec.ofNat 64 s.bc.cursor))) s

/-- `BC_BYTES` (R196). -/
def execBcBytes (s : State) : Result :=
  let k := containerBytes s.bc
  answer (okPayload (BitVec.ofNat 128 k) (s.bc.storage.readBytes 0 k)) s

end Sys2Proof.Machine
end

