-- ==== Sys2Proof/Machine/Reader.lean ====
section
/-! DEFINITION. The Buffered Bit Reader BRU (43_reader.md). -/

namespace Sys2Proof.Machine

/-- What a reader step gives: a value and the state it leaves, a failure and the state it leaves, or the stop of
93_implementation_defined.md U11. -/
inductive Pull (α : Type) where
  | got (value : α) (s : State)
  | endOfStream (s : State)
  | ioError (cause : Word64) (s : State)
  | brokenContract

/-- The reader with another chunk loaded (R223). -/
def loadChunk (bytes : List Byte) (r : Reader) : Reader :=
  { r with buf := r.buf.writeBytes 0 bytes, bufferSize := bytes.length, bytePos := 0, bitPos := 0 }

/-- `Fill()` (R223): one `SrcRead` for the whole capacity. -/
def fillBuffer (s : State) : Pull Unit :=
  let k := s.rd.capacity
  let t := afterSrcRead s k
  match srcReadAnswer s k with
  | .err cause => .ioError cause { t with rd := { t.rd with fatal := true, cause := cause } }
  | .ok bytes =>
    if k < bytes.length then .brokenContract
    else if bytes = [] then .endOfStream { t with rd := { t.rd with atEndOfSource := true } }
    else .got () { t with rd := loadChunk bytes t.rd }

/-- The bit under the reader's cursor (R230). -/
def readerBit (r : Reader) : Bool := (r.buf.read r.bytePos).getLsbD r.bitPos

/-- The reader's cursor one bit on (R230). -/
def readerAdvance (r : Reader) : Reader :=
  if r.bitPos + 1 = 8 then { r with bitPos := 0, bytePos := r.bytePos + 1 } else { r with bitPos := r.bitPos + 1 }

/-- Take the bit under the cursor (R230). -/
def takeBit (s : State) : Pull Bool := .got (readerBit s.rd) { s with rd := readerAdvance s.rd }

/-- `RdBit()` (R230). -/
def rdBit (s : State) : Pull Bool :=
  if s.rd.bytePos = s.rd.bufferSize then
    if s.rd.atEndOfSource then .endOfStream s
    else
      match fillBuffer s with
      | .got () t => takeBit t
      | .endOfStream t => .endOfStream t
      | .ioError cause t => .ioError cause t
      | .brokenContract => .brokenContract
  else takeBit s

/-- `RdGet(n)` (R230): the first bit is bit 0. A failure part-way leaves the bits already taken consumed (R226). -/
def rdGet : Nat → State → Pull Nat
  | 0, s => .got 0 s
  | n + 1, s =>
    match rdBit s with
    | .got b t =>
      match rdGet n t with
      | .got v u => .got (b.toNat + 2 * v) u
      | .endOfStream u => .endOfStream u
      | .ioError cause u => .ioError cause u
      | .brokenContract => .brokenContract
    | .endOfStream t => .endOfStream t
    | .ioError cause t => .ioError cause t
    | .brokenContract => .brokenContract

/-- The field read of the 128-bit path, low half first (R225, 20_memory.md R70). -/
def rdGetWide (n : Nat) (s : State) : Pull Word128 :=
  if n ≤ 64 then
    match rdGet n s with
    | .got v t => .got (BitVec.ofNat 128 v) t
    | .endOfStream t => .endOfStream t
    | .ioError cause t => .ioError cause t
    | .brokenContract => .brokenContract
  else
    match rdGet 64 s with
    | .got lo t =>
      match rdGet (n - 64) t with
      | .got hi u => .got (Word128.ofPair (BitVec.ofNat 64 hi) (BitVec.ofNat 64 lo)) u
      | .endOfStream u => .endOfStream u
      | .ioError cause u => .ioError cause u
      | .brokenContract => .brokenContract
    | .endOfStream t => .endOfStream t
    | .ioError cause t => .ioError cause t
    | .brokenContract => .brokenContract

/-- End a reader command: the value as the response says it, or the failure (R224 to R227). -/
def finishPull {α : Type} (asResponse : α → Response) (p : Pull α) : Result :=
  match p with
  | .got v s => answer (asResponse v) s
  | .endOfStream s => raise .endOfStream s
  | .ioError cause s => raiseIo cause s
  | .brokenContract => .refused .sourceBrokeContract

/-- `RD_OPEN` (R221). -/
def execRdOpen (cap : BitVec 32) (s : State) : Result :=
  if s.rd.opened then raise .illegalCommand s
  else if askedCapacity cap < Config.capMin then raise .illegalCommand s
  else answer (okValue 0)
    { s with rd := { s.rd with
        opened := true, capacity := askedCapacity cap, bufferSize := 0, bytePos := 0, bitPos := 0,
        atEndOfSource := false, fatal := false, cause := 0 } }

/-- `RD_READ` (R224). -/
def execRdRead (n : BitVec 8) (s : State) : Result :=
  if !s.rd.opened then raise .illegalCommand s
  else if badCount n 64 then raise .invalidBitCount s
  else if s.rd.fatal then raiseIo s.rd.cause s
  else finishPull (fun v => okValue (BitVec.ofNat 128 v)) (rdGet n.toNat s)

/-- `RD_READ128` (R225). -/
def execRdRead128 (n : BitVec 8) (s : State) : Result :=
  if !s.rd.opened then raise .illegalCommand s
  else if badCount n 128 then raise .invalidBitCount s
  else if s.rd.fatal then raiseIo s.rd.cause s
  else finishPull okValue (rdGetWide n.toNat s)

/-- `RD_READV` (R227). -/
def execRdReadV (sgn : Bool) (n : BitVec 8) (s : State) : Result :=
  if !s.rd.opened then raise .illegalCommand s
  else if badCount n 128 then raise .invalidBitCount s
  else if s.rd.fatal then raiseIo s.rd.cause s
  else finishPull (fun raw => okToken (readToken sgn n raw)) (rdGetWide n.toNat s)

/-- `RD_ATEND` (R228): a pure query. -/
def execRdAtEnd (s : State) : Result :=
  if !s.rd.opened then raise .illegalCommand s
  else answer (okValue (flagValue s.rd.atEndOfSource)) s

/-- `RD_CLOSE` (R229): a failing close leaves the reader open. -/
def execRdClose (s : State) : Result :=
  if !s.rd.opened then raise .illegalCommand s
  else
    let t := afterSrcClose s
    match srcCloseAnswer s with
    | .err cause => raiseIo cause t
    | .ok => answer (okValue 0) { t with rd := { t.rd with opened := false } }

end Sys2Proof.Machine
end

