-- ==== Sys2Proof/Machine/Flags.lean ====
section
/-! DEFINITION. VBITS has no flags (10_state.md R22): no command leaves a carry, borrow or comparison anywhere. What a
machine with flags would compute for them exists only inside a wide-integer command: the carry and borrow between the
two words, and the three-way comparison code (40_wide_integer.md R122, R123, R131, R132). -/

namespace Sys2Proof.Machine

/-- The carry out of the sum of two 64-bit words, 0 or 1 (R122). -/
def carryOut (x y : Word64) : Nat := (x.toNat + y.toNat) / 2 ^ 64

/-- The borrow of the difference of two 64-bit words, 0 or 1 (R123). -/
def borrowOut (x y : Word64) : Nat := if x.toNat < y.toNat then 1 else 0

/-- The code of a comparison: 0 equal, 1 less, 2 greater (R131). -/
def orderCode (less equal : Bool) : Word128 := if equal then 0 else if less then 1 else 2

/-- Unsigned comparison, high words first (R131). -/
def compareUnsigned (x y : Word128) : Word128 :=
  if x.high = y.high then orderCode (decide (x.low.toNat < y.low.toNat)) (x.low == y.low)
  else orderCode (decide (x.high.toNat < y.high.toNat)) false

/-- Signed comparison: the high words as signed numbers, then the low words as unsigned numbers (R132). -/
def compareSigned (x y : Word128) : Word128 :=
  if x.high = y.high then orderCode (decide (x.low.toNat < y.low.toNat)) (x.low == y.low)
  else orderCode (decide (x.high.toInt < y.high.toInt)) false

end Sys2Proof.Machine
end

