-- ==== Sys2Proof/Machine/Wide.lean ====
section
/-! DEFINITION. The wide-integer unit WIA (40_wide_integer.md), word by word as R122 to R132 give it. Every command is a
function of its operands alone: it reads and writes no state and makes no port call (R120). -/

namespace Sys2Proof.Machine

/-- Word-level sum (R122). -/
def wideAdd (x y : Word128) : Word128 :=
  Word128.ofPair (BitVec.ofNat 64 (x.high.toNat + y.high.toNat + carryOut x.low y.low)) (x.low + y.low)

/-- Word-level difference (R123). -/
def wideSub (x y : Word128) : Word128 :=
  Word128.ofPair (x.high - y.high - BitVec.ofNat 64 (borrowOut x.low y.low)) (x.low - y.low)

/-- A bitwise operation acts on the two words independently (R124 to R127). -/
def wideBitwise (op : Word64 → Word64 → Word64) (x y : Word128) : Word128 :=
  Word128.ofPair (op x.high y.high) (op x.low y.low)

/-- Word-level left shift by 0 to 127 (R128). -/
def wideShl (x : Word128) (s : Nat) : Word128 :=
  if s = 0 then x
  else if s < 64 then Word128.ofPair ((x.high <<< s) ||| (x.low >>> (64 - s))) (x.low <<< s)
  else if s = 64 then Word128.ofPair x.low 0
  else Word128.ofPair (x.low <<< (s - 64)) 0

/-- Word-level logical right shift by 0 to 127 (R129). -/
def wideShr (x : Word128) (s : Nat) : Word128 :=
  if s = 0 then x
  else if s < 64 then Word128.ofPair (x.high >>> s) ((x.low >>> s) ||| (x.high <<< (64 - s)))
  else if s = 64 then Word128.ofPair 0 x.high
  else Word128.ofPair 0 (x.high >>> (s - 64))

/-- The word that copies of the sign bit fill (R130). -/
def signWord (x : Word128) : Word64 := if x.getLsbD 127 then BitVec.allOnes 64 else 0

/-- Word-level arithmetic right shift by 0 to 127 (R130). -/
def wideSar (x : Word128) (s : Nat) : Word128 :=
  if s = 0 then x
  else if s < 64 then Word128.ofPair (x.high.sshiftRight s) ((x.low >>> s) ||| (x.high <<< (64 - s)))
  else if s = 64 then Word128.ofPair (signWord x) x.high
  else Word128.ofPair (signWord x) (x.high.sshiftRight (s - 64))

/-- A shift command: an amount of 128 or more is an illegal encoding (R121). -/
def shiftBy (f : Word128 → Nat → Word128) (x : Word128) (amount : BitVec 8) (s : State) : Result :=
  if badShift amount then raise .illegalCommand s else answer (okValue (f x amount.toNat)) s

/-- `W_ADD` (R122). -/
def execWAdd (x y : Word128) (s : State) : Result := answer (okValue (wideAdd x y)) s

/-- `W_SUB` (R123). -/
def execWSub (x y : Word128) (s : State) : Result := answer (okValue (wideSub x y)) s

/-- `W_AND` (R124). -/
def execWAnd (x y : Word128) (s : State) : Result := answer (okValue (wideBitwise (· &&& ·) x y)) s

/-- `W_OR` (R125). -/
def execWOr (x y : Word128) (s : State) : Result := answer (okValue (wideBitwise (· ||| ·) x y)) s

/-- `W_XOR` (R126). -/
def execWXor (x y : Word128) (s : State) : Result := answer (okValue (wideBitwise (· ^^^ ·) x y)) s

/-- `W_NOT` (R127). -/
def execWNot (x : Word128) (s : State) : Result := answer (okValue (wideBitwise (fun w _ => ~~~w) x x)) s

/-- `W_SHL` (R128). -/
def execWShl (x : Word128) (amount : BitVec 8) (s : State) : Result := shiftBy wideShl x amount s

/-- `W_SHR` (R129). -/
def execWShr (x : Word128) (amount : BitVec 8) (s : State) : Result := shiftBy wideShr x amount s

/-- `W_SAR` (R130). -/
def execWSar (x : Word128) (amount : BitVec 8) (s : State) : Result := shiftBy wideSar x amount s

/-- `W_CMPU` (R131). -/
def execWCmpU (x y : Word128) (s : State) : Result := answer (okValue (compareUnsigned x y)) s

/-- `W_CMPS` (R132). -/
def execWCmpS (x y : Word128) (s : State) : Result := answer (okValue (compareSigned x y)) s

end Sys2Proof.Machine
end

