-- ==== Sys2Proof/Machine/Writer.lean ====
section
/-! DEFINITION. The Buffered Bit Writer BWU (44_writer.md). -/

namespace Sys2Proof.Machine

/-- What a writer step gives: it is done, or a port call failed; and the state it leaves. -/
inductive Push where
  | done (s : State)
  | ioError (cause : Word64) (s : State)

/-- `FlushFull()` (R253): one `SinkWrite` of the whole buffer, no `SinkFlush`. -/
def flushFull (s : State) : Push :=
  let bytes := s.wr.buf.readBytes 0 s.wr.capacity
  let t := afterSinkWrite s bytes
  match sinkWriteAnswer s with
  | .err cause => .ioError cause t
  | .ok => .done { t with wr := { t.wr with bytePos := 0 } }

/-- A bit put into the writer's buffer, a clean byte started where it is the first of its byte (R257). -/
def placeBit (b : Bool) (w : Writer) : Writer :=
  let clean := if w.bitPos = 0 then w.buf.write w.bytePos 0 else w.buf
  { w with buf := clean.setBitOf w.bytePos w.bitPos b }

/-- One bit of `WrPut` (R257): a full buffer is flushed in the step that fills it. -/
def wrBit (b : Bool) (s : State) : Push :=
  let w := placeBit b s.wr
  if w.bitPos + 1 = 8 then
    let t := { s with wr := { w with bitPos := 0, bytePos := w.bytePos + 1 } }
    if t.wr.bytePos = t.wr.capacity then flushFull t else .done t
  else .done { s with wr := { w with bitPos := w.bitPos + 1 } }

/-- The n low bits of v, bit 0 first (R257). -/
def wrBits : Nat → Nat → State → Push
  | 0, _, s => .done s
  | n + 1, v, s =>
    match wrBit (v.testBit 0) s with
    | .done t => wrBits n (v / 2) t
    | .ioError cause t => .ioError cause t

/-- The segments `(v, n)` of a command in transfer order (R257). -/
def wrSegments : List (Nat × Nat) → State → Push
  | [], s => .done s
  | (v, n) :: rest, s =>
    match wrBits n v s with
    | .done t => wrSegments rest t
    | .ioError cause t => .ioError cause t

/-- `WrPut(segments)` (R257): on a failed flush the buffer and both positions are as before the command. -/
def wrPut (segments : List (Nat × Nat)) (s : State) : Push :=
  match wrSegments segments s with
  | .done t => .done t
  | .ioError cause t =>
    .ioError cause { t with wr := { t.wr with buf := s.wr.buf, bytePos := s.wr.bytePos, bitPos := s.wr.bitPos } }

/-- The segments of a field of the 128-bit path, low half first (R255). -/
def wideSegments (value : Word128) (n : Nat) : List (Nat × Nat) :=
  let v := truncate value n
  if n ≤ 64 then [(v.low.toNat, n)] else [(v.low.toNat, 64), (v.high.toNat, n - 64)]

/-- The length of the valid prefix of the buffer, a pending partial byte included (R258). -/
def pendingBytes (w : Writer) : Nat := w.bytePos + (if 0 < w.bitPos then 1 else 0)

/-- Hand the valid prefix of the buffer to the sink, if there is any (R258). -/
def flushPending (s : State) : Push :=
  if 0 < pendingBytes s.wr then
    let t := afterSinkWrite s (s.wr.buf.readBytes 0 (pendingBytes s.wr))
    match sinkWriteAnswer s with
    | .err cause => .ioError cause t
    | .ok => .done { t with wr := { t.wr with bytePos := 0, bitPos := 0 } }
  else .done s

/-- The steps of `WR_FLUSH` after its gate: the pending bytes, then the sink's own flush (R258). -/
def flushSteps (s : State) : Push :=
  match flushPending s with
  | .ioError cause t => .ioError cause t
  | .done t =>
    match sinkFlushAnswer t with
    | .err cause => .ioError cause (afterSinkFlush t)
    | .ok => .done (afterSinkFlush t)

/-- Close the sink unless the writer leaves it open (R259). -/
def closeSink (s : State) : Push :=
  if s.wr.leaveOpen then .done s
  else
    match sinkCloseAnswer s with
    | .err cause => .ioError cause (afterSinkClose s)
    | .ok => .done (afterSinkClose s)

/-- End a writer command (R254 to R259). -/
def finishPush (p : Push) : Result :=
  match p with
  | .done s => answer (okValue 0) s
  | .ioError cause s => raiseIo cause s

/-- `WR_OPEN` (R251). -/
def execWrOpen (leave : Bool) (cap : BitVec 32) (s : State) : Result :=
  if s.wr.opened then raise .illegalCommand s
  else if askedCapacity cap < Config.capMin then raise .illegalCommand s
  else answer (okValue 0)
    { s with wr := { s.wr with
        opened := true, capacity := askedCapacity cap, leaveOpen := leave, bytePos := 0, bitPos := 0 } }

/-- `WR_WRITE` (R254). -/
def execWrWrite (value : Word64) (n : BitVec 8) (s : State) : Result :=
  if !s.wr.opened then raise .illegalCommand s
  else if badCount n 64 then raise .invalidBitCount s
  else finishPush (wrPut [(value.toNat, n.toNat)] s)

/-- `WR_WRITE128` (R255). -/
def execWrWrite128 (value : Word128) (n : BitVec 8) (s : State) : Result :=
  if !s.wr.opened then raise .illegalCommand s
  else if badCount n 128 then raise .invalidBitCount s
  else finishPush (wrPut (wideSegments value n.toNat) s)

/-- `WR_WRITEV` (R256). -/
def execWrWriteV (t : Token) (s : State) : Result :=
  if !s.wr.opened then raise .illegalCommand s
  else if !tokenWellFormed t then raise .illegalCommand s
  else finishPush (wrPut (wideSegments t.ext t.n.toNat) s)

/-- `WR_FLUSH` (R258). -/
def execWrFlush (s : State) : Result :=
  if !s.wr.opened then raise .illegalCommand s else finishPush (flushSteps s)

/-- `WR_CLOSE` (R259): on any `IoError` the writer stays open. -/
def execWrClose (s : State) : Result :=
  if !s.wr.opened then raise .illegalCommand s
  else
    match flushSteps s with
    | .ioError cause t => raiseIo cause t
    | .done t =>
      match closeSink t with
      | .ioError cause u => raiseIo cause u
      | .done u => answer (okValue 0) { u with wr := { u.wr with opened := false } }

end Sys2Proof.Machine
end

