-- ==== Sys2Proof/Machine/Dispatch.lean ====
section
/-! DEFINITION. One arm per command, each one direct call of its meaning. -/

namespace Sys2Proof.Machine

def exec (i : Instr) (s : State) : Host.Outcome State Fault Refusal :=
  match i with
  | .wAdd x y => Sys2Proof.Machine.execWAdd x y s
  | .wSub x y => Sys2Proof.Machine.execWSub x y s
  | .wAnd x y => Sys2Proof.Machine.execWAnd x y s
  | .wOr x y => Sys2Proof.Machine.execWOr x y s
  | .wXor x y => Sys2Proof.Machine.execWXor x y s
  | .wNot x => Sys2Proof.Machine.execWNot x s
  | .wShl x amount => Sys2Proof.Machine.execWShl x amount s
  | .wShr x amount => Sys2Proof.Machine.execWShr x amount s
  | .wSar x amount => Sys2Proof.Machine.execWSar x amount s
  | .wCmpU x y => Sys2Proof.Machine.execWCmpU x y s
  | .wCmpS x y => Sys2Proof.Machine.execWCmpS x y s
  | .bvNewU value n => Sys2Proof.Machine.execBvNewU value n s
  | .bvNewS value n => Sys2Proof.Machine.execBvNewS value n s
  | .bvNewS128 value n => Sys2Proof.Machine.execBvNewS128 value n s
  | .bvToU64 t => Sys2Proof.Machine.execBvToU64 t s
  | .bvToU128 t => Sys2Proof.Machine.execBvToU128 t s
  | .bvToI64 t => Sys2Proof.Machine.execBvToI64 t s
  | .bvToI128 t => Sys2Proof.Machine.execBvToI128 t s
  | .bvEq t u => Sys2Proof.Machine.execBvEq t u s
  | .bcClear => Sys2Proof.Machine.execBcClear s
  | .bcLoad payload => Sys2Proof.Machine.execBcLoad payload s
  | .bcWrite value n => Sys2Proof.Machine.execBcWrite value n s
  | .bcRead n => Sys2Proof.Machine.execBcRead n s
  | .bcWrite128 value n => Sys2Proof.Machine.execBcWrite128 value n s
  | .bcRead128 n => Sys2Proof.Machine.execBcRead128 n s
  | .bcWriteV t => Sys2Proof.Machine.execBcWriteV t s
  | .bcReadV sgn n => Sys2Proof.Machine.execBcReadV sgn n s
  | .bcSeek position => Sys2Proof.Machine.execBcSeek position s
  | .bcReset => Sys2Proof.Machine.execBcReset s
  | .bcAtEnd => Sys2Proof.Machine.execBcAtEnd s
  | .bcStat => Sys2Proof.Machine.execBcStat s
  | .bcBytes => Sys2Proof.Machine.execBcBytes s
  | .rdOpen cap => Sys2Proof.Machine.execRdOpen cap s
  | .rdRead n => Sys2Proof.Machine.execRdRead n s
  | .rdRead128 n => Sys2Proof.Machine.execRdRead128 n s
  | .rdReadV sgn n => Sys2Proof.Machine.execRdReadV sgn n s
  | .rdAtEnd => Sys2Proof.Machine.execRdAtEnd s
  | .rdClose => Sys2Proof.Machine.execRdClose s
  | .wrOpen leave cap => Sys2Proof.Machine.execWrOpen leave cap s
  | .wrWrite value n => Sys2Proof.Machine.execWrWrite value n s
  | .wrWrite128 value n => Sys2Proof.Machine.execWrWrite128 value n s
  | .wrWriteV t => Sys2Proof.Machine.execWrWriteV t s
  | .wrFlush => Sys2Proof.Machine.execWrFlush s
  | .wrClose => Sys2Proof.Machine.execWrClose s

end Sys2Proof.Machine
end

