-- ==== Sys2Proof/Machine/Step.lean ====
section
/-! DEFINITION. One step: take what the host presents, a command frame or reset, and act on it
(30_encoding.md R90, 70_reset_and_hazards.md R310, R317, R321). -/

namespace Sys2Proof.Machine

/-- One step of the block. With nothing presented it is idle and holds its state (60_exceptions.md R300; log 1). -/
def step (s : State) : Host.Outcome State Fault Refusal :=
  match takeInput s with
  | .nothing => .next s
  | .reset t => .next (applyReset t)
  | .frame bytes t =>
    match decode bytes with
    | .ok i => exec i t
    | .error _ => rejectFrame t

/-- The state in which the host presents next the frame whose bits are `w` (see `tableFrame`). -/
def State.withFetchWord (s : State) (nbits w : Nat) : State :=
  { s with env := { s.env with inbox := .frame (tableFrame nbits w) :: s.env.inbox } }

end Sys2Proof.Machine
end

