-- ==== Sys2Proof/Safety.lean ====
section
/-! DEFINITION. The terms the statements use: the invariants of the three units (10_state.md R27, R30, R32), the contract
of the byte source (20_memory.md R80), the byte streams the reader and the writer stand in (R78, R84,
43_reader.md R231), and sequences of commands. -/

namespace Sys2Proof.Machine

/-! ## Invariants -/

/-- Container invariants (R27): (i) and (iii), the position bound (R26), and the canonical form of the storage. (ii) holds by
construction: `bc.len` is computed from `bc.bit_length`. -/
def containerOk (c : Container) : Prop :=
  c.storage.wf = true ∧ c.cursor ≤ c.bitLength ∧ c.bitLength ≤ Config.maxBits ∧
    ∀ p, c.bitLength ≤ p → c.storage.getBit p = false

/-- A capacity an open command accepts (R33). -/
def capacityOk (k : Nat) : Prop := Config.capMin ≤ k ∧ k ≤ Config.capMax

/-- Reader invariants (R30), and the canonical form of its buffer. -/
def readerOk (r : Reader) : Prop :=
  r.buf.wf = true ∧
    (r.opened = true → capacityOk r.capacity ∧ r.bytePos ≤ r.bufferSize ∧ r.bufferSize ≤ r.capacity ∧ r.bitPos < 8 ∧
      (r.bytePos = r.bufferSize → r.bitPos = 0) ∧ (r.atEndOfSource = true → r.bytePos = r.bufferSize))

/-- Writer invariants (R32), and the canonical form of its buffer: the last one says that the bits of a pending byte from
`wr.bit_pos` up are 0. -/
def writerOk (w : Writer) : Prop :=
  w.buf.wf = true ∧
    (w.opened = true → capacityOk w.capacity ∧ w.bytePos < w.capacity ∧ w.bitPos < 8 ∧
      (0 < w.bitPos → (w.buf.read w.bytePos).toNat < 2 ^ w.bitPos))

/-- The invariant of the machine between commands (R27, R30, R32). -/
def Inv (s : State) : Prop := containerOk s.bc ∧ readerOk s.rd ∧ writerOk s.wr

/-! ## Frames -/

/-- From `s` to `t` only the container may have changed, and the response `x` was sent. -/
def onlyContainer (s t : State) (x : Response) : Prop :=
  t.rd = s.rd ∧ t.wr = s.wr ∧ t.env = { s.env with responses := s.env.responses ++ [responseFrame x] }

/-- From `s` to `t` nothing but the reader's buffer, cursor and end or failure marks, the source's answers and the record of
calls and responses may have changed (60_exceptions.md R289: `rd.open` and `rd.capacity` are not in its list). -/
def onlyReading (s t : State) : Prop :=
  t.bc = s.bc ∧ t.wr = s.wr ∧ t.rd.opened = s.rd.opened ∧ t.rd.capacity = s.rd.capacity ∧ t.env.inbox = s.env.inbox ∧
    t.env.srcCloseTape = s.env.srcCloseTape ∧ t.env.sinkWriteTape = s.env.sinkWriteTape ∧
    t.env.sinkFlushTape = s.env.sinkFlushTape ∧ t.env.sinkCloseTape = s.env.sinkCloseTape

/-- The reader `r` with the buffer, its size and the cursor of `r'`: the fields a fill and the bits taken may change in
every failing read (R289). -/
def movedReader (r r' : Reader) : Reader :=
  { r with buf := r'.buf, bufferSize := r'.bufferSize, bytePos := r'.bytePos, bitPos := r'.bitPos }

/-- The field of n bits at the cursor of `c` was replaced by the low bits of `v` and nothing else was: every bit outside
the field, and every byte that holds no bit of it, reads as before (20_memory.md R64, 42_container.md R184). -/
def wroteField (c c' : Container) (v n : Nat) : Prop :=
  c'.cursor = c.cursor + n ∧ c'.bitLength = max c.bitLength (c.cursor + n) ∧ c'.storage.wf = true ∧
    (∀ i, i < n → c'.storage.getBit (c.cursor + i) = v.testBit i) ∧
    (∀ q, q < c.cursor ∨ c.cursor + n ≤ q → c'.storage.getBit q = c.storage.getBit q) ∧
    (∀ a, 8 * a + 8 ≤ c.cursor ∨ c.cursor + n ≤ 8 * a → c'.storage.read a = c.storage.read a)

/-- The bits of `r` are the n bits of storage from the cursor, bit 0 the first, and zeros above (20_memory.md R63). -/
def readField (c : Container) (n : Nat) (r : Word128) : Prop :=
  ∀ i, i < 128 → r.getLsbD i = (decide (i < n) && c.storage.getBit (c.cursor + i))

/-! ## The byte source -/

/-- An answer to `SrcRead(k)` keeps the contract: at most k bytes (R80). -/
def keepsContract (k : Nat) : ReadAnswer → Prop
  | .ok bytes => bytes.length ≤ k
  | .err _ => True

/-- Every answer that stands on the source's tape keeps the contract for the reader's capacity (R80, U11). -/
def sourceKeepsContract (s : State) : Prop := ∀ a ∈ s.env.srcReadTape, keepsContract s.rd.capacity a

/-- The bytes the source will deliver: the chunks on its tape before the first answer that is no chunk. -/
def tapeBytes : List ReadAnswer → List Byte
  | [] => []
  | .err _ :: _ => []
  | .ok [] :: _ => []
  | .ok (b :: bs) :: rest => (b :: bs) ++ tapeBytes rest

/-- The first answer on the source's tape that is no chunk: end of data or a failure. -/
def tapeStop : List ReadAnswer → Option ReadAnswer
  | [] => none
  | .err cause :: _ => some (.err cause)
  | .ok [] :: _ => some (.ok [])
  | .ok (_ :: _) :: rest => tapeStop rest

/-- The bytes loaded and not yet consumed whole. -/
def unreadBytes (r : Reader) : List Byte := r.buf.readBytes r.bytePos (r.bufferSize - r.bytePos)

/-- The bytes the reader stands in: what is loaded, then what the source will deliver (R220). -/
def readerStream (s : State) : List Byte :=
  unreadBytes s.rd ++ (if s.rd.atEndOfSource then [] else tapeBytes s.env.srcReadTape)

/-- How many bits the reader can still hand out. -/
def readerBitsLeft (s : State) : Nat := 8 * (readerStream s).length - s.rd.bitPos

/-- The bits the reader can still hand out, as a number, the next bit its bit 0. -/
def readerBits (s : State) : Nat := leValue (readerStream s) / 2 ^ s.rd.bitPos

/-! ## The byte sink -/

/-- The bytes the sink has taken, in call order. -/
def sunkBytes : List PortCall → List Byte
  | [] => []
  | .sinkWrite bytes .ok :: rest => bytes ++ sunkBytes rest
  | _ :: rest => sunkBytes rest

/-- The bytes written and not yet handed over, a pending partial byte included. -/
def unsentBytes (w : Writer) : List Byte := w.buf.readBytes 0 (pendingBytes w)

/-- The state in which a flush asks the sink to flush: the pending bytes, if there are any, have been handed over by one
`SinkWrite` (44_writer.md R258). -/
def afterHandOver (s : State) : State := if unsentBytes s.wr = [] then s else afterSinkWrite s (unsentBytes s.wr)

/-- The calls that hand the pending bytes over to a sink that accepts them (R258). -/
def handOverCalls (s : State) : List PortCall :=
  if unsentBytes s.wr = [] then [] else [.sinkWrite (unsentBytes s.wr) .ok]

/-- The writer with nothing pending (R258). -/
def emptiedWriter (w : Writer) : Writer := { w with bytePos := 0, bitPos := 0 }

/-- The bytes the writer has made: what the sink has taken, then what is pending (R250). -/
def writerStream (s : State) : List Byte := sunkBytes s.env.calls ++ unsentBytes s.wr

/-- The bit position the writer stands at in that stream. -/
def writerPosition (s : State) : Nat := 8 * (sunkBytes s.env.calls).length + 8 * s.wr.bytePos + s.wr.bitPos

/-! ## Bit counts and unit gates -/

/-- The bit count of a command that has one, and its limit (60_exceptions.md R284). -/
def bitCount : Instr → Option (BitVec 8 × Nat)
  | .bcWrite _ n => some (n, 64)
  | .bcRead n => some (n, 64)
  | .rdRead n => some (n, 64)
  | .wrWrite _ n => some (n, 64)
  | .bvNewS _ n => some (n, 64)
  | .bcWrite128 _ n => some (n, 128)
  | .bcRead128 n => some (n, 128)
  | .bcReadV _ n => some (n, 128)
  | .rdRead128 n => some (n, 128)
  | .rdReadV _ n => some (n, 128)
  | .wrWrite128 _ n => some (n, 128)
  | .bvNewU _ n => some (n, 128)
  | .bvNewS128 _ n => some (n, 128)
  | _ => none

/-- The signedness and the bit count of the token a constructor or a tagged-value read answers with (41_bitvalue.md R153 to
R155, 42_container.md R191, 43_reader.md R227). -/
def tokenAsked : Instr → Option (Bool × BitVec 8)
  | .bvNewU _ n => some (false, n)
  | .bvNewS _ n => some (true, n)
  | .bvNewS128 _ n => some (true, n)
  | .bcReadV sgn n => some (sgn, n)
  | .rdReadV sgn n => some (sgn, n)
  | _ => none

/-- Whether the gate of the command's unit lets a command with a bit count through: the reader or the writer, where it is
one of theirs, is open (43_reader.md R222, 44_writer.md R252). -/
def unitReady (i : Instr) (s : State) : Bool :=
  match i with
  | .rdRead _ => s.rd.opened
  | .rdRead128 _ => s.rd.opened
  | .rdReadV _ _ => s.rd.opened
  | .wrWrite _ _ => s.wr.opened
  | .wrWrite128 _ _ => s.wr.opened
  | _ => true

/-! ## Sequences of commands -/

/-- Execute commands one after the other, stopping at the first that has no next state. -/
def execAll : List Instr → State → Result
  | [], s => .next s
  | i :: rest, s =>
    match exec i s with
    | .next t => execAll rest t
    | .fault r => .fault r
    | .refused r => .refused r

/-- A field write, as the container and the writer can both be given it (R68, R70, 42_container.md R190). -/
inductive FieldWrite where
  | narrow (value : Word64) (n : BitVec 8)
  | wide (value : Word128) (n : BitVec 8)
  | tagged (t : Token)
deriving DecidableEq, Repr

/-- The container's command of a field write. -/
def containerWrite : FieldWrite → Instr
  | .narrow v n => .bcWrite v n
  | .wide v n => .bcWrite128 v n
  | .tagged t => .bcWriteV t

/-- The writer's command of a field write. -/
def writerWrite : FieldWrite → Instr
  | .narrow v n => .wrWrite v n
  | .wide v n => .wrWrite128 v n
  | .tagged t => .wrWriteV t

/-- The width of a field write. -/
def writeWidth : FieldWrite → Nat
  | .narrow _ n => n.toNat
  | .wide _ n => n.toNat
  | .tagged t => t.n.toNat

/-- The number whose low bits a field write transfers. -/
def writeValue : FieldWrite → Nat
  | .narrow v _ => v.toNat
  | .wide v _ => v.toNat
  | .tagged t => t.ext.toNat

/-- Whether the width, or the token, is one the command accepts (R68, R70, 41_bitvalue.md R152). -/
def writeAccepted : FieldWrite → Bool
  | .narrow _ n => !badCount n 64
  | .wide _ n => !badCount n 128
  | .tagged t => tokenWellFormed t

/-- A field read, as the container and the reader can both be given it (R69, R70, 42_container.md R191). -/
inductive FieldRead where
  | narrow (n : BitVec 8)
  | wide (n : BitVec 8)
  | tagged (sgn : Bool) (n : BitVec 8)
deriving DecidableEq, Repr

/-- The container's command of a field read. -/
def containerRead : FieldRead → Instr
  | .narrow n => .bcRead n
  | .wide n => .bcRead128 n
  | .tagged sgn n => .bcReadV sgn n

/-- The reader's command of a field read. -/
def readerRead : FieldRead → Instr
  | .narrow n => .rdRead n
  | .wide n => .rdRead128 n
  | .tagged sgn n => .rdReadV sgn n

/-- The width of a field read. -/
def readWidth : FieldRead → Nat
  | .narrow n => n.toNat
  | .wide n => n.toNat
  | .tagged _ n => n.toNat

/-- Whether the width is one the command accepts (R69, R70, R191). -/
def readAccepted : FieldRead → Bool
  | .narrow n => !badCount n 64
  | .wide n => !badCount n 128
  | .tagged _ n => !badCount n 128

/-- The response of a field read whose bits are the number `raw` (R93, R191). -/
def readResponse : FieldRead → Nat → Response
  | .narrow _, raw => okValue (BitVec.ofNat 128 raw)
  | .wide _, raw => okValue (BitVec.ofNat 128 raw)
  | .tagged sgn n, raw => okToken ⟨n, sgn, if sgn then signExtend raw n.toNat else BitVec.ofNat 128 raw⟩

end Sys2Proof.Machine
end

