-- ==== Sys2Proof/Certificates/Slice0/Obligations.lean ====
section
/-! DEFINITION. The statements for the provers. Each docstring names the rule of spec/ it formalises. A response is sent by
`State.respond`, which appends one response frame and changes nothing else; `EncodedResponseHasTheRspLayout` says what
the frame is. -/

open Sys2Proof Sys2Proof.Machine

/-! ## Commands and responses as bytes -/

/-- 95_test_vectors.md 2.6: five of its command words, byte for byte, decode to the commands it names. -/
def Obligations.ListedFramesDecodeToTheirCommands : Prop :=
  decode ([0x01, 0, 0, 0] ++ ([0xFF, 0xFF, 0xFF, 0xFF, 0xFF, 0xFF, 0xFF, 0xFF] ++ List.replicate 8 0)
      ++ (0x01 :: List.replicate 15 0)) = .ok (.wAdd 0xFFFFFFFFFFFFFFFF 1) ∧
  decode ([0x17, 0x08, 0x08, 0x02] ++ (0xFF :: List.replicate 15 0) ++ List.replicate 16 0xFF)
    = .ok (.bvEq ⟨8, false, 255⟩ ⟨8, true, BitVec.allOnes 128⟩) ∧
  decode ([0x21, 0, 0, 0] ++ (0x01 :: List.replicate 15 0) ++ List.replicate 16 0 ++ [0x5A]) = .ok (.bcLoad [0x5A]) ∧
  decode ([0x27, 0x05, 0x00, 0x01] ++ List.replicate 32 0) = .ok (.bcReadV true 5) ∧
  decode ([0x40, 0, 0, 0x01] ++ List.replicate 32 0) = .ok (.wrOpen true 0)

/-- 30_encoding.md R91, R95, R96: decoding the encoding of any well-formed command gives it back, with every operand. -/
def Obligations.DecodeOfEncodeIsTheCommand : Prop :=
  ∀ i : Instr, i.wellFormed = true → decode (encode i) = .ok i

/-- R94, R97: a frame is a command exactly when its length is the one its `op` and `a` require and its `op` is not one of
the 212 unassigned values. -/
def Obligations.DecodableFramesAreThoseOfTheMap : Prop :=
  ∀ frame : List Byte,
    let w := leValue frame
    let op := w % 256
    (∃ i, decode frame = .ok i) ↔
      frame.length = (if op = 0x21 then 36 + w / 2 ^ 32 % 2 ^ 64 else 36) ∧
        ((0x01 ≤ op ∧ op ≤ 0x0B) ∨ (0x10 ≤ op ∧ op ≤ 0x17) ∨ (0x20 ≤ op ∧ op ≤ 0x2C) ∨ (0x30 ≤ op ∧ op ≤ 0x35) ∨
          (0x40 ≤ op ∧ op ≤ 0x45))

/-- R94: a decoded command is well formed, and the frame has the opcode, the length and the payload of its encoding. -/
def Obligations.DecodedFrameCarriesTheCommand : Prop :=
  ∀ (frame : List Byte) (i : Instr), decode frame = .ok i →
    i.wellFormed = true ∧ frame.length = (encode i).length ∧ frame.take 1 = (encode i).take 1 ∧
      frame.drop 36 = payloadOfInstr i

/-- R92, R98: the response frame is 20 bytes and the payload, and its word has `status`, `n`, `f[0]`, `z = 0` and `r` at
their places. -/
def Obligations.EncodedResponseHasTheRspLayout : Prop :=
  (∀ x : Response,
    (responseFrame x).length = 20 + x.payload.length ∧ (responseFrame x).drop 20 = x.payload ∧
      leValue ((responseFrame x).take 20)
        = (statusCode x.status).toNat + 2 ^ 8 * x.n.toNat + 2 ^ 16 * x.sgn.toNat + 2 ^ 32 * x.r.toNat) ∧
  statusCode .ok = 0x00 ∧ statusCode .invalidBitCount = 0x01 ∧ statusCode .endOfStream = 0x02 ∧
  statusCode .ioError = 0x03 ∧ statusCode .invalidConversion = 0x04 ∧ statusCode .illegalCommand = 0xFF

/-! ## Steps -/

/-- R90: when the frame presented decodes to a command, the step takes the frame from the command port and is `exec` of
that command. -/
def Obligations.StepRunsTheDecodedCommand : Prop :=
  ∀ (s : State) (frame : List Byte) (rest : List HostInput) (i : Instr),
    s.env.inbox = .frame frame :: rest → decode frame = .ok i →
      step s = exec i { s with env := { s.env with inbox := rest } }

/-- R94, R97: a frame of the wrong length, or with an unassigned opcode, is answered `IllegalCommand` and changes no
state. -/
def Obligations.IllegalFrameIsRejectedWhole : Prop :=
  ∀ (s : State) (frame : List Byte) (rest : List HostInput), s.env.inbox = .frame frame :: rest →
    let w := leValue frame
    let op := w % 256
    (frame.length ≠ (if op = 0x21 then 36 + w / 2 ^ 32 % 2 ^ 64 else 36) ∨
      op = 0x00 ∨ (0x0C ≤ op ∧ op ≤ 0x0F) ∨ (0x18 ≤ op ∧ op ≤ 0x1F) ∨ (0x2D ≤ op ∧ op ≤ 0x2F) ∨
        (0x36 ≤ op ∧ op ≤ 0x3F) ∨ 0x46 ≤ op) →
      step s = .next (({ s with env := { s.env with inbox := rest } } : State).respond (failed .illegalCommand))

/-- 60_exceptions.md R300 and 70_reset_and_hazards.md R310, R311: with nothing presented the block holds its state; the
reset event leaves the container empty and reader and writer not open, makes no port call and sends nothing. That an
idle step is a step with a next state is the model's choice (log 1). -/
def Obligations.IdleHoldsAndResetEmpties : Prop :=
  (∀ s : State, s.env.inbox = [] → step s = .next s) ∧
  ∀ (s : State) (rest : List HostInput), s.env.inbox = .reset :: rest →
    ∃ t, step s = .next t ∧ t.bc = ⟨[], 0, 0⟩ ∧ t.rd.opened = false ∧ t.wr.opened = false ∧
      t.env = { s.env with inbox := rest }

/-- 10_state.md R36: what reset leaves, of the fields to which the spec gives a value. -/
def Obligations.ResetLeavesTheSpecsValues : Prop :=
  State.reset.bc.storage = [] ∧ containerBytes State.reset.bc = 0 ∧ State.reset.bc.cursor = 0 ∧
    State.reset.bc.bitLength = 0 ∧ State.reset.rd.opened = false ∧ State.reset.wr.opened = false ∧
    State.reset.env.inbox = [] ∧ State.reset.env.responses = []

/-- 10_state.md R27, R30, R32: the invariant holds at reset. -/
def Obligations.ResetMeetsTheUnitInvariants : Prop := Inv State.reset

/-- 10_state.md R27, R30, R32: every step keeps the invariants of the three units, from every state that meets them. -/
def Obligations.StepKeepsTheUnitInvariants : Prop :=
  ∀ s t : State, Inv s → step s = .next t → Inv t

/-- 00_scope.md R17, 20_memory.md R80: no command makes the block hang. While the source's answers keep their contract
every step has a next state; the one stop is a source that breaks it (93_implementation_defined.md U11), inside a read
of the reader. That a broken contract is a refusal is the model's choice (log 10). -/
def Obligations.OnlyABrokenSourceStopsTheBlock : Prop :=
  (∀ s : State, sourceKeepsContract s → ∃ t, step s = .next t) ∧
  ∀ (i : Instr) (s : State) (r : Refusal), exec i s = .refused r →
    r = .sourceBrokeContract ∧ ¬ sourceKeepsContract s ∧ s.rd.opened = true ∧ ∃ f : FieldRead, i = readerRead f

/-- 60_exceptions.md R280, R281, R289: a command sends exactly one response; if its status is not `OK`, the container is as it
was; the writer too, or the command is `WR_FLUSH` or `WR_CLOSE` and its positions alone are now 0; the reader too, or
the command is a read of the reader and only the buffer, its size and the cursor have changed and, for `EndOfStream`, the
end flag is set, for `IoError`, the reader is fatal with the cause answered. The spec marks the list of R289 as its own
inference ("[derived: from 43_reader.md rules R223, R226, R230 and 44_writer.md rules R258, R259]"). -/
def Obligations.FailuresChangeOnlyWhatIsListed : Prop :=
  ∀ (i : Instr) (s t : State), exec i s = .next t →
    ∃ x : Response, t.env.responses = s.env.responses ++ [responseFrame x] ∧ t.env.inbox = s.env.inbox ∧
      (x.status ≠ .ok →
        t.bc = s.bc ∧ (t.wr = s.wr ∨ ((i = .wrFlush ∨ i = .wrClose) ∧ t.wr = emptiedWriter s.wr)) ∧
        (t.rd = s.rd ∨
          ((∃ f : FieldRead, i = readerRead f) ∧
            ((x.status = .endOfStream ∧ t.rd = { movedReader s.rd t.rd with atEndOfSource := true }) ∨
              ∃ cause, x = ioFailed cause ∧ t.rd = { movedReader s.rd t.rd with fatal := true, cause := cause }))))

/-- 10_state.md R28, 40_wide_integer.md R120, 41_bitvalue.md R162, 42_container.md R180, 43_reader.md R220, 44_writer.md
R250: a command touches the state of its own unit only, and only reader and writer commands make port calls. -/
def Obligations.UnitsDoNotTouchEachOther : Prop :=
  ∀ (i : Instr) (s t : State), exec i s = .next t →
    let op := (fieldsOfInstr i).op.toNat
    (¬ (0x20 ≤ op ∧ op ≤ 0x2C) → t.bc = s.bc) ∧ (¬ (0x30 ≤ op ∧ op ≤ 0x35) → t.rd = s.rd) ∧
      (op < 0x40 → t.wr = s.wr) ∧ (op < 0x30 → t.env.calls = s.env.calls ∧ t.env.draws = s.env.draws)

/-! ## Wide integers -/

/-- 40_wide_integer.md R122: `W_ADD` answers (x + y) mod 2^128 and changes nothing. -/
def Obligations.WideAddWrapsModulo : Prop :=
  ∀ (x y : Word128) (s : State),
    exec (.wAdd x y) s = .next (s.respond (okValue (BitVec.ofNat 128 ((x.toNat + y.toNat) % 2 ^ 128))))

/-- R123: `W_SUB` answers (x - y) mod 2^128 and changes nothing. -/
def Obligations.WideSubWrapsModulo : Prop :=
  ∀ (x y : Word128) (s : State),
    exec (.wSub x y) s = .next (s.respond (okValue (BitVec.ofInt 128 ((x.toNat : Int) - y.toNat))))

/-- R124 to R127: `W_AND`, `W_OR`, `W_XOR` and `W_NOT` answer the bitwise result, bit by bit, and change nothing. -/
def Obligations.WideBitwiseActsOnEachBit : Prop :=
  ∀ (x y : Word128) (s : State),
    ∃ p q r n : Word128,
      exec (.wAnd x y) s = .next (s.respond (okValue p)) ∧ exec (.wOr x y) s = .next (s.respond (okValue q)) ∧
      exec (.wXor x y) s = .next (s.respond (okValue r)) ∧ exec (.wNot x) s = .next (s.respond (okValue n)) ∧
      ∀ i, i < 128 →
        p.getLsbD i = (x.getLsbD i && y.getLsbD i) ∧ q.getLsbD i = (x.getLsbD i || y.getLsbD i) ∧
        r.getLsbD i = (x.getLsbD i != y.getLsbD i) ∧ n.getLsbD i = !x.getLsbD i

/-- R128: `W_SHL` by 0 to 127 answers (x * 2^s) mod 2^128 and changes nothing; by 128 or more it answers
`IllegalCommand`. -/
def Obligations.WideShiftLeftMultiplies : Prop :=
  ∀ (x : Word128) (amount : BitVec 8) (s : State),
    (amount.toNat < 128 →
      exec (.wShl x amount) s
        = .next (s.respond (okValue (BitVec.ofNat 128 (x.toNat * 2 ^ amount.toNat % 2 ^ 128))))) ∧
    (128 ≤ amount.toNat → exec (.wShl x amount) s = .next (s.respond (failed .illegalCommand)))

/-- R129: `W_SHR` by 0 to 127 answers x div 2^s and changes nothing; by 128 or more it answers `IllegalCommand`. -/
def Obligations.WideShiftRightDivides : Prop :=
  ∀ (x : Word128) (amount : BitVec 8) (s : State),
    (amount.toNat < 128 →
      exec (.wShr x amount) s = .next (s.respond (okValue (BitVec.ofNat 128 (x.toNat / 2 ^ amount.toNat))))) ∧
    (128 ≤ amount.toNat → exec (.wShr x amount) s = .next (s.respond (failed .illegalCommand)))

/-- R130: `W_SAR` by 0 to 127 answers the floor of the signed quotient, copies of the sign bit at the top, and changes
nothing; by 128 or more it answers `IllegalCommand`. -/
def Obligations.WideArithmeticShiftFloors : Prop :=
  ∀ (x : Word128) (amount : BitVec 8) (s : State),
    (amount.toNat < 128 →
      ∃ r : Word128, exec (.wSar x amount) s = .next (s.respond (okValue r)) ∧
        r.toInt = Int.fdiv x.toInt (2 ^ amount.toNat) ∧
        ∀ i, i < 128 →
          r.getLsbD i = if i + amount.toNat ≤ 127 then x.getLsbD (i + amount.toNat) else x.getLsbD 127) ∧
    (128 ≤ amount.toNat → exec (.wSar x amount) s = .next (s.respond (failed .illegalCommand)))

/-- R131: `W_CMPU` answers 0, 1 or 2 for equal, less, greater of the unsigned readings and changes nothing. -/
def Obligations.CompareUnsignedOrdersValues : Prop :=
  ∀ (x y : Word128) (s : State),
    exec (.wCmpU x y) s
      = .next (s.respond (okValue (if x.toNat = y.toNat then 0 else if x.toNat < y.toNat then 1 else 2)))

/-- R132: `W_CMPS` answers the same code for the signed readings and changes nothing. -/
def Obligations.CompareSignedOrdersValues : Prop :=
  ∀ (x y : Word128) (s : State),
    exec (.wCmpS x y) s
      = .next (s.respond (okValue (if x.toInt = y.toInt then 0 else if x.toInt < y.toInt then 1 else 2)))

/-! ## BitValues -/

/-- 41_bitvalue.md R153: `BV_NEWU` masks to n bits; outside [1,128] it answers `InvalidBitCount`; it changes nothing. -/
def Obligations.NewUnsignedMasksToWidth : Prop :=
  ∀ (value : Word128) (n : BitVec 8) (s : State),
    (1 ≤ n.toNat ∧ n.toNat ≤ 128 →
      exec (.bvNewU value n) s
        = .next (s.respond (okToken ⟨n, false, BitVec.ofNat 128 (value.toNat % 2 ^ n.toNat)⟩))) ∧
    (n.toNat = 0 ∨ 128 < n.toNat → exec (.bvNewU value n) s = .next (s.respond (failed .invalidBitCount)))

/-- R154: `BV_NEWS` cuts to the storage width and sign-extends, without masking to n bits; outside [1,64] it answers
`InvalidBitCount`; it changes nothing. -/
def Obligations.NewSignedCutsToStorage : Prop :=
  ∀ (value : Word64) (n : BitVec 8) (s : State),
    let w := if n.toNat ≤ 8 then 8 else if n.toNat ≤ 16 then 16 else if n.toNat ≤ 32 then 32 else 64
    (1 ≤ n.toNat ∧ n.toNat ≤ 64 →
      exec (.bvNewS value n) s = .next (s.respond (okToken ⟨n, true, (value.setWidth w).signExtend 128⟩))) ∧
    (n.toNat = 0 ∨ 64 < n.toNat → exec (.bvNewS value n) s = .next (s.respond (failed .invalidBitCount)))

/-- R155: `BV_NEWS128` does the same with a 128-bit value; outside [1,128] it answers `InvalidBitCount`; and for n up to 64
it returns what `BV_NEWS` returns for the low word. -/
def Obligations.NewSignedWideCutsToStorage : Prop :=
  ∀ (value : Word128) (n : BitVec 8) (s : State),
    let w := if n.toNat ≤ 8 then 8 else if n.toNat ≤ 16 then 16 else if n.toNat ≤ 32 then 32
      else if n.toNat ≤ 64 then 64 else 128
    (1 ≤ n.toNat ∧ n.toNat ≤ 128 →
      exec (.bvNewS128 value n) s = .next (s.respond (okToken ⟨n, true, (value.setWidth w).signExtend 128⟩))) ∧
    (n.toNat = 0 ∨ 128 < n.toNat → exec (.bvNewS128 value n) s = .next (s.respond (failed .invalidBitCount))) ∧
    (n.toNat ≤ 64 → exec (.bvNewS128 value n) s = exec (.bvNewS (value.setWidth 64) n) s)

/-- R152: which tokens are well formed: `1 ≤ n ≤ 128`, and the value fits n bits if unsigned, the storage width if
signed. -/
def Obligations.TokenFitsItsWidth : Prop :=
  ∀ t : Token,
    let w := if t.n.toNat ≤ 8 then 8 else if t.n.toNat ≤ 16 then 16 else if t.n.toNat ≤ 32 then 32
      else if t.n.toNat ≤ 64 then 64 else 128
    tokenWellFormed t = true ↔
      1 ≤ t.n.toNat ∧ t.n.toNat ≤ 128 ∧
        (t.sgn = false → t.ext.toNat < 2 ^ t.n.toNat) ∧
        (t.sgn = true → -(2 ^ (w - 1) : Int) ≤ t.ext.toInt ∧ t.ext.toInt < 2 ^ (w - 1))

/-- R152: every token that `BV_NEWU`, `BV_NEWS`, `BV_NEWS128`, `BC_READV` or `RD_READV` answers with has the bit count and the
signedness asked for and is well formed. The spec marks this as its own inference ("[derived: from rules R153, R154,
R155 and 42_container.md rule R191]"). -/
def Obligations.TokensMadeAreWellFormed : Prop :=
  ∀ (i : Instr) (sgn : Bool) (n : BitVec 8) (s t : State) (x : Response), tokenAsked i = some (sgn, n) →
    exec i s = .next t → t.env.responses = s.env.responses ++ [responseFrame x] → x.status = .ok →
      x.n = n ∧ x.sgn = sgn ∧ tokenWellFormed ⟨x.n, x.sgn, x.r⟩ = true

/-- R152: every command that takes a token answers `IllegalCommand` to an ill-formed one and changes no state. -/
def Obligations.IllFormedTokenIsRefused : Prop :=
  ∀ (t u : Token) (s : State), tokenWellFormed t = false →
    exec (.bvToU64 t) s = .next (s.respond (failed .illegalCommand)) ∧
    exec (.bvToU128 t) s = .next (s.respond (failed .illegalCommand)) ∧
    exec (.bvToI64 t) s = .next (s.respond (failed .illegalCommand)) ∧
    exec (.bvToI128 t) s = .next (s.respond (failed .illegalCommand)) ∧
    exec (.bvEq t u) s = .next (s.respond (failed .illegalCommand)) ∧
    exec (.bvEq u t) s = .next (s.respond (failed .illegalCommand)) ∧
    exec (.bcWriteV t) s = .next (s.respond (failed .illegalCommand)) ∧
    exec (.wrWriteV t) s = .next (s.respond (failed .illegalCommand))

/-- R157: `BV_TOU64` of a well-formed token answers its low 64 bits, except that a negative value of kind I128 answers
`InvalidConversion`; an ill-formed token is answered `IllegalCommand`; it changes nothing. -/
def Obligations.ToUnsignedWordTruncates : Prop :=
  ∀ (t : Token) (s : State),
    (tokenWellFormed t = false → exec (.bvToU64 t) s = .next (s.respond (failed .illegalCommand))) ∧
    (tokenWellFormed t = true →
      exec (.bvToU64 t) s
        = .next (s.respond
            (if t.sgn = true ∧ 65 ≤ t.n.toNat ∧ t.ext.toInt < 0 then failed .invalidConversion
             else okValue (BitVec.ofNat 128 (t.ext.toNat % 2 ^ 64)))))

/-- R158, R159, R160: `BV_TOU128` and `BV_TOI128` of a well-formed token answer its 128 bits, `BV_TOI64` its low 64 bits
sign-extended; an ill-formed token is answered `IllegalCommand`; they change nothing. -/
def Obligations.OtherConversionsReinterpretOrTruncate : Prop :=
  ∀ (t : Token) (s : State),
    (tokenWellFormed t = false →
      exec (.bvToU128 t) s = .next (s.respond (failed .illegalCommand)) ∧
      exec (.bvToI128 t) s = .next (s.respond (failed .illegalCommand)) ∧
      exec (.bvToI64 t) s = .next (s.respond (failed .illegalCommand))) ∧
    (tokenWellFormed t = true →
      exec (.bvToU128 t) s = .next (s.respond (okValue t.ext)) ∧
      exec (.bvToI128 t) s = .next (s.respond (okValue t.ext)) ∧
      exec (.bvToI64 t) s = .next (s.respond (okValue ((t.ext.setWidth 64).signExtend 128))))

/-- R161: `BV_EQ` of two well-formed tokens answers 1 if they have the same bit count and the same stored bits, else 0;
signedness is not compared; if either is ill-formed it answers `IllegalCommand`; nothing changes. -/
def Obligations.EqualityComparesStoredBits : Prop :=
  ∀ (t u : Token) (s : State),
    let w := if t.n.toNat ≤ 8 then 8 else if t.n.toNat ≤ 16 then 16 else if t.n.toNat ≤ 32 then 32
      else if t.n.toNat ≤ 64 then 64 else 128
    let same : Prop := t.n = u.n ∧ ∀ i, i < w → t.ext.getLsbD i = u.ext.getLsbD i
    (tokenWellFormed t = false ∨ tokenWellFormed u = false →
      exec (.bvEq t u) s = .next (s.respond (failed .illegalCommand))) ∧
    (tokenWellFormed t = true → tokenWellFormed u = true →
      (same → exec (.bvEq t u) s = .next (s.respond (okValue 1))) ∧
      (¬ same → exec (.bvEq t u) s = .next (s.respond (okValue 0))))

/-- 60_exceptions.md R284: `InvalidBitCount` is answered by exactly the commands with a bit count, and exactly when the count
is 0 or above the command's limit and the command's unit, where it is the reader or the writer, is open; it carries
nothing and changes no state. -/
def Obligations.BadBitCountsAreRefused : Prop :=
  (∀ (i : Instr) (s : State) (n : BitVec 8) (limit : Nat), bitCount i = some (n, limit) →
    (n.toNat = 0 ∨ limit < n.toNat) → unitReady i s = true →
      exec i s = .next (s.respond (failed .invalidBitCount))) ∧
  ∀ (i : Instr) (s t : State) (x : Response), exec i s = .next t →
    t.env.responses = s.env.responses ++ [responseFrame x] → x.status = .invalidBitCount →
      ∃ n limit, bitCount i = some (n, limit) ∧ (n.toNat = 0 ∨ limit < n.toNat) ∧ unitReady i s = true

/-! ## The Bit Container -/

/-- 42_container.md R181: `BC_CLEAR` empties the container. -/
def Obligations.ClearEmptiesTheContainer : Prop :=
  ∀ s : State, exec .bcClear s = .next (({ s with bc := ⟨[], 0, 0⟩ } : State).respond (okValue 0))

/-- R182: `BC_LOAD` makes the payload the container's bytes, all of its bits valid, the cursor at 0; a payload whose bits
would pass `MAXBITS` is answered `IllegalCommand`. -/
def Obligations.LoadHoldsThePayload : Prop :=
  ∀ (payload : List Byte) (s : State),
    (8 * payload.length ≤ 2 ^ 64 - 1 →
      ∃ t, exec (.bcLoad payload) s = .next t ∧ onlyContainer s t (okValue 0) ∧ t.bc.cursor = 0 ∧
        t.bc.bitLength = 8 * payload.length ∧ t.bc.storage.wf = true ∧
        t.bc.storage.readBytes 0 payload.length = payload ∧
        ∀ a, payload.length ≤ a → t.bc.storage.read a = 0#8) ∧
    (2 ^ 64 - 1 < 8 * payload.length → exec (.bcLoad payload) s = .next (s.respond (failed .illegalCommand)))

/-- R186, R184: `BC_WRITE` of 1 to 64 bits replaces the field at the cursor, keeps every other bit and byte, and moves the
cursor; any other width is answered `InvalidBitCount`, a field that would pass `MAXBITS` `IllegalCommand`. -/
def Obligations.NarrowWriteReplacesTheField : Prop :=
  ∀ (value : Word64) (n : BitVec 8) (s : State), s.bc.storage.wf = true →
    (n.toNat = 0 ∨ 64 < n.toNat → exec (.bcWrite value n) s = .next (s.respond (failed .invalidBitCount))) ∧
    (1 ≤ n.toNat → n.toNat ≤ 64 → s.bc.cursor + n.toNat ≤ 2 ^ 64 - 1 →
      ∃ t, exec (.bcWrite value n) s = .next t ∧ onlyContainer s t (okValue 0) ∧
        wroteField s.bc t.bc value.toNat n.toNat) ∧
    (1 ≤ n.toNat → n.toNat ≤ 64 → 2 ^ 64 - 1 < s.bc.cursor + n.toNat →
      exec (.bcWrite value n) s = .next (s.respond (failed .illegalCommand)))

/-- R188, 20_memory.md R70: `BC_WRITE128` of 1 to 128 bits, low half first, replaces the field at the cursor with the low n
bits of the value; any other width is answered `InvalidBitCount`, a field that would pass `MAXBITS` `IllegalCommand`. -/
def Obligations.WideWriteReplacesTheField : Prop :=
  ∀ (value : Word128) (n : BitVec 8) (s : State), s.bc.storage.wf = true →
    (n.toNat = 0 ∨ 128 < n.toNat → exec (.bcWrite128 value n) s = .next (s.respond (failed .invalidBitCount))) ∧
    (1 ≤ n.toNat → n.toNat ≤ 128 → s.bc.cursor + n.toNat ≤ 2 ^ 64 - 1 →
      ∃ t, exec (.bcWrite128 value n) s = .next t ∧ onlyContainer s t (okValue 0) ∧
        wroteField s.bc t.bc value.toNat n.toNat) ∧
    (1 ≤ n.toNat → n.toNat ≤ 128 → 2 ^ 64 - 1 < s.bc.cursor + n.toNat →
      exec (.bcWrite128 value n) s = .next (s.respond (failed .illegalCommand)))

/-- R190: `BC_WRITEV` of a well-formed token writes the low n bits of its value; an ill-formed token, and a field that would
pass `MAXBITS`, is answered `IllegalCommand`. -/
def Obligations.TokenWriteReplacesTheField : Prop :=
  ∀ (t : Token) (s : State), s.bc.storage.wf = true →
    (tokenWellFormed t = true → s.bc.cursor + t.n.toNat ≤ 2 ^ 64 - 1 →
      ∃ u, exec (.bcWriteV t) s = .next u ∧ onlyContainer s u (okValue 0) ∧
        wroteField s.bc u.bc t.ext.toNat t.n.toNat) ∧
    (tokenWellFormed t = false ∨ 2 ^ 64 - 1 < s.bc.cursor + t.n.toNat →
      exec (.bcWriteV t) s = .next (s.respond (failed .illegalCommand)))

/-- R187: `BC_READ` of 1 to 64 bits that remain answers them, bit 0 the first, and moves the cursor only; where fewer
remain it answers `EndOfStream` and moves nothing; any other width is answered `InvalidBitCount`. -/
def Obligations.NarrowReadReturnsTheField : Prop :=
  ∀ (n : BitVec 8) (s : State),
    (n.toNat = 0 ∨ 64 < n.toNat → exec (.bcRead n) s = .next (s.respond (failed .invalidBitCount))) ∧
    (1 ≤ n.toNat → n.toNat ≤ 64 → s.bc.cursor + n.toNat ≤ s.bc.bitLength →
      ∃ r, readField s.bc n.toNat r ∧
        exec (.bcRead n) s
          = .next (({ s with bc := { s.bc with cursor := s.bc.cursor + n.toNat } } : State).respond (okValue r))) ∧
    (1 ≤ n.toNat → n.toNat ≤ 64 → s.bc.bitLength < s.bc.cursor + n.toNat →
      exec (.bcRead n) s = .next (s.respond (failed .endOfStream)))

/-- R189, 20_memory.md R72: `BC_READ128` of 1 to 128 bits that remain answers them and moves the cursor only; where fewer
remain it answers `EndOfStream` and moves nothing, not even by the first segment; any other width is answered
`InvalidBitCount`. -/
def Obligations.WideReadReturnsTheField : Prop :=
  ∀ (n : BitVec 8) (s : State),
    (n.toNat = 0 ∨ 128 < n.toNat → exec (.bcRead128 n) s = .next (s.respond (failed .invalidBitCount))) ∧
    (1 ≤ n.toNat → n.toNat ≤ 128 → s.bc.cursor + n.toNat ≤ s.bc.bitLength →
      ∃ r, readField s.bc n.toNat r ∧
        exec (.bcRead128 n) s
          = .next (({ s with bc := { s.bc with cursor := s.bc.cursor + n.toNat } } : State).respond (okValue r))) ∧
    (1 ≤ n.toNat → n.toNat ≤ 128 → s.bc.bitLength < s.bc.cursor + n.toNat →
      exec (.bcRead128 n) s = .next (s.respond (failed .endOfStream)))

/-- R191: `BC_READV` of 1 to 128 bits that remain answers a token with the field, sign-extended from bit n - 1 in the signed
form, and moves the cursor only; where fewer remain it answers `EndOfStream` and moves nothing; any other width is
answered `InvalidBitCount`. -/
def Obligations.TokenReadReturnsTheField : Prop :=
  ∀ (sgn : Bool) (n : BitVec 8) (s : State),
    (n.toNat = 0 ∨ 128 < n.toNat → exec (.bcReadV sgn n) s = .next (s.respond (failed .invalidBitCount))) ∧
    (1 ≤ n.toNat → n.toNat ≤ 128 → s.bc.cursor + n.toNat ≤ s.bc.bitLength →
      ∃ raw ext : Word128, readField s.bc n.toNat raw ∧
        (∀ i, i < 128 →
          ext.getLsbD i = if sgn = true ∧ n.toNat ≤ i then raw.getLsbD (n.toNat - 1) else raw.getLsbD i) ∧
        exec (.bcReadV sgn n) s
          = .next (({ s with bc := { s.bc with cursor := s.bc.cursor + n.toNat } } : State).respond
              (okToken ⟨n, sgn, ext⟩))) ∧
    (1 ≤ n.toNat → n.toNat ≤ 128 → s.bc.bitLength < s.bc.cursor + n.toNat →
      exec (.bcReadV sgn n) s = .next (s.respond (failed .endOfStream)))

/-- R192, R193: `BC_SEEK` moves the cursor to a position up to `bit_length` and answers `EndOfStream` beyond it;
`BC_RESET` moves it to 0. -/
def Obligations.SeekAndResetMoveTheCursor : Prop :=
  ∀ (p : Word64) (s : State),
    (p.toNat ≤ s.bc.bitLength →
      exec (.bcSeek p) s = .next (({ s with bc := { s.bc with cursor := p.toNat } } : State).respond (okValue 0))) ∧
    (s.bc.bitLength < p.toNat → exec (.bcSeek p) s = .next (s.respond (failed .endOfStream))) ∧
    exec .bcReset s = .next (({ s with bc := { s.bc with cursor := 0 } } : State).respond (okValue 0))

/-- R194, R195: `BC_ATEND` answers whether the cursor stands at `bit_length`; `BC_STAT` answers the cursor in the low
word and `bit_length` in the high word; both change nothing. The spec marks the reading of `BC_ATEND` as its own
inference ("[derived: from rule R187 and 10_state.md rule R27]"). -/
def Obligations.ContainerQueriesAnswerItsFields : Prop :=
  ∀ s : State,
    exec .bcAtEnd s = .next (s.respond (okValue (if s.bc.cursor = s.bc.bitLength then 1 else 0))) ∧
    (containerOk s.bc →
      ∃ r : Word128, exec .bcStat s = .next (s.respond (okValue r)) ∧
        r.toNat = s.bc.bitLength * 2 ^ 64 + s.bc.cursor)

/-- R196: `BC_BYTES` answers the number of bytes the valid bits need and those bytes, and changes nothing; the unused high bits
of a last partial byte are 0 where the container meets its invariant. -/
def Obligations.BytesAnswersTheStorage : Prop :=
  ∀ s : State,
    ∃ bytes : List Byte,
      exec .bcBytes s = .next (s.respond (okPayload (BitVec.ofNat 128 ((s.bc.bitLength + 7) / 8)) bytes)) ∧
        bytes.length = (s.bc.bitLength + 7) / 8 ∧
        (∀ a, a < bytes.length → bytes[a]? = some (s.bc.storage.read a)) ∧
        (containerOk s.bc → ∀ a b, bytes[a]? = some b → ∀ j, j < 8 → s.bc.bitLength ≤ 8 * a + j → b.getLsbD j = false)

/-- 42_container.md R198: a write, a seek back and a read of the same width return the low n bits of the value, at any
cursor and over any prior storage, on the 64-bit path and on the 128-bit path. The spec marks this as its own
inference ("[derived: from rules R184, R187, R188, R189 and 20_memory.md rules R63, R64 and R71]"). -/
def Obligations.WriteSeekReadRoundTrips : Prop :=
  (∀ (v : Word64) (n : BitVec 8) (s : State), s.bc.storage.wf = true → 1 ≤ n.toNat → n.toNat ≤ 64 →
    s.bc.cursor + n.toNat ≤ 2 ^ 64 - 1 →
      ∃ t, execAll [.bcWrite v n, .bcSeek (BitVec.ofNat 64 s.bc.cursor), .bcRead n] s = .next t ∧
        t.env.responses = s.env.responses ++
          [responseFrame (okValue 0), responseFrame (okValue 0),
            responseFrame (okValue (BitVec.ofNat 128 (v.toNat % 2 ^ n.toNat)))]) ∧
  ∀ (v : Word128) (n : BitVec 8) (s : State), s.bc.storage.wf = true → 1 ≤ n.toNat → n.toNat ≤ 128 →
    s.bc.cursor + n.toNat ≤ 2 ^ 64 - 1 →
      ∃ t, execAll [.bcWrite128 v n, .bcSeek (BitVec.ofNat 64 s.bc.cursor), .bcRead128 n] s = .next t ∧
        t.env.responses = s.env.responses ++
          [responseFrame (okValue 0), responseFrame (okValue 0),
            responseFrame (okValue (BitVec.ofNat 128 (v.toNat % 2 ^ n.toNat)))]

/-- 20_memory.md R71: one 128-bit-path write leaves the container as two 64-bit-path writes of the consecutive slices
do, wherever the field is split. The spec marks this as its own inference ("[derived: from rule R62 and rule R70]").
-/
def Obligations.SplitFieldsPackAlike : Prop :=
  ∀ (v : Word128) (j k n : BitVec 8) (s : State), s.bc.storage.wf = true → 1 ≤ j.toNat → j.toNat ≤ 64 →
    1 ≤ k.toNat → k.toNat ≤ 64 → n.toNat = j.toNat + k.toNat → s.bc.cursor + n.toNat ≤ 2 ^ 64 - 1 →
      ∃ t u, exec (.bcWrite128 v n) s = .next t ∧
        execAll [.bcWrite (BitVec.ofNat 64 v.toNat) j, .bcWrite (BitVec.ofNat 64 (v.toNat / 2 ^ j.toNat)) k] s
          = .next u ∧
        t.bc = u.bc

/-- 20_memory.md R65: the shift, mask and merge form. `Extract` and `Deposit` are a shift and a mask, and a masked
merge, of the window that holds the field, at most 9 bytes for n up to 64 and at most 17 for n up to 128; no byte
outside the window changes. The spec marks this form as its own inference ("[derived: from rule R61, rule R63 and rule
R64"). -/
def Obligations.WindowFormOfExtractAndDeposit : Prop :=
  ∀ (m : Memory) (p n v : Nat), m.wf = true → n ≤ 128 →
    let sh := p % 8
    let base := p / 8
    let k := ceil8 (sh + n)
    let window := BitVec.ofNat 136 (leValue (m.readBytes base k))
    (n ≤ 64 → k ≤ 9) ∧ k ≤ 17 ∧
    m.extract p n = leValue (m.readBytes base k) / 2 ^ sh % 2 ^ n ∧
    BitVec.ofNat 136 (leValue ((m.deposit p n v).readBytes base k))
      = ((window &&& ~~~(BitVec.ofNat 136 (2 ^ n - 1) <<< sh)) ||| (BitVec.ofNat 136 (v % 2 ^ n) <<< sh)) ∧
    ∀ a, a < base ∨ base + k ≤ a → (m.deposit p n v).read a = m.read a

/-! ## The Buffered Reader -/

/-- 43_reader.md R221: `RD_OPEN` on a reader that is not open, with capacity 0 for 4096 or at least 16, opens it empty and
makes no port call; a capacity of 1 to 15, or a reader already open, is answered `IllegalCommand`. What bytes the buffer
then has is not stated (log 18). -/
def Obligations.ReaderOpensEmpty : Prop :=
  ∀ (cap : BitVec 32) (s : State),
    let c := if cap.toNat = 0 then 4096 else cap.toNat
    (s.rd.opened = false ∧ 16 ≤ c →
      ∃ buf, exec (.rdOpen cap) s
        = .next (({ s with rd := ⟨true, c, buf, 0, 0, 0, false, false, 0#64⟩ } : State).respond (okValue 0))) ∧
    (s.rd.opened = true ∨ c < 16 → exec (.rdOpen cap) s = .next (s.respond (failed .illegalCommand)))

/-- R224, R225, R227, R230: `RD_READ`, `RD_READ128` and `RD_READV` answer the next bits of the stream the reader stands in,
through any number of fills, and consume exactly those; container, writer and the other ports are untouched. -/
def Obligations.ReaderReadsItsStream : Prop :=
  ∀ (f : FieldRead) (s : State), readerOk s.rd → s.rd.opened = true → s.rd.fatal = false → sourceKeepsContract s →
    readAccepted f = true → readWidth f ≤ readerBitsLeft s →
      ∃ t, exec (readerRead f) s = .next t ∧
        t.env.responses = s.env.responses ++ [responseFrame (readResponse f (readerBits s % 2 ^ readWidth f))] ∧
        readerBits t = readerBits s / 2 ^ readWidth f ∧ readerBitsLeft t = readerBitsLeft s - readWidth f ∧
        t.bc = s.bc ∧ t.wr = s.wr ∧ t.rd.opened = true ∧ t.rd.capacity = s.rd.capacity ∧ t.rd.fatal = false ∧
        t.rd.cause = s.rd.cause ∧ t.rd.atEndOfSource = s.rd.atEndOfSource ∧ t.env.inbox = s.env.inbox ∧
        t.env.srcCloseTape = s.env.srcCloseTape ∧ t.env.sinkWriteTape = s.env.sinkWriteTape ∧
        t.env.sinkFlushTape = s.env.sinkFlushTape ∧ t.env.sinkCloseTape = s.env.sinkCloseTape

/-- R226, 60_exceptions.md R285, R289: where the source ends before the field does, a read answers `EndOfStream`, the reader
is at the end of its source and its cursor at the end of the buffer, and it keeps its capacity and cause; once there, a
read changes nothing. -/
def Obligations.ReaderMeetsTheEndOfItsSource : Prop :=
  ∀ (f : FieldRead) (s : State), readerOk s.rd → s.rd.opened = true → s.rd.fatal = false → sourceKeepsContract s →
    readAccepted f = true →
      (s.rd.atEndOfSource = true → exec (readerRead f) s = .next (s.respond (failed .endOfStream))) ∧
      (s.rd.atEndOfSource = false → tapeStop s.env.srcReadTape = some (.ok []) → readerBitsLeft s < readWidth f →
        ∃ t, exec (readerRead f) s = .next t ∧
          t.env.responses = s.env.responses ++ [responseFrame (failed .endOfStream)] ∧
          t.rd.atEndOfSource = true ∧ t.rd.fatal = false ∧ t.rd.cause = s.rd.cause ∧
          t.rd.bytePos = t.rd.bufferSize ∧ t.rd.bitPos = 0 ∧ onlyReading s t)

/-- R222, R223, 60_exceptions.md R287, R289: where a fill fails before the field ends, a read answers `IoError` with the
cause and the reader is fatal, its cursor at the end of the buffer, and it keeps its capacity; a fatal reader answers
every read with that cause, makes no port call and changes nothing. -/
def Obligations.ReaderFailureIsFatalAndSticky : Prop :=
  ∀ (f : FieldRead) (s : State), s.rd.opened = true → readAccepted f = true →
    (s.rd.fatal = true → exec (readerRead f) s = .next (s.respond (ioFailed s.rd.cause))) ∧
    ∀ cause, readerOk s.rd → s.rd.fatal = false → s.rd.atEndOfSource = false → sourceKeepsContract s →
      tapeStop s.env.srcReadTape = some (.err cause) → readerBitsLeft s < readWidth f →
        ∃ t, exec (readerRead f) s = .next t ∧
          t.env.responses = s.env.responses ++ [responseFrame (ioFailed cause)] ∧
          t.rd.fatal = true ∧ t.rd.cause = cause ∧ t.rd.atEndOfSource = false ∧
          t.rd.bytePos = t.rd.bufferSize ∧ t.rd.bitPos = 0 ∧ onlyReading s t

/-- 70_reset_and_hazards.md R320, R223: a read of n bits makes at most ceil8(n) port calls, each a `SrcRead` of the
whole capacity. The spec marks the bound as its own inference ("[derived: from 43_reader.md rule R230]"). -/
def Obligations.ReadsMakeFewSourceCalls : Prop :=
  ∀ (f : FieldRead) (s t : State), exec (readerRead f) s = .next t →
    ∃ calls : List PortCall, t.env.calls = s.env.calls ++ calls ∧ calls.length ≤ (readWidth f + 7) / 8 ∧
      ∀ c ∈ calls, ∃ a, c = .srcRead s.rd.capacity a

/-- R228, R229: `RD_ATEND` answers the end flag and changes nothing; `RD_CLOSE` makes the one call `SrcClose` and, whatever
stands or does not stand on the port's tape, closes the reader if the source answers `Ok`; if it fails, the reader is as it
was and the cause is answered; both are answered `IllegalCommand` while the reader is not open. What the other fields of
a closed reader hold is not stated (log 18). -/
def Obligations.ReaderQueryAndClose : Prop :=
  ∀ s : State,
    (s.rd.opened = false →
      exec .rdAtEnd s = .next (s.respond (failed .illegalCommand)) ∧
      exec .rdClose s = .next (s.respond (failed .illegalCommand))) ∧
    (s.rd.opened = true →
      exec .rdAtEnd s = .next (s.respond (okValue (if s.rd.atEndOfSource = true then 1 else 0))) ∧
      ∃ t, exec .rdClose s = .next t ∧ t.bc = s.bc ∧ t.wr = s.wr ∧
        t.env = { (afterSrcClose s).env with responses := t.env.responses } ∧
        t.env.calls = s.env.calls ++ [.srcClose (srcCloseAnswer s)] ∧
        (srcCloseAnswer s = .ok →
          t.rd.opened = false ∧ t.env.responses = s.env.responses ++ [responseFrame (okValue 0)]) ∧
        ∀ cause, srcCloseAnswer s = .err cause →
          t.rd = s.rd ∧ t.env.responses = s.env.responses ++ [responseFrame (ioFailed cause)])

/-- R222, 44_writer.md R252: every command of a reader or writer that is not open, but its open command, is answered
`IllegalCommand` and changes no state. -/
def Obligations.ClosedUnitsRefuseCommands : Prop :=
  ∀ s : State,
    let refused := Host.Outcome.next (φ := Fault) (ρ := Refusal) (s.respond (failed .illegalCommand))
    (s.rd.opened = false →
      (∀ f : FieldRead, exec (readerRead f) s = refused) ∧ exec .rdAtEnd s = refused ∧ exec .rdClose s = refused) ∧
    (s.wr.opened = false →
      (∀ f : FieldWrite, exec (writerWrite f) s = refused) ∧ exec .wrFlush s = refused ∧ exec .wrClose s = refused)

/-- 43_reader.md R231: for a source that delivers the bytes D in any chunking, and any reads whose widths sum to no
more than the bits of D, the reader's responses are those of the container loaded with D. The spec marks this as its
own inference ("[derived: from rule R230 and 42_container.md rule R197]"). -/
def Obligations.ReaderAgreesWithTheContainer : Prop :=
  ∀ (fs : List FieldRead) (cap : BitVec 32) (s : State),
    s.rd.opened = false → s.rd.buf.wf = true → 16 ≤ askedCapacity cap →
    (∀ a ∈ s.env.srcReadTape, keepsContract (askedCapacity cap) a) →
    (∀ f ∈ fs, readAccepted f = true) →
    (fs.map readWidth).sum ≤ 8 * (tapeBytes s.env.srcReadTape).length →
    8 * (tapeBytes s.env.srcReadTape).length ≤ 2 ^ 64 - 1 →
      ∃ t u, execAll (.bcLoad (tapeBytes s.env.srcReadTape) :: fs.map containerRead) s = .next t ∧
        execAll (.rdOpen cap :: fs.map readerRead) s = .next u ∧ u.env.responses = t.env.responses

/-! ## The Buffered Writer -/

/-- 44_writer.md R251: `WR_OPEN` on a writer that is not open, with capacity 0 for 4096 or at least 16, opens it empty and
makes no port call; a capacity of 1 to 15, or a writer already open, is answered `IllegalCommand`. What bytes the buffer
then has is not stated (log 18). -/
def Obligations.WriterOpensEmpty : Prop :=
  ∀ (leave : Bool) (cap : BitVec 32) (s : State),
    let c := if cap.toNat = 0 then 4096 else cap.toNat
    (s.wr.opened = false ∧ 16 ≤ c →
      ∃ buf, exec (.wrOpen leave cap) s
        = .next (({ s with wr := ⟨true, c, leave, buf, 0, 0⟩ } : State).respond (okValue 0))) ∧
    (s.wr.opened = true ∨ c < 16 → exec (.wrOpen leave cap) s = .next (s.respond (failed .illegalCommand)))

/-- R254, R255, R256, R257, R253: `WR_WRITE`, `WR_WRITE128` and `WR_WRITEV` append the low n bits of the value to the
stream of bytes the writer makes; a field that does not fill the buffer makes no port call, one that does makes one
`SinkWrite`; container, reader and the writer's configuration are untouched. The spec marks the bound of one
`SinkWrite` as its own inference ("[derived: from rule R251 and 20_memory.md rule R70]"). -/
def Obligations.WriterAppendsTheField : Prop :=
  ∀ (f : FieldWrite) (s : State), writerOk s.wr → s.wr.opened = true → writeAccepted f = true →
    (8 * s.wr.bytePos + s.wr.bitPos + writeWidth f < 8 * s.wr.capacity ∨ sinkWriteAnswer s = .ok) →
      ∃ t, exec (writerWrite f) s = .next t ∧
        t.env.responses = s.env.responses ++ [responseFrame (okValue 0)] ∧
        writerPosition t = writerPosition s + writeWidth f ∧
        leValue (writerStream t)
          = leValue (writerStream s) + 2 ^ writerPosition s * (writeValue f % 2 ^ writeWidth f) ∧
        t.bc = s.bc ∧ t.rd = s.rd ∧ t.wr.opened = true ∧ t.wr.capacity = s.wr.capacity ∧
        t.wr.leaveOpen = s.wr.leaveOpen ∧ t.env.inbox = s.env.inbox ∧
        (8 * s.wr.bytePos + s.wr.bitPos + writeWidth f < 8 * s.wr.capacity → t.env.calls = s.env.calls) ∧
        (8 * s.wr.capacity ≤ 8 * s.wr.bytePos + s.wr.bitPos + writeWidth f →
          ∃ bytes : List Byte, bytes.length = s.wr.capacity ∧ t.env.calls = s.env.calls ++ [.sinkWrite bytes .ok])

/-- R257, 60_exceptions.md R287: where the flush inside a write fails, the whole command is undone: the writer is as it was,
the one `SinkWrite` of the full buffer has been made, and the cause is answered. -/
def Obligations.FailedFlushUndoesTheWrite : Prop :=
  ∀ (f : FieldWrite) (s : State) (cause : Word64), writerOk s.wr → s.wr.opened = true → writeAccepted f = true →
    8 * s.wr.capacity ≤ 8 * s.wr.bytePos + s.wr.bitPos + writeWidth f → sinkWriteAnswer s = .err cause →
      ∃ t, exec (writerWrite f) s = .next t ∧ t.wr = s.wr ∧ t.bc = s.bc ∧ t.rd = s.rd ∧
        t.env.responses = s.env.responses ++ [responseFrame (ioFailed cause)] ∧
        ∃ bytes : List Byte, bytes.length = s.wr.capacity ∧
          t.env.calls = s.env.calls ++ [.sinkWrite bytes (.err cause)] ∧
          leValue bytes = (leValue (unsentBytes s.wr) +
            2 ^ (8 * s.wr.bytePos + s.wr.bitPos) * (writeValue f % 2 ^ writeWidth f)) % 2 ^ (8 * s.wr.capacity)

/-- R258: `WR_FLUSH` hands over the pending bytes, a partial byte included, in one `SinkWrite` if there are any, and then
calls `SinkFlush`, whatever stands or does not stand on the tapes; a failed `SinkWrite` changes nothing of the writer;
after a successful one the buffer is empty whatever `SinkFlush` answers; a writer that is not open answers
`IllegalCommand`. -/
def Obligations.FlushHandsOverThePendingBytes : Prop :=
  (∀ s : State, s.wr.opened = false → exec .wrFlush s = .next (s.respond (failed .illegalCommand))) ∧
  ∀ s : State, s.wr.opened = true →
    let bytes := unsentBytes s.wr
    let u := afterHandOver s
    ∃ t, exec .wrFlush s = .next t ∧ t.bc = s.bc ∧ t.rd = s.rd ∧
      (∀ cause, bytes ≠ [] → sinkWriteAnswer s = .err cause →
        t.wr = s.wr ∧ t.env = { (afterSinkWrite s bytes).env with responses := t.env.responses } ∧
        t.env.calls = s.env.calls ++ [.sinkWrite bytes (.err cause)] ∧
        t.env.responses = s.env.responses ++ [responseFrame (ioFailed cause)]) ∧
      (bytes = [] ∨ sinkWriteAnswer s = .ok →
        t.wr = emptiedWriter s.wr ∧ t.env = { (afterSinkFlush u).env with responses := t.env.responses } ∧
        t.env.calls = s.env.calls ++ handOverCalls s ++ [.sinkFlush (sinkFlushAnswer u)] ∧
        (sinkFlushAnswer u = .ok → t.env.responses = s.env.responses ++ [responseFrame (okValue 0)]) ∧
        ∀ cause, sinkFlushAnswer u = .err cause →
          t.env.responses = s.env.responses ++ [responseFrame (ioFailed cause)])

/-- R259: `WR_CLOSE` does the steps of the flush, then closes the sink unless `leave_open` is set, and the writer is then not
open, whatever stands or does not stand on the tapes; on any failure the writer stays open in the state the failing step
left, and the cause is answered; a writer that is not open answers `IllegalCommand`. What the other fields of a closed
writer hold is not stated (log 18). -/
def Obligations.CloseFlushesAndThenCloses : Prop :=
  (∀ s : State, s.wr.opened = false → exec .wrClose s = .next (s.respond (failed .illegalCommand))) ∧
  ∀ s : State, s.wr.opened = true →
    let bytes := unsentBytes s.wr
    let u := afterHandOver s
    let v := afterSinkFlush u
    let flushed := s.env.calls ++ handOverCalls s ++ [.sinkFlush (sinkFlushAnswer u)]
    ∃ t, exec .wrClose s = .next t ∧ t.bc = s.bc ∧ t.rd = s.rd ∧
      (∀ cause, bytes ≠ [] → sinkWriteAnswer s = .err cause →
        t.wr = s.wr ∧ t.env = { (afterSinkWrite s bytes).env with responses := t.env.responses } ∧
        t.env.calls = s.env.calls ++ [.sinkWrite bytes (.err cause)] ∧
        t.env.responses = s.env.responses ++ [responseFrame (ioFailed cause)]) ∧
      (bytes = [] ∨ sinkWriteAnswer s = .ok →
        (∀ cause, sinkFlushAnswer u = .err cause →
          t.wr = emptiedWriter s.wr ∧ t.env = { v.env with responses := t.env.responses } ∧ t.env.calls = flushed ∧
          t.env.responses = s.env.responses ++ [responseFrame (ioFailed cause)]) ∧
        (sinkFlushAnswer u = .ok → s.wr.leaveOpen = true →
          t.wr.opened = false ∧ t.env = { v.env with responses := t.env.responses } ∧ t.env.calls = flushed ∧
          t.env.responses = s.env.responses ++ [responseFrame (okValue 0)]) ∧
        (sinkFlushAnswer u = .ok → s.wr.leaveOpen = false →
          t.env = { (afterSinkClose v).env with responses := t.env.responses } ∧
          t.env.calls = flushed ++ [.sinkClose (sinkCloseAnswer v)] ∧
          (sinkCloseAnswer v = .ok →
            t.wr.opened = false ∧ t.env.responses = s.env.responses ++ [responseFrame (okValue 0)]) ∧
          ∀ cause, sinkCloseAnswer v = .err cause →
            t.wr = emptiedWriter s.wr ∧ t.env.responses = s.env.responses ++ [responseFrame (ioFailed cause)]))

/-- 20_memory.md R84, 44_writer.md R260: for any sequence of field writes, what the sink has taken after one
`WR_FLUSH` is what `BC_BYTES` has after the same writes to a cleared container, whatever the writer's capacity. The
spec marks both as its own inference ("[derived: from rule R64, 42_container.md rule R186 and 44_writer.md rules R253
and R258]"); the end by `WR_CLOSE` is not stated here. -/
def Obligations.StreamingAgreesWithInMemory : Prop :=
  ∀ (fs : List FieldWrite) (leave : Bool) (cap : BitVec 32) (s : State),
    s.wr.opened = false → s.wr.buf.wf = true → 16 ≤ askedCapacity cap →
    (∀ f ∈ fs, writeAccepted f = true) → (fs.map writeWidth).sum ≤ 2 ^ 64 - 1 →
    (∀ a ∈ s.env.sinkWriteTape, a = .ok) → fs.length < s.env.sinkWriteTape.length →
    s.env.sinkFlushTape.head? = some .ok →
      ∃ t u calls, execAll (.bcClear :: fs.map containerWrite) s = .next t ∧
        execAll (.wrOpen leave cap :: (fs.map writerWrite ++ [.wrFlush])) s = .next u ∧
        u.env.calls = s.env.calls ++ calls ∧
        sunkBytes calls = t.bc.storage.readBytes 0 (containerBytes t.bc)
end

