-- ==== Sys2Proof/Laws/Encoding.lean ====
section
/-! SUPPORT. Byte lists as little-endian numbers, and the fields of a command word. -/

namespace Sys2Proof

@[simp] theorem leBytes_length (k v : Nat) : (leBytes k v).length = k := by
  induction k generalizing v with
  | zero => rfl
  | succ k ih => simp [leBytes, ih]

/-- The bytes of a number, read back, are its low bytes. -/
theorem leValue_leBytes (k v : Nat) : leValue (leBytes k v) = v % 256 ^ k := by
  induction k generalizing v with
  | zero => simp [leBytes, leValue, Nat.mod_one]
  | succ k ih =>
    have split : v % (256 * 256 ^ k) = v % 256 + 256 * (v / 256 % 256 ^ k) := Nat.mod_mul
    rw [leBytes, leValue, ih, BitVec.toNat_ofNat, Nat.pow_succ' (n := k), split]

theorem leValue_append (xs ys : List Byte) : leValue (xs ++ ys) = leValue xs + 256 ^ xs.length * leValue ys := by
  induction xs with
  | nil => simp [leValue]
  | cons x xs ih => simp only [List.cons_append, leValue, ih, List.length_cons, pow_succ']; ring

theorem leValue_lt (xs : List Byte) : leValue xs < 256 ^ xs.length := by
  induction xs with
  | nil => simp [leValue]
  | cons x xs ih =>
    have hx : x.toNat < 256 := x.isLt
    simp only [leValue, List.length_cons, pow_succ']
    omega

/-- Bit `p` of a byte list read as a number is bit `p mod 8` of byte `p div 8` (20_memory.md R61). -/
theorem leValue_testBit (xs : List Byte) (p : Nat) :
    (leValue xs).testBit p = (xs.getD (p / 8) 0#8).getLsbD (p % 8) := by
  induction xs generalizing p with
  | nil => simp [leValue]
  | cons x xs ih =>
    have hx : x.toNat < 2 ^ 8 := x.isLt
    rw [leValue, Nat.add_comm, show (256 : Nat) = 2 ^ 8 by norm_num, Nat.testBit_two_pow_mul_add _ hx]
    by_cases hp : p < 8
    · rw [if_pos hp, Nat.div_eq_of_lt hp, Nat.mod_eq_of_lt hp]; rfl
    · rw [if_neg hp, ih, show p / 8 = (p - 8) / 8 + 1 by omega, show (p - 8) % 8 = p % 8 by omega]; rfl

/-- The fields read back from a word are the fields it was made of (30_encoding.md R91). -/
theorem fieldsOfWord_wordOfFields (x : Fields) : fieldsOfWord (wordOfFields x) = x := by
  obtain ⟨op, n, m, f, a, b⟩ := x
  simp only [fieldsOfWord, wordOfFields, Fields.mk.injEq]
  refine ⟨?_, ?_, ?_, ?_, ?_, ?_⟩ <;>
    (apply BitVec.eq_of_getLsbD_eq; intro i hi
     simp only [BitVec.getLsbD_extractLsb', BitVec.getLsbD_append, hi, decide_true, Bool.true_and])
  · simp [hi]
  · simp [show ¬ 8 + i < 8 by omega, hi]
  · simp [show ¬ 16 + i < 8 by omega, show ¬ 16 + i - 8 < 8 by omega, show 16 + i - 8 - 8 = i by omega, hi]
  · simp [show ¬ 24 + i < 8 by omega, show ¬ 24 + i - 8 < 8 by omega, show ¬ 24 + i - 8 - 8 < 8 by omega,
      show 24 + i - 8 - 8 - 8 = i by omega, hi]
  · simp [show ¬ 32 + i < 8 by omega, show ¬ 32 + i - 8 < 8 by omega, show ¬ 32 + i - 8 - 8 < 8 by omega,
      show ¬ 32 + i - 8 - 8 - 8 < 8 by omega, show 32 + i - 8 - 8 - 8 - 8 = i by omega, hi]
  · simp [show ¬ 160 + i < 8 by omega, show ¬ 160 + i - 8 < 8 by omega, show ¬ 160 + i - 8 - 8 < 8 by omega,
      show ¬ 160 + i - 8 - 8 - 8 < 8 by omega, show ¬ 160 + i - 8 - 8 - 8 - 8 < 128 by omega,
      show 160 + i - 8 - 8 - 8 - 8 - 128 = i by omega]

/-- A value zero-extended to 128 bits has itself as its low part. -/
theorem low_setWidth (v : Word64) : Word128.low (v.setWidth 128) = v := by
  apply BitVec.eq_of_getLsbD_eq; intro i hi
  simp [Word128.low, hi]; omega

theorem extract32_setWidth (v : BitVec 32) : (v.setWidth 128).extractLsb' 0 32 = v := by
  apply BitVec.eq_of_getLsbD_eq; intro i hi
  simp [hi]; omega

@[simp] theorem flagByte_bit0 (b : Bool) : (flagByte b).getLsbD 0 = b := by cases b <;> rfl

theorem flagByte_pair_bit0 (b c : Bool) : (flagByte b + 2#8 * flagByte c).getLsbD 0 = b := by
  cases b <;> cases c <;> rfl

theorem flagByte_pair_bit1 (b c : Bool) : (flagByte b + 2#8 * flagByte c).getLsbD 1 = c := by
  cases b <;> cases c <;> rfl

end Sys2Proof
end

