-- ==== Sys2Proof/Laws/Memory.lean ====
section
/-! SUPPORT. The laws of byte sequences and of the packing rule: read after write, the canonical form kept by every
operation, and what `extract` and `deposit` do to each bit. -/

namespace Sys2Proof.Machine

/-! ## Bytes -/

theorem Memory.wfFrom_mono {hi : Nat} {m : Memory} (h : m.wfFrom hi = true) {lo : Nat} (hlo : lo ≤ hi) :
    m.wfFrom lo = true := by
  cases m with
  | nil => rfl
  | cons c rest =>
    obtain ⟨k, v⟩ := c
    simp only [Memory.wfFrom, Bool.and_eq_true, decide_eq_true_eq] at h ⊢
    exact ⟨⟨hlo.trans h.1.1, h.1.2⟩, h.2⟩

theorem Memory.read_below {m : Memory} {lo : Nat} (h : m.wfFrom lo = true) {a : Nat} (ha : a < lo) :
    m.read a = Memory.blank := by
  induction m generalizing lo with
  | nil => rfl
  | cons c rest ih =>
    obtain ⟨k, v⟩ := c
    simp only [Memory.wfFrom, Bool.and_eq_true, decide_eq_true_eq] at h
    rw [Memory.read, if_neg (by omega)]
    exact ih h.2 (by omega)

theorem Memory.read_write_from {m : Memory} {lo : Nat} (h : m.wfFrom lo = true) (a : Nat) (b : Byte) (c : Nat) :
    (m.write a b).read c = if c = a then b else m.read c := by
  induction m generalizing lo with
  | nil =>
    by_cases hc : c = a
    · subst hc; by_cases hb : b = Memory.blank <;> simp [Memory.write, Memory.read, hb]
    · have hc' : ¬ a = c := fun e => hc e.symm
      by_cases hb : b = Memory.blank <;> simp [Memory.write, Memory.read, hb, hc, hc']
  | cons x rest ih =>
    obtain ⟨k, v⟩ := x
    simp only [Memory.wfFrom, Bool.and_eq_true, decide_eq_true_eq] at h
    have below : ∀ d, d < k + 1 → Memory.read rest d = Memory.blank := fun d hd => Memory.read_below h.2 hd
    rcases Nat.lt_trichotomy a k with hak | hak | hak
    · by_cases hb : b = Memory.blank
      · by_cases hc : c = a
        · subst hc
          simp [Memory.write, Memory.read, hak, hb, below c (by omega), show k ≠ c by omega]
        · simp [Memory.write, hak, hb, hc]
      · by_cases hc : c = a
        · simp [Memory.write, Memory.read, hak, hb, hc]
        · simp [Memory.write, Memory.read, hak, hb, hc, show ¬ a = c from fun e => hc e.symm]
    · subst hak
      by_cases hb : b = Memory.blank
      · by_cases hc : c = a
        · subst hc; simp [Memory.write, hb, below c (by omega)]
        · simp [Memory.write, Memory.read, hb, hc, show ¬ a = c by omega]
      · by_cases hc : c = a
        · simp [Memory.write, Memory.read, hb, hc]
        · simp [Memory.write, Memory.read, hb, hc, show ¬ a = c from fun e => hc e.symm]
    · rw [Memory.write, if_neg (by omega), if_neg (by omega)]
      by_cases hc : k = c
      · subst hc; simp [Memory.read, show ¬ k = a by omega]
      · simp [Memory.read, hc, ih h.2]

theorem Memory.write_wfFrom {m : Memory} {lo : Nat} (h : m.wfFrom lo = true) {a : Nat} (ha : lo ≤ a) (b : Byte) :
    (m.write a b).wfFrom lo = true := by
  induction m generalizing lo with
  | nil => by_cases hb : b = Memory.blank <;> simp [Memory.write, Memory.wfFrom, hb, ha]
  | cons x rest ih =>
    obtain ⟨k, v⟩ := x
    simp only [Memory.wfFrom, Bool.and_eq_true, decide_eq_true_eq, bne_iff_ne] at h
    rcases Nat.lt_trichotomy a k with hak | hak | hak
    · by_cases hb : b = Memory.blank
      · simp [Memory.write, Memory.wfFrom, hak, hb, h]
      · simp [Memory.write, Memory.wfFrom, hak, hb, h, ha]
    · subst hak
      by_cases hb : b = Memory.blank
      · simp [Memory.write, hb, Memory.wfFrom_mono h.2 (show lo ≤ a + 1 by omega)]
      · simp [Memory.write, Memory.wfFrom, hb, h]
    · rw [Memory.write, if_neg (by omega), if_neg (by omega)]
      simp [Memory.wfFrom, h, ih h.2 (show k + 1 ≤ a by omega)]

/-- A read after a write to the same address gives the value written; every other address is left alone. -/
theorem Memory.read_write {m : Memory} (h : m.wf = true) (a : Nat) (b : Byte) (c : Nat) :
    (m.write a b).read c = if c = a then b else m.read c := Memory.read_write_from h a b c

/-- Writing keeps the canonical form. -/
theorem Memory.write_wf {m : Memory} (h : m.wf = true) (a : Nat) (b : Byte) : (m.write a b).wf = true :=
  Memory.write_wfFrom h (Nat.zero_le a) b

theorem Memory.writeBytes_wf {m : Memory} (h : m.wf = true) (a : Nat) (bs : List Byte) :
    (m.writeBytes a bs).wf = true := by
  induction bs generalizing m a with
  | nil => exact h
  | cons b bs ih => exact ih (Memory.write_wf h a b) (a + 1)

theorem Memory.read_writeBytes {m : Memory} (h : m.wf = true) (a : Nat) (bs : List Byte) (c : Nat) :
    (m.writeBytes a bs).read c =
      if a ≤ c ∧ c < a + bs.length then bs.getD (c - a) Memory.blank else m.read c := by
  induction bs generalizing m a with
  | nil => rw [if_neg (by simp)]; rfl
  | cons b bs ih =>
    rw [Memory.writeBytes, ih (Memory.write_wf h a b), Memory.read_write h]
    simp only [List.length_cons]
    by_cases h1 : a + 1 ≤ c ∧ c < a + 1 + bs.length
    · rw [if_pos h1, if_pos (by omega)]
      obtain ⟨d, rfl⟩ : ∃ d, c = a + 1 + d := ⟨c - (a + 1), by omega⟩
      rw [show a + 1 + d - (a + 1) = d by omega, show a + 1 + d - a = d + 1 by omega]
      rfl
    · rw [if_neg h1]
      by_cases h2 : c = a
      · subst h2; simp
      · rw [if_neg h2, if_neg (by omega)]

@[simp] theorem Memory.readBytes_length (m : Memory) (a k : Nat) : (m.readBytes a k).length = k := by
  induction k generalizing a with
  | zero => rfl
  | succ k ih => simp [Memory.readBytes, ih]

theorem Memory.readBytes_getElem (m : Memory) (a k i : Nat) (h : i < (m.readBytes a k).length) :
    (m.readBytes a k)[i] = m.read (a + i) := by
  induction k generalizing a i with
  | zero => simp [Memory.readBytes] at h
  | succ k ih =>
    cases i with
    | zero => rfl
    | succ i =>
      simp only [Memory.readBytes, List.getElem_cons_succ]
      rw [ih]; congr 1; omega

/-- Equal contents are equal data: the canonical form has one list for each. -/
theorem Memory.ext_from {m m' : Memory} {lo : Nat} (h : m.wfFrom lo = true) (h' : m'.wfFrom lo = true)
    (heq : ∀ a, m.read a = m'.read a) : m = m' := by
  induction m generalizing m' lo with
  | nil =>
    cases m' with
    | nil => rfl
    | cons x rest =>
      obtain ⟨k, v⟩ := x
      simp only [Memory.wfFrom, Bool.and_eq_true, bne_iff_ne] at h'
      have := heq k
      simp [Memory.read] at this
      exact absurd this.symm h'.1.2
  | cons x rest ih =>
    obtain ⟨k, v⟩ := x
    simp only [Memory.wfFrom, Bool.and_eq_true, decide_eq_true_eq, bne_iff_ne] at h
    cases m' with
    | nil =>
      have := heq k
      simp [Memory.read] at this
      exact absurd this h.1.2
    | cons y rest' =>
      obtain ⟨k', v'⟩ := y
      simp only [Memory.wfFrom, Bool.and_eq_true, decide_eq_true_eq, bne_iff_ne] at h'
      have hk : k = k' := by
        rcases Nat.lt_trichotomy k k' with hlt | heqk | hgt
        · have hx := heq k
          have : Memory.read rest' k = Memory.blank := Memory.read_below h'.2 (by omega)
          simp [Memory.read, show ¬ k' = k by omega, this] at hx
          exact absurd hx h.1.2
        · exact heqk
        · have hx := heq k'
          have : Memory.read rest k' = Memory.blank := Memory.read_below h.2 (by omega)
          simp [Memory.read, show ¬ k = k' by omega, this] at hx
          exact absurd hx.symm h'.1.2
      subst hk
      have hv : v = v' := by have := heq k; simpa [Memory.read] using this
      subst hv
      congr 1
      refine ih h.2 h'.2 fun a => ?_
      by_cases ha : k = a
      · rw [Memory.read_below h.2 (by omega), Memory.read_below h'.2 (by omega)]
      · have := heq a
        simpa [Memory.read, ha] using this

theorem Memory.ext_read {m m' : Memory} (h : m.wf = true) (h' : m'.wf = true) (heq : ∀ a, m.read a = m'.read a) :
    m = m' := Memory.ext_from h h' heq

/-! ## Bits -/

theorem putBit_getLsbD {i : Nat} (hi : i < 8) (x : Byte) (b : Bool) (j : Nat) :
    (putBit x i b).getLsbD j = if j = i then b else x.getLsbD j := by
  by_cases hj : j < 8
  · cases b <;> by_cases hij : j = i
    · subst hij; simp [putBit, hj]
    · simp [putBit, hj, hij]
      intro _; omega
    · subst hij; simp [putBit, hj]
    · simp [putBit, hj, hij]
      rcases Nat.lt_or_gt_of_ne hij with h | h
      · simp [h]
      · have : j - i ≠ 0 := by omega
        simp [show ¬ j < i by omega, this]
  · rw [BitVec.getLsbD_of_ge _ _ (by omega), if_neg (by omega), BitVec.getLsbD_of_ge _ _ (by omega)]

theorem Memory.setBitOf_wf {m : Memory} (h : m.wf = true) (a i : Nat) (b : Bool) : (m.setBitOf a i b).wf = true :=
  Memory.write_wf h _ _

theorem Memory.read_setBitOf {m : Memory} (h : m.wf = true) (a i : Nat) (b : Bool) (c : Nat) :
    (m.setBitOf a i b).read c = if c = a then putBit (m.read a) i b else m.read c := Memory.read_write h _ _ _

theorem Memory.setBit_wf {m : Memory} (h : m.wf = true) (p : Nat) (b : Bool) : (m.setBit p b).wf = true :=
  Memory.write_wf h _ _

theorem Memory.getBit_setBit {m : Memory} (h : m.wf = true) (p : Nat) (b : Bool) (q : Nat) :
    (m.setBit p b).getBit q = if q = p then b else m.getBit q := by
  rw [Memory.getBit, Memory.setBit, Memory.read_setBitOf h]
  by_cases hb : q / 8 = p / 8
  · rw [if_pos hb, putBit_getLsbD (by omega)]
    by_cases hq : q = p
    · subst hq; simp
    · rw [if_neg hq, if_neg (by omega), Memory.getBit, hb]
  · rw [if_neg hb, if_neg (by rintro rfl; exact hb rfl)]; rfl

theorem Memory.deposit_wf {m : Memory} (h : m.wf = true) (p n v : Nat) : (m.deposit p n v).wf = true := by
  induction n generalizing m p v with
  | zero => exact h
  | succ n ih => exact ih (Memory.setBit_wf h _ _) _ _

/-- What `Deposit` does to each bit (20_memory.md R64). -/
theorem Memory.getBit_deposit {m : Memory} (h : m.wf = true) (p n v q : Nat) :
    (m.deposit p n v).getBit q = if p ≤ q ∧ q < p + n then v.testBit (q - p) else m.getBit q := by
  induction n generalizing m p v with
  | zero => rw [if_neg (by omega)]; rfl
  | succ n ih =>
    rw [Memory.deposit, ih (Memory.setBit_wf h _ _), Memory.getBit_setBit h]
    by_cases h1 : p + 1 ≤ q ∧ q < p + 1 + n
    · rw [if_pos h1, if_pos (by omega)]
      obtain ⟨d, rfl⟩ : ∃ d, q = p + 1 + d := ⟨q - (p + 1), by omega⟩
      rw [show p + 1 + d - (p + 1) = d by omega, show p + 1 + d - p = d + 1 by omega, Nat.testBit_succ]
    · rw [if_neg h1]
      by_cases h2 : q = p
      · subst h2; simp
      · rw [if_neg h2, if_neg (by omega)]

/-- What `Extract` gives, bit by bit (20_memory.md R63). -/
theorem Memory.extract_testBit (m : Memory) (p n i : Nat) :
    (m.extract p n).testBit i = (decide (i < n) && m.getBit (p + i)) := by
  induction n generalizing p i with
  | zero => simp [Memory.extract]
  | succ n ih =>
    cases i with
    | zero =>
      cases hb : m.getBit p
      all_goals simp [Memory.extract, hb, Nat.testBit_zero, Nat.add_mod]
    | succ i =>
      rw [Memory.extract, Nat.testBit_succ,
        show ((m.getBit p).toNat + 2 * m.extract (p + 1) n) / 2 = m.extract (p + 1) n by
          cases m.getBit p <;> (simp; try omega),
        ih, show p + 1 + i = p + (i + 1) by omega]
      simp

theorem Memory.extract_lt (m : Memory) (p n : Nat) : m.extract p n < 2 ^ n := by
  induction n generalizing p with
  | zero => simp [Memory.extract]
  | succ n ih =>
    have := ih (p + 1)
    have hb : (m.getBit p).toNat ≤ 1 := by cases m.getBit p <;> simp
    rw [Memory.extract, pow_succ]; omega

/-- Two sequences whose bits agree everywhere are the same data. -/
theorem Memory.ext_getBit {m m' : Memory} (h : m.wf = true) (h' : m'.wf = true)
    (heq : ∀ p, m.getBit p = m'.getBit p) : m = m' := by
  refine Memory.ext_read h h' fun a => BitVec.eq_of_getLsbD_eq fun i hi => ?_
  have := heq (8 * a + i)
  simpa [Memory.getBit, show (8 * a + i) / 8 = a by omega, show (8 * a + i) % 8 = i by omega] using this

end Sys2Proof.Machine
end

