-- ==== Sys2Proof/Laws/State.lean ====
section
/-! SUPPORT. What each named update of State leaves in each component: one lemma per component per update, by rfl. -/

namespace Sys2Proof.Machine

/-! ## respond -/

@[simp] theorem respond_bc (s : State) (x : Response) : (s.respond x).bc = s.bc := rfl
@[simp] theorem respond_rd (s : State) (x : Response) : (s.respond x).rd = s.rd := rfl
@[simp] theorem respond_wr (s : State) (x : Response) : (s.respond x).wr = s.wr := rfl
@[simp] theorem respond_inbox (s : State) (x : Response) : (s.respond x).env.inbox = s.env.inbox := rfl
@[simp] theorem respond_srcReadTape (s : State) (x : Response) :
    (s.respond x).env.srcReadTape = s.env.srcReadTape := rfl
@[simp] theorem respond_srcCloseTape (s : State) (x : Response) :
    (s.respond x).env.srcCloseTape = s.env.srcCloseTape := rfl
@[simp] theorem respond_sinkWriteTape (s : State) (x : Response) :
    (s.respond x).env.sinkWriteTape = s.env.sinkWriteTape := rfl
@[simp] theorem respond_sinkFlushTape (s : State) (x : Response) :
    (s.respond x).env.sinkFlushTape = s.env.sinkFlushTape := rfl
@[simp] theorem respond_sinkCloseTape (s : State) (x : Response) :
    (s.respond x).env.sinkCloseTape = s.env.sinkCloseTape := rfl
@[simp] theorem respond_draws (s : State) (x : Response) : (s.respond x).env.draws = s.env.draws := rfl
@[simp] theorem respond_calls (s : State) (x : Response) : (s.respond x).env.calls = s.env.calls := rfl
@[simp] theorem respond_responses (s : State) (x : Response) :
    (s.respond x).env.responses = s.env.responses ++ [responseFrame x] := rfl

/-! ## withContainer and applyReset -/

@[simp] theorem withContainer_bc (s : State) (c : Container) : (s.withContainer c).bc = c := rfl
@[simp] theorem withContainer_rd (s : State) (c : Container) : (s.withContainer c).rd = s.rd := rfl
@[simp] theorem withContainer_wr (s : State) (c : Container) : (s.withContainer c).wr = s.wr := rfl
@[simp] theorem withContainer_env (s : State) (c : Container) : (s.withContainer c).env = s.env := rfl

@[simp] theorem applyReset_bc (s : State) : (applyReset s).bc = emptyContainer := rfl
@[simp] theorem applyReset_rd (s : State) : (applyReset s).rd = closedReader := rfl
@[simp] theorem applyReset_wr (s : State) : (applyReset s).wr = closedWriter := rfl
@[simp] theorem applyReset_env (s : State) : (applyReset s).env = s.env := rfl

/-! ## Port calls: the units are untouched, the call is recorded with its answer -/

@[simp] theorem afterSrcRead_bc (s : State) (k : Nat) : (afterSrcRead s k).bc = s.bc := rfl
@[simp] theorem afterSrcRead_rd (s : State) (k : Nat) : (afterSrcRead s k).rd = s.rd := rfl
@[simp] theorem afterSrcRead_wr (s : State) (k : Nat) : (afterSrcRead s k).wr = s.wr := rfl
@[simp] theorem afterSrcRead_srcReadTape (s : State) (k : Nat) :
    (afterSrcRead s k).env.srcReadTape = s.env.srcReadTape.tail := rfl
@[simp] theorem afterSrcRead_calls (s : State) (k : Nat) :
    (afterSrcRead s k).env.calls = s.env.calls ++ [.srcRead k (srcReadAnswer s k)] := rfl
@[simp] theorem afterSrcRead_responses (s : State) (k : Nat) :
    (afterSrcRead s k).env.responses = s.env.responses := rfl

@[simp] theorem afterSrcClose_bc (s : State) : (afterSrcClose s).bc = s.bc := rfl
@[simp] theorem afterSrcClose_rd (s : State) : (afterSrcClose s).rd = s.rd := rfl
@[simp] theorem afterSrcClose_wr (s : State) : (afterSrcClose s).wr = s.wr := rfl
@[simp] theorem afterSrcClose_calls (s : State) :
    (afterSrcClose s).env.calls = s.env.calls ++ [.srcClose (srcCloseAnswer s)] := rfl
@[simp] theorem afterSrcClose_responses (s : State) : (afterSrcClose s).env.responses = s.env.responses := rfl

@[simp] theorem afterSinkWrite_bc (s : State) (bs : List Byte) : (afterSinkWrite s bs).bc = s.bc := rfl
@[simp] theorem afterSinkWrite_rd (s : State) (bs : List Byte) : (afterSinkWrite s bs).rd = s.rd := rfl
@[simp] theorem afterSinkWrite_wr (s : State) (bs : List Byte) : (afterSinkWrite s bs).wr = s.wr := rfl
@[simp] theorem afterSinkWrite_sinkWriteTape (s : State) (bs : List Byte) :
    (afterSinkWrite s bs).env.sinkWriteTape = s.env.sinkWriteTape.tail := rfl
@[simp] theorem afterSinkWrite_calls (s : State) (bs : List Byte) :
    (afterSinkWrite s bs).env.calls = s.env.calls ++ [.sinkWrite bs (sinkWriteAnswer s)] := rfl
@[simp] theorem afterSinkWrite_responses (s : State) (bs : List Byte) :
    (afterSinkWrite s bs).env.responses = s.env.responses := rfl

@[simp] theorem afterSinkFlush_bc (s : State) : (afterSinkFlush s).bc = s.bc := rfl
@[simp] theorem afterSinkFlush_rd (s : State) : (afterSinkFlush s).rd = s.rd := rfl
@[simp] theorem afterSinkFlush_wr (s : State) : (afterSinkFlush s).wr = s.wr := rfl
@[simp] theorem afterSinkFlush_calls (s : State) :
    (afterSinkFlush s).env.calls = s.env.calls ++ [.sinkFlush (sinkFlushAnswer s)] := rfl
@[simp] theorem afterSinkFlush_responses (s : State) : (afterSinkFlush s).env.responses = s.env.responses := rfl

@[simp] theorem afterSinkClose_bc (s : State) : (afterSinkClose s).bc = s.bc := rfl
@[simp] theorem afterSinkClose_rd (s : State) : (afterSinkClose s).rd = s.rd := rfl
@[simp] theorem afterSinkClose_wr (s : State) : (afterSinkClose s).wr = s.wr := rfl
@[simp] theorem afterSinkClose_calls (s : State) :
    (afterSinkClose s).env.calls = s.env.calls ++ [.sinkClose (sinkCloseAnswer s)] := rfl
@[simp] theorem afterSinkClose_responses (s : State) : (afterSinkClose s).env.responses = s.env.responses := rfl

/-! ## The writer emptied, the reader moved, the pending bytes handed over -/

@[simp] theorem emptiedWriter_opened (w : Writer) : (emptiedWriter w).opened = w.opened := rfl
@[simp] theorem emptiedWriter_capacity (w : Writer) : (emptiedWriter w).capacity = w.capacity := rfl
@[simp] theorem emptiedWriter_leaveOpen (w : Writer) : (emptiedWriter w).leaveOpen = w.leaveOpen := rfl
@[simp] theorem emptiedWriter_buf (w : Writer) : (emptiedWriter w).buf = w.buf := rfl
@[simp] theorem emptiedWriter_bytePos (w : Writer) : (emptiedWriter w).bytePos = 0 := rfl
@[simp] theorem emptiedWriter_bitPos (w : Writer) : (emptiedWriter w).bitPos = 0 := rfl

@[simp] theorem movedReader_opened (r q : Reader) : (movedReader r q).opened = r.opened := rfl
@[simp] theorem movedReader_capacity (r q : Reader) : (movedReader r q).capacity = r.capacity := rfl
@[simp] theorem movedReader_atEndOfSource (r q : Reader) : (movedReader r q).atEndOfSource = r.atEndOfSource := rfl
@[simp] theorem movedReader_fatal (r q : Reader) : (movedReader r q).fatal = r.fatal := rfl
@[simp] theorem movedReader_cause (r q : Reader) : (movedReader r q).cause = r.cause := rfl
@[simp] theorem movedReader_buf (r q : Reader) : (movedReader r q).buf = q.buf := rfl
@[simp] theorem movedReader_bufferSize (r q : Reader) : (movedReader r q).bufferSize = q.bufferSize := rfl
@[simp] theorem movedReader_bytePos (r q : Reader) : (movedReader r q).bytePos = q.bytePos := rfl
@[simp] theorem movedReader_bitPos (r q : Reader) : (movedReader r q).bitPos = q.bitPos := rfl

@[simp] theorem afterHandOver_bc (s : State) : (afterHandOver s).bc = s.bc := by unfold afterHandOver; split <;> rfl
@[simp] theorem afterHandOver_rd (s : State) : (afterHandOver s).rd = s.rd := by unfold afterHandOver; split <;> rfl
@[simp] theorem afterHandOver_wr (s : State) : (afterHandOver s).wr = s.wr := by unfold afterHandOver; split <;> rfl
@[simp] theorem afterHandOver_inbox (s : State) : (afterHandOver s).env.inbox = s.env.inbox := by
  unfold afterHandOver; split <;> rfl
@[simp] theorem afterHandOver_responses (s : State) : (afterHandOver s).env.responses = s.env.responses := by
  unfold afterHandOver; split <;> rfl

end Sys2Proof.Machine
end

