-- ==== Sys2Proof/Laws/Ops.lean ====
section
/-! SUPPORT. For each shared operation, once, all it can do: the response mechanism, the port calls, the container's field
transfers, the reader's fill and bit step, the writer's flush and bit step; and what each leaves alone. -/

namespace Sys2Proof.Machine

/-! ## Responses -/

theorem answer_eq (x : Response) (s : State) : answer x s = .next (s.respond x) := rfl

theorem raise_eq (status : Status) (s : State) : raise status s = .next (s.respond (failed status)) := rfl

theorem raiseIo_eq (cause : Word64) (s : State) : raiseIo cause s = .next (s.respond (ioFailed cause)) := rfl

theorem statusCode_injective {x y : Status} (h : statusCode x = statusCode y) : x = y := by
  cases x <;> cases y <;> first | rfl | exact absurd h (by decide)

/-- Two joined vectors are equal only part by part. -/
theorem append_parts {v w : Nat} {a b : BitVec v} {c d : BitVec w} (h : a ++ c = b ++ d) : a = b ∧ c = d :=
  ⟨by rw [← BitVec.extractLsb'_append_eq_left (a := a) (b := c), h, BitVec.extractLsb'_append_eq_left],
    by rw [← BitVec.extractLsb'_append_eq_right (a := a) (b := c), h, BitVec.extractLsb'_append_eq_right]⟩

/-- A response frame says everything its response carries (30_encoding.md R92). -/
theorem responseFrame_injective {x y : Response} (h : responseFrame x = responseFrame y) : x = y := by
  unfold responseFrame at h
  obtain ⟨hw, hp⟩ := List.append_inj h (by simp)
  have hv := congrArg leValue hw
  rw [leValue_leBytes, leValue_leBytes, Nat.mod_eq_of_lt (by simpa using (responseWord x).isLt),
    Nat.mod_eq_of_lt (by simpa using (responseWord y).isLt)] at hv
  have hword := BitVec.eq_of_toNat_eq hv
  obtain ⟨xs, xn, xg, xr, xp⟩ := x
  obtain ⟨ys, yn, yg, yr, yp⟩ := y
  simp only [responseWord] at hword hp
  obtain ⟨h4, hs⟩ := append_parts hword
  obtain ⟨h3, hn⟩ := append_parts h4
  obtain ⟨h2, hf⟩ := append_parts h3
  obtain ⟨hr, -⟩ := append_parts h2
  have hg : xg = yg := by rw [← flagByte_bit0 xg, hf, flagByte_bit0]
  rw [statusCode_injective hs, hn, hg, hr, hp]

/-! ## Container -/

theorem bcPut_storage_wf {c : Container} (h : c.storage.wf = true) (v n : Nat) : (bcPut v n c).storage.wf = true :=
  Memory.deposit_wf h _ _ _

theorem bcPutWide_storage_wf {c : Container} (h : c.storage.wf = true) (value : Word128) (n : Nat) :
    (bcPutWide value n c).storage.wf = true := by
  unfold bcPutWide
  dsimp only
  split
  · exact bcPut_storage_wf h _ _
  · exact bcPut_storage_wf (bcPut_storage_wf h _ _) _ _

@[simp] theorem bcPutWide_cursor (c : Container) (value : Word128) (n : Nat) :
    (bcPutWide value n c).cursor = c.cursor + n := by
  unfold bcPutWide
  dsimp only
  split
  · rfl
  · simp only [bcPut]; omega

@[simp] theorem bcPutWide_bitLength (c : Container) (value : Word128) (n : Nat) :
    (bcPutWide value n c).bitLength = max c.bitLength (c.cursor + n) := by
  unfold bcPutWide
  dsimp only
  split
  · rfl
  · simp only [bcPut]; omega

/-- The value of the 64-bit path fits its bit count. -/
theorem bcGet_lt (n : Nat) (c : Container) : bcGet n c < 2 ^ n := Memory.extract_lt _ _ _

/-! ## Reader -/

/-- The state a reader step leaves, if it leaves one. -/
def Pull.leaves {α : Type} : Pull α → State → Prop
  | .got _ t, u => t = u
  | .endOfStream t, u => t = u
  | .ioError _ t, u => t = u
  | .brokenContract, _ => False

/-- All a fill can do (43_reader.md R223). -/
theorem fillBuffer_cases (s : State) :
    (∃ cause, srcReadAnswer s s.rd.capacity = .err cause ∧
      fillBuffer s = .ioError cause
        { afterSrcRead s s.rd.capacity with rd := { s.rd with fatal := true, cause := cause } }) ∨
    (∃ bytes, srcReadAnswer s s.rd.capacity = .ok bytes ∧ s.rd.capacity < bytes.length ∧
      fillBuffer s = .brokenContract) ∨
    (srcReadAnswer s s.rd.capacity = .ok [] ∧
      fillBuffer s = .endOfStream
        { afterSrcRead s s.rd.capacity with rd := { s.rd with atEndOfSource := true } }) ∨
    (∃ b bytes, srcReadAnswer s s.rd.capacity = .ok (b :: bytes) ∧ (b :: bytes).length ≤ s.rd.capacity ∧
      fillBuffer s = .got () { afterSrcRead s s.rd.capacity with rd := loadChunk (b :: bytes) s.rd }) := by
  rcases h : srcReadAnswer s s.rd.capacity with bytes | cause
  · rcases bytes with _ | ⟨b, bytes⟩
    · exact .inr (.inr (.inl ⟨rfl, by simp [fillBuffer, h]⟩))
    · by_cases hlen : s.rd.capacity < (b :: bytes).length
      · exact .inr (.inl ⟨_, rfl, hlen, by
          simp only [fillBuffer, h, hlen, if_true]⟩)
      · exact .inr (.inr (.inr ⟨b, bytes, rfl, by omega, by
          simp only [fillBuffer, h, hlen, if_false, afterSrcRead_rd]; rfl⟩))
  · exact .inl ⟨cause, rfl, by simp [fillBuffer, h]⟩

@[simp] theorem readerAdvance_capacity (r : Reader) : (readerAdvance r).capacity = r.capacity := by
  unfold readerAdvance; split <;> rfl

@[simp] theorem readerAdvance_opened (r : Reader) : (readerAdvance r).opened = r.opened := by
  unfold readerAdvance; split <;> rfl

@[simp] theorem readerAdvance_bufferSize (r : Reader) : (readerAdvance r).bufferSize = r.bufferSize := by
  unfold readerAdvance; split <;> rfl

@[simp] theorem readerAdvance_buf (r : Reader) : (readerAdvance r).buf = r.buf := by
  unfold readerAdvance; split <;> rfl

@[simp] theorem readerAdvance_atEndOfSource (r : Reader) : (readerAdvance r).atEndOfSource = r.atEndOfSource := by
  unfold readerAdvance; split <;> rfl

@[simp] theorem readerAdvance_fatal (r : Reader) : (readerAdvance r).fatal = r.fatal := by
  unfold readerAdvance; split <;> rfl

theorem loadChunk_buf_wf {r : Reader} (h : r.buf.wf = true) (bytes : List Byte) :
    (loadChunk bytes r).buf.wf = true := Memory.writeBytes_wf h _ _

/-- What no reader step touches: the other units, the reader's life cycle, the other ports and what was sent. -/
structure OutsideReader (s t : State) : Prop where
  bc : t.bc = s.bc
  wr : t.wr = s.wr
  opened : t.rd.opened = s.rd.opened
  capacity : t.rd.capacity = s.rd.capacity
  inbox : t.env.inbox = s.env.inbox
  srcCloseTape : t.env.srcCloseTape = s.env.srcCloseTape
  sinkWriteTape : t.env.sinkWriteTape = s.env.sinkWriteTape
  sinkFlushTape : t.env.sinkFlushTape = s.env.sinkFlushTape
  sinkCloseTape : t.env.sinkCloseTape = s.env.sinkCloseTape
  responses : t.env.responses = s.env.responses

theorem OutsideReader.refl (s : State) : OutsideReader s s := ⟨rfl, rfl, rfl, rfl, rfl, rfl, rfl, rfl, rfl, rfl⟩

theorem OutsideReader.trans {s t u : State} (h : OutsideReader s t) (k : OutsideReader t u) : OutsideReader s u :=
  ⟨k.bc.trans h.bc, k.wr.trans h.wr, k.opened.trans h.opened, k.capacity.trans h.capacity, k.inbox.trans h.inbox,
    k.srcCloseTape.trans h.srcCloseTape, k.sinkWriteTape.trans h.sinkWriteTape, k.sinkFlushTape.trans h.sinkFlushTape,
    k.sinkCloseTape.trans h.sinkCloseTape, k.responses.trans h.responses⟩

theorem takeBit_outside (s : State) {u : State} (h : (takeBit s).leaves u) : OutsideReader s u := by
  subst h
  constructor <;> simp

theorem rdBit_outside {s u : State} (h : (rdBit s).leaves u) : OutsideReader s u := by
  unfold rdBit at h
  split at h
  · split at h
    · subst h; exact .refl _
    · rcases fillBuffer_cases s with ⟨c, _, e⟩ | ⟨bs, _, _, e⟩ | ⟨_, e⟩ | ⟨b, bs, _, _, e⟩ <;> rw [e] at h
      · subst h; constructor <;> rfl
      · exact h.elim
      · subst h; constructor <;> rfl
      · refine OutsideReader.trans ?_ (takeBit_outside _ h)
        constructor <;> rfl
  · exact takeBit_outside _ h

/-- Whatever relates a state to the states one bit step can leave, and is reflexive and transitive, relates it to the
states a field read can leave. -/
theorem rdGet_leaves {R : State → State → Prop} (refl : ∀ s, R s s)
    (trans : ∀ {s t u}, R s t → R t u → R s u) (bit : ∀ {s u}, (rdBit s).leaves u → R s u)
    {n : Nat} {s u : State} (h : (rdGet n s).leaves u) : R s u := by
  induction n generalizing s with
  | zero => subst h; exact refl _
  | succ n ih =>
    unfold rdGet at h
    have hb : ∀ {t}, (rdBit s).leaves t → R s t := bit
    rcases e : rdBit s with b | t | ⟨c, t⟩ | _ <;> rw [e] at h hb
    · rename_i t
      refine trans (hb rfl) (ih ?_)
      rcases e' : rdGet n t with v | w | ⟨c, w⟩ | _ <;> simp only [e'] at h <;> exact h
    · exact hb h
    · exact hb h
    · exact h.elim

theorem rdGet_outside {n : Nat} {s u : State} (h : (rdGet n s).leaves u) : OutsideReader s u :=
  rdGet_leaves (R := OutsideReader) .refl .trans rdBit_outside h

theorem rdGetWide_leaves {R : State → State → Prop} (refl : ∀ s, R s s)
    (trans : ∀ {s t u}, R s t → R t u → R s u) (bit : ∀ {s u}, (rdBit s).leaves u → R s u)
    {n : Nat} {s u : State} (h : (rdGetWide n s).leaves u) : R s u := by
  have get : ∀ {n s u}, (rdGet n s).leaves u → R s u := fun h => rdGet_leaves refl trans bit h
  unfold rdGetWide at h
  split at h
  · have hg := @get n s
    rcases e : rdGet n s with v | t | ⟨c, t⟩ | _ <;> rw [e] at h hg <;> exact hg h
  · have hg := @get 64 s
    rcases e : rdGet 64 s with v | t | ⟨c, t⟩ | _ <;> rw [e] at h hg
    · rename_i t
      refine trans (hg rfl) ?_
      have hg' := @get (n - 64) t
      rcases e' : rdGet (n - 64) t with v | t | ⟨c, t⟩ | _ <;> simp only [e'] at h <;> rw [e'] at hg' <;>
        exact hg' h
    · exact hg h
    · exact hg h
    · exact h.elim

theorem rdGetWide_outside {n : Nat} {s u : State} (h : (rdGetWide n s).leaves u) : OutsideReader s u :=
  rdGetWide_leaves (R := OutsideReader) .refl .trans rdBit_outside h

@[simp] theorem movedReader_self (r : Reader) : movedReader r r = r := rfl

theorem movedReader_readerAdvance (r : Reader) : readerAdvance r = movedReader r (readerAdvance r) := by
  unfold readerAdvance; split <;> rfl

/-- How a reader step that starts from `r` may leave the reader: moved, and marked as its end says (60_exceptions.md R289). -/
def Pull.marks {α : Type} (r : Reader) : Pull α → Prop
  | .got _ t => t.rd = movedReader r t.rd
  | .endOfStream t => t.rd = { movedReader r t.rd with atEndOfSource := true }
  | .ioError cause t => t.rd = { movedReader r t.rd with fatal := true, cause := cause }
  | .brokenContract => True

/-- A reader may have moved before a step whose marks are known. -/
theorem Pull.marks_of_moved {α : Type} {r r' : Reader} {p : Pull α} (h : r' = movedReader r r') (k : p.marks r') :
    p.marks r := by
  rcases p with ⟨v, t⟩ | t | ⟨c, t⟩ | _ <;> simp only [Pull.marks] at k ⊢
  all_goals rw [h] at k; exact k

theorem rdBit_marks (s : State) : (rdBit s).marks s.rd := by
  unfold rdBit
  split
  · split
    · next h => show s.rd = { movedReader s.rd s.rd with atEndOfSource := true }; simp [← h]
    · rcases fillBuffer_cases s with ⟨c, _, e⟩ | ⟨bs, _, _, e⟩ | ⟨_, e⟩ | ⟨b, bs, _, _, e⟩ <;> rw [e]
      · rfl
      · trivial
      · rfl
      · refine Pull.marks_of_moved (r' := loadChunk (b :: bs) s.rd) rfl ?_
        show readerAdvance (loadChunk (b :: bs) s.rd) = _
        exact movedReader_readerAdvance _
  · exact movedReader_readerAdvance _

theorem rdGet_marks (n : Nat) (s : State) : (rdGet n s).marks s.rd := by
  induction n generalizing s with
  | zero => rfl
  | succ n ih =>
    have hb := rdBit_marks s
    unfold rdGet
    rcases e : rdBit s with ⟨v, t⟩ | t | ⟨c, t⟩ | _ <;> rw [e] at hb
    · have hg := Pull.marks_of_moved hb (ih t)
      rcases e' : rdGet n t with ⟨v, u⟩ | u | ⟨c, u⟩ | _ <;> simp only [e'] <;> rw [e'] at hg <;> exact hg
    · exact hb
    · exact hb
    · trivial

/-- All a field read of the 128-bit path can do to the reader (43_reader.md R225, R226). -/
theorem rdGetWide_marks (n : Nat) (s : State) : (rdGetWide n s).marks s.rd := by
  unfold rdGetWide
  split
  · have hg := rdGet_marks n s
    rcases e : rdGet n s with ⟨v, t⟩ | t | ⟨c, t⟩ | _ <;> rw [e] at hg <;> exact hg
  · have hg := rdGet_marks 64 s
    rcases e : rdGet 64 s with ⟨v, t⟩ | t | ⟨c, t⟩ | _ <;> rw [e] at hg
    · have hg' := Pull.marks_of_moved hg (rdGet_marks (n - 64) t)
      rcases e' : rdGet (n - 64) t with ⟨v, u⟩ | u | ⟨c, u⟩ | _ <;> simp only [e'] <;> rw [e'] at hg' <;> exact hg'
    · exact hg
    · exact hg
    · trivial

/-- The value of the reader's 64-bit path fits its bit count. -/
theorem rdGet_lt {n v : Nat} {s t : State} (h : rdGet n s = .got v t) : v < 2 ^ n := by
  induction n generalizing s v t with
  | zero => cases h; decide
  | succ n ih =>
    unfold rdGet at h
    rcases e : rdBit s with ⟨b, u⟩ | u | ⟨c, u⟩ | _ <;> simp only [e] at h
    · rcases e' : rdGet n u with ⟨w, u'⟩ | u' | ⟨c, u'⟩ | _ <;> simp only [e'] at h
      · have hw := ih e'
        have hb := Bool.toNat_le b
        injection h with hv _
        subst hv; rw [pow_succ]; omega
      all_goals cases h
    all_goals cases h

/-- The value of the reader's 128-bit path fits its bit count. -/
theorem rdGetWide_lt {n : Nat} {v : Word128} {s t : State} (hn : n ≤ 128) (h : rdGetWide n s = .got v t) :
    v.toNat < 2 ^ n := by
  unfold rdGetWide at h
  split at h
  · rcases e : rdGet n s with ⟨w, u⟩ | u | ⟨c, u⟩ | _ <;> simp only [e] at h
    · injection h with hv _
      subst hv
      exact lt_of_le_of_lt (by simp [Nat.mod_le]) (rdGet_lt e)
    all_goals cases h
  · rcases e : rdGet 64 s with ⟨lo, u⟩ | u | ⟨c, u⟩ | _ <;> simp only [e] at h
    · rcases e' : rdGet (n - 64) u with ⟨hi, u'⟩ | u' | ⟨c, u'⟩ | _ <;> simp only [e'] at h
      · injection h with hv _
        subst hv
        have hhi := rdGet_lt e'
        have hsplit : (2 : Nat) ^ n = 2 ^ 64 * 2 ^ (n - 64) := by rw [← pow_add]; congr 1; omega
        have hle : hi % 2 ^ 64 ≤ hi := Nat.mod_le _ _
        have hlo : lo % 2 ^ 64 < 2 ^ 64 := Nat.mod_lt _ (by decide)
        have hval : (Word128.ofPair (BitVec.ofNat 64 hi) (BitVec.ofNat 64 lo)).toNat
            = 2 ^ 64 * (hi % 2 ^ 64) + lo % 2 ^ 64 := by
          rw [Word128.ofPair, BitVec.toNat_append, BitVec.toNat_ofNat, BitVec.toNat_ofNat, Nat.shiftLeft_eq,
            Nat.mul_comm, ← Nat.two_pow_add_eq_or_of_lt hlo]
        rw [hval, hsplit]
        calc 2 ^ 64 * (hi % 2 ^ 64) + lo % 2 ^ 64 < 2 ^ 64 * (hi % 2 ^ 64 + 1) := by omega
          _ ≤ 2 ^ 64 * 2 ^ (n - 64) := Nat.mul_le_mul_left _ (by omega)
      all_goals cases h
    all_goals cases h

/-- A reader command that has a next state sends one response from a state its field read left. -/
theorem finishPull_next {α : Type} {f : α → Response} {p : Pull α} {u : State} (h : finishPull f p = .next u) :
    ∃ t x, p.leaves t ∧ u = t.respond x := by
  rcases p with v | t | ⟨c, t⟩ | _
  · exact ⟨_, _, rfl, (Host.Outcome.next.inj h).symm⟩
  · exact ⟨_, _, rfl, (Host.Outcome.next.inj h).symm⟩
  · exact ⟨_, _, rfl, (Host.Outcome.next.inj h).symm⟩
  · cases h

/-! ## Writer -/

/-- The state a writer step leaves. -/
def Push.leaves : Push → State
  | .done t => t
  | .ioError _ t => t

/-- All a full buffer's flush can do (44_writer.md R253). -/
theorem flushFull_cases (s : State) :
    (∃ cause, sinkWriteAnswer s = .err cause ∧
      flushFull s = .ioError cause (afterSinkWrite s (s.wr.buf.readBytes 0 s.wr.capacity))) ∨
    (sinkWriteAnswer s = .ok ∧
      flushFull s = .done
        { afterSinkWrite s (s.wr.buf.readBytes 0 s.wr.capacity) with wr := { s.wr with bytePos := 0 } }) := by
  unfold flushFull
  rcases h : sinkWriteAnswer s with _ | cause
  · exact .inr ⟨rfl, rfl⟩
  · exact .inl ⟨cause, rfl, rfl⟩

theorem placeBit_buf_wf {w : Writer} (h : w.buf.wf = true) (b : Bool) : (placeBit b w).buf.wf = true := by
  unfold placeBit
  dsimp only
  split
  · exact Memory.setBitOf_wf (Memory.write_wf h _ _) _ _ _
  · exact Memory.setBitOf_wf h _ _ _

/-- What no writer step touches: the other units, the writer's configuration, the other ports and what was sent. -/
structure OutsideWriter (s t : State) : Prop where
  bc : t.bc = s.bc
  rd : t.rd = s.rd
  opened : t.wr.opened = s.wr.opened
  capacity : t.wr.capacity = s.wr.capacity
  leaveOpen : t.wr.leaveOpen = s.wr.leaveOpen
  inbox : t.env.inbox = s.env.inbox
  srcReadTape : t.env.srcReadTape = s.env.srcReadTape
  srcCloseTape : t.env.srcCloseTape = s.env.srcCloseTape
  responses : t.env.responses = s.env.responses

theorem OutsideWriter.refl (s : State) : OutsideWriter s s := ⟨rfl, rfl, rfl, rfl, rfl, rfl, rfl, rfl, rfl⟩

theorem OutsideWriter.trans {s t u : State} (h : OutsideWriter s t) (k : OutsideWriter t u) : OutsideWriter s u :=
  ⟨k.bc.trans h.bc, k.rd.trans h.rd, k.opened.trans h.opened, k.capacity.trans h.capacity,
    k.leaveOpen.trans h.leaveOpen, k.inbox.trans h.inbox, k.srcReadTape.trans h.srcReadTape,
    k.srcCloseTape.trans h.srcCloseTape, k.responses.trans h.responses⟩

theorem flushFull_outside (s : State) : OutsideWriter s (flushFull s).leaves := by
  rcases flushFull_cases s with ⟨c, _, e⟩ | ⟨_, e⟩ <;> rw [e] <;> constructor <;> rfl

/-- All one bit of a field write can do (44_writer.md R257). -/
theorem wrBit_cases (b : Bool) (s : State) :
    (s.wr.bitPos + 1 = 8 ∧ s.wr.bytePos + 1 = s.wr.capacity ∧
      wrBit b s = flushFull
        { s with wr := { placeBit b s.wr with bitPos := 0, bytePos := s.wr.bytePos + 1 } }) ∨
    (s.wr.bitPos + 1 = 8 ∧ s.wr.bytePos + 1 ≠ s.wr.capacity ∧
      wrBit b s = .done { s with wr := { placeBit b s.wr with bitPos := 0, bytePos := s.wr.bytePos + 1 } }) ∨
    (s.wr.bitPos + 1 ≠ 8 ∧
      wrBit b s = .done { s with wr := { placeBit b s.wr with bitPos := s.wr.bitPos + 1 } }) := by
  by_cases h8 : s.wr.bitPos + 1 = 8
  · by_cases hc : s.wr.bytePos + 1 = s.wr.capacity
    · exact .inl ⟨h8, hc, by simp [wrBit, placeBit, h8, hc]⟩
    · exact .inr (.inl ⟨h8, hc, by simp [wrBit, placeBit, h8, hc]⟩)
  · exact .inr (.inr ⟨h8, by simp [wrBit, placeBit]; omega⟩)

theorem wrBit_outside (b : Bool) (s : State) : OutsideWriter s (wrBit b s).leaves := by
  rcases wrBit_cases b s with ⟨_, _, e⟩ | ⟨_, _, e⟩ | ⟨_, e⟩ <;> rw [e]
  · refine OutsideWriter.trans ?_ (flushFull_outside _)
    constructor <;> rfl
  · constructor <;> rfl
  · constructor <;> rfl

/-- Whatever relates a state to the state one bit step leaves, and is reflexive and transitive, relates it to the state a
run of bits leaves. -/
theorem wrBits_leaves {R : State → State → Prop} (refl : ∀ s, R s s)
    (trans : ∀ {s t u}, R s t → R t u → R s u) (bit : ∀ b s, R s (wrBit b s).leaves) (n v : Nat) (s : State) :
    R s (wrBits n v s).leaves := by
  induction n generalizing v s with
  | zero => exact refl _
  | succ n ih =>
    unfold wrBits
    have hb := bit (v.testBit 0) s
    rcases e : wrBit (v.testBit 0) s with t | ⟨c, t⟩ <;> rw [e] at hb
    · exact trans hb (ih _ _)
    · exact hb

theorem wrSegments_leaves {R : State → State → Prop} (refl : ∀ s, R s s)
    (trans : ∀ {s t u}, R s t → R t u → R s u) (bit : ∀ b s, R s (wrBit b s).leaves)
    (segments : List (Nat × Nat)) (s : State) : R s (wrSegments segments s).leaves := by
  induction segments generalizing s with
  | nil => exact refl _
  | cons x rest ih =>
    obtain ⟨v, n⟩ := x
    unfold wrSegments
    have hb := wrBits_leaves refl trans bit n v s
    rcases e : wrBits n v s with t | ⟨c, t⟩ <;> rw [e] at hb
    · exact trans hb (ih _)
    · exact hb

theorem wrPut_outside (segments : List (Nat × Nat)) (s : State) : OutsideWriter s (wrPut segments s).leaves := by
  have hs := wrSegments_leaves (R := OutsideWriter) .refl .trans wrBit_outside segments s
  unfold wrPut
  rcases e : wrSegments segments s with t | ⟨c, t⟩ <;> rw [e] at hs
  · exact hs
  · exact ⟨hs.bc, hs.rd, hs.opened, hs.capacity, hs.leaveOpen, hs.inbox, hs.srcReadTape, hs.srcCloseTape, hs.responses⟩

/-- A failed field write leaves the buffer and both positions as they were (44_writer.md R257). -/
theorem wrPut_failed {segments : List (Nat × Nat)} {s t : State} {cause : Word64}
    (h : wrPut segments s = .ioError cause t) : t.wr = s.wr := by
  have hs := wrSegments_leaves (R := OutsideWriter) .refl .trans wrBit_outside segments s
  unfold wrPut at h
  rcases e : wrSegments segments s with u | ⟨c, u⟩ <;> rw [e] at h hs
  · cases h
  · cases h
    cases hw : s.wr
    simp_all [Push.leaves]
    exact ⟨hs.opened.trans (by rw [hw]), hs.capacity.trans (by rw [hw]), hs.leaveOpen.trans (by rw [hw])⟩

/-- All the steps of `WR_FLUSH` can do with the pending bytes (44_writer.md R258). -/
theorem flushPending_cases (s : State) :
    (pendingBytes s.wr = 0 ∧ flushPending s = .done s) ∨
    (0 < pendingBytes s.wr ∧ ∃ cause, sinkWriteAnswer s = .err cause ∧
      flushPending s = .ioError cause (afterSinkWrite s (s.wr.buf.readBytes 0 (pendingBytes s.wr)))) ∨
    (0 < pendingBytes s.wr ∧ sinkWriteAnswer s = .ok ∧
      flushPending s = .done
        { afterSinkWrite s (s.wr.buf.readBytes 0 (pendingBytes s.wr)) with
          wr := { s.wr with bytePos := 0, bitPos := 0 } }) := by
  unfold flushPending
  by_cases h : 0 < pendingBytes s.wr
  · rcases e : sinkWriteAnswer s with _ | cause
    · exact .inr (.inr ⟨h, rfl, by simp [h]⟩)
    · exact .inr (.inl ⟨h, cause, rfl, by simp [h]⟩)
  · exact .inl ⟨by omega, by simp [h]⟩

theorem unsentBytes_eq_nil (w : Writer) : unsentBytes w = [] ↔ pendingBytes w = 0 := by
  rw [unsentBytes, ← List.length_eq_zero_iff, Memory.readBytes_length]

theorem emptiedWriter_of_nothing_pending {w : Writer} (h : pendingBytes w = 0) : emptiedWriter w = w := by
  obtain ⟨o, c, l, b, y, i⟩ := w
  simp only [pendingBytes] at h
  have hy : y = 0 := by omega
  have hi : i = 0 := by by_contra hne; rw [if_pos (by omega)] at h; omega
  rw [hy, hi]; rfl

/-- All that handing over the pending bytes can do, as the calls that are made (R258). -/
theorem flushPending_eq (s : State) :
    (∃ cause, unsentBytes s.wr ≠ [] ∧ sinkWriteAnswer s = .err cause ∧
      flushPending s = .ioError cause (afterSinkWrite s (unsentBytes s.wr))) ∨
    ((unsentBytes s.wr = [] ∨ sinkWriteAnswer s = .ok) ∧
      flushPending s = .done { afterHandOver s with wr := emptiedWriter s.wr }) := by
  rcases flushPending_cases s with ⟨h, e⟩ | ⟨h, c, a, e⟩ | ⟨h, a, e⟩
  · have hn := (unsentBytes_eq_nil s.wr).2 h
    refine .inr ⟨.inl hn, ?_⟩
    rw [e, afterHandOver, if_pos hn, emptiedWriter_of_nothing_pending h]
  · exact .inl ⟨c, fun hn => by have := (unsentBytes_eq_nil s.wr).1 hn; omega, a, e⟩
  · have hn : unsentBytes s.wr ≠ [] := fun hn => by have := (unsentBytes_eq_nil s.wr).1 hn; omega
    refine .inr ⟨.inr a, ?_⟩
    rw [e, afterHandOver, if_neg hn]; rfl

theorem afterHandOver_calls {s : State} (h : unsentBytes s.wr = [] ∨ sinkWriteAnswer s = .ok) :
    (afterHandOver s).env.calls = s.env.calls ++ handOverCalls s := by
  unfold afterHandOver handOverCalls
  split
  · simp
  · next hn => rw [afterSinkWrite_calls, h.resolve_left hn]

theorem flushPending_outside (s : State) : OutsideWriter s (flushPending s).leaves := by
  rcases flushPending_cases s with ⟨_, e⟩ | ⟨_, c, _, e⟩ | ⟨_, _, e⟩ <;> rw [e]
  · exact .refl _
  · constructor <;> rfl
  · constructor <;> rfl

theorem flushSteps_outside (s : State) : OutsideWriter s (flushSteps s).leaves := by
  have hp := flushPending_outside s
  unfold flushSteps
  rcases e : flushPending s with t | ⟨c, t⟩ <;> rw [e] at hp
  · refine OutsideWriter.trans hp ?_
    rcases e' : sinkFlushAnswer t with _ | cause <;> simp only [e'] <;> constructor <;> rfl
  · exact hp

end Sys2Proof.Machine
end

