-- ==== Sys2Proof/Laws/PerInstr.lean ====
section
/-! SUPPORT. Facts proved command by command: the fields the encoder writes are read back as the same command, and they
ask for the frame length the encoder makes (30_encoding.md R94 to R96). -/

namespace Sys2Proof.Laws.FieldsRoundTrip

/-- The command word of a well-formed command reads back as that command and requires its length. -/
def Statement (i : Instr) : Prop :=
  i.wellFormed = true →
    instrOfFields (fieldsOfInstr i) (payloadOfInstr i) = some i ∧
      requiredLength (fieldsOfInstr i) = wordBytes + (payloadOfInstr i).length

theorem wAdd (x y : Word128) : Statement (.wAdd x y) := fun _ => ⟨rfl, rfl⟩

theorem wSub (x y : Word128) : Statement (.wSub x y) := fun _ => ⟨rfl, rfl⟩

theorem wAnd (x y : Word128) : Statement (.wAnd x y) := fun _ => ⟨rfl, rfl⟩

theorem wOr (x y : Word128) : Statement (.wOr x y) := fun _ => ⟨rfl, rfl⟩

theorem wXor (x y : Word128) : Statement (.wXor x y) := fun _ => ⟨rfl, rfl⟩

theorem wNot (x : Word128) : Statement (.wNot x) := fun _ => ⟨rfl, rfl⟩

theorem wShl (x : Word128) (amount : BitVec 8) : Statement (.wShl x amount) := fun _ => ⟨rfl, rfl⟩

theorem wShr (x : Word128) (amount : BitVec 8) : Statement (.wShr x amount) := fun _ => ⟨rfl, rfl⟩

theorem wSar (x : Word128) (amount : BitVec 8) : Statement (.wSar x amount) := fun _ => ⟨rfl, rfl⟩

theorem wCmpU (x y : Word128) : Statement (.wCmpU x y) := fun _ => ⟨rfl, rfl⟩

theorem wCmpS (x y : Word128) : Statement (.wCmpS x y) := fun _ => ⟨rfl, rfl⟩

theorem bvNewU (value : Word128) (n : BitVec 8) : Statement (.bvNewU value n) := fun _ => ⟨rfl, rfl⟩

theorem bvNewS (value : Word64) (n : BitVec 8) : Statement (.bvNewS value n) := fun _ => ⟨by simp [instrOfFields, fieldsOfInstr, fieldsNA, low_setWidth], rfl⟩

theorem bvNewS128 (value : Word128) (n : BitVec 8) : Statement (.bvNewS128 value n) := fun _ => ⟨rfl, rfl⟩

theorem bvToU64 (t : Token) : Statement (.bvToU64 t) := fun _ =>
  ⟨by simp only [instrOfFields, fieldsOfInstr, fieldsFNA, firstToken, flagByte_bit0]; rfl, rfl⟩

theorem bvToU128 (t : Token) : Statement (.bvToU128 t) := fun _ =>
  ⟨by simp only [instrOfFields, fieldsOfInstr, fieldsFNA, firstToken, flagByte_bit0]; rfl, rfl⟩

theorem bvToI64 (t : Token) : Statement (.bvToI64 t) := fun _ =>
  ⟨by simp only [instrOfFields, fieldsOfInstr, fieldsFNA, firstToken, flagByte_bit0]; rfl, rfl⟩

theorem bvToI128 (t : Token) : Statement (.bvToI128 t) := fun _ =>
  ⟨by simp only [instrOfFields, fieldsOfInstr, fieldsFNA, firstToken, flagByte_bit0]; rfl, rfl⟩

theorem bvEq (t u : Token) : Statement (.bvEq t u) := fun _ => by
  refine ⟨?_, rfl⟩
  simp only [instrOfFields, fieldsOfInstr, firstToken, secondToken, flagByte_pair_bit0, flagByte_pair_bit1]; rfl

theorem bcClear : Statement (.bcClear) := fun _ => ⟨rfl, rfl⟩

theorem bcLoad (payload : List Byte) : Statement (.bcLoad payload) := fun h => by
  simp only [Instr.wellFormed, decide_eq_true_eq] at h
  refine ⟨rfl, ?_⟩
  have hlow : payloadLength (fieldsOfInstr (.bcLoad payload)) = payload.length := by
    simp [payloadLength, fieldsOfInstr, fieldsNA, Word128.low, BitVec.extractLsb'_toNat]
    omega
  rw [requiredLength, if_pos (show (fieldsOfInstr (.bcLoad payload)).op = 0x21#8 from rfl), hlow]
  rfl

theorem bcWrite (value : Word64) (n : BitVec 8) : Statement (.bcWrite value n) := fun _ => ⟨by simp [instrOfFields, fieldsOfInstr, fieldsNA, low_setWidth], rfl⟩

theorem bcRead (n : BitVec 8) : Statement (.bcRead n) := fun _ => ⟨rfl, rfl⟩

theorem bcWrite128 (value : Word128) (n : BitVec 8) : Statement (.bcWrite128 value n) := fun _ => ⟨rfl, rfl⟩

theorem bcRead128 (n : BitVec 8) : Statement (.bcRead128 n) := fun _ => ⟨rfl, rfl⟩

theorem bcWriteV (t : Token) : Statement (.bcWriteV t) := fun _ =>
  ⟨by simp only [instrOfFields, fieldsOfInstr, fieldsFNA, firstToken, flagByte_bit0]; rfl, rfl⟩

theorem bcReadV (sgn : Bool) (n : BitVec 8) : Statement (.bcReadV sgn n) := fun _ =>
  ⟨by simp only [instrOfFields, fieldsOfInstr, fieldsFNA, flagByte_bit0]; rfl, rfl⟩

theorem bcSeek (position : Word64) : Statement (.bcSeek position) := fun _ => ⟨by simp [instrOfFields, fieldsOfInstr, fieldsNA, low_setWidth], rfl⟩

theorem bcReset : Statement (.bcReset) := fun _ => ⟨rfl, rfl⟩

theorem bcAtEnd : Statement (.bcAtEnd) := fun _ => ⟨rfl, rfl⟩

theorem bcStat : Statement (.bcStat) := fun _ => ⟨rfl, rfl⟩

theorem bcBytes : Statement (.bcBytes) := fun _ => ⟨rfl, rfl⟩

theorem rdOpen (cap : BitVec 32) : Statement (.rdOpen cap) := fun _ => ⟨by simp only [instrOfFields, fieldsOfInstr, fieldsNA, extract32_setWidth]; rfl, rfl⟩

theorem rdRead (n : BitVec 8) : Statement (.rdRead n) := fun _ => ⟨rfl, rfl⟩

theorem rdRead128 (n : BitVec 8) : Statement (.rdRead128 n) := fun _ => ⟨rfl, rfl⟩

theorem rdReadV (sgn : Bool) (n : BitVec 8) : Statement (.rdReadV sgn n) := fun _ =>
  ⟨by simp only [instrOfFields, fieldsOfInstr, fieldsFNA, flagByte_bit0]; rfl, rfl⟩

theorem rdAtEnd : Statement (.rdAtEnd) := fun _ => ⟨rfl, rfl⟩

theorem rdClose : Statement (.rdClose) := fun _ => ⟨rfl, rfl⟩

theorem wrOpen (leave : Bool) (cap : BitVec 32) : Statement (.wrOpen leave cap) := fun _ =>
  ⟨by simp only [instrOfFields, fieldsOfInstr, fieldsFNA, extract32_setWidth, flagByte_bit0]; rfl, rfl⟩

theorem wrWrite (value : Word64) (n : BitVec 8) : Statement (.wrWrite value n) := fun _ => ⟨by simp [instrOfFields, fieldsOfInstr, fieldsNA, low_setWidth], rfl⟩

theorem wrWrite128 (value : Word128) (n : BitVec 8) : Statement (.wrWrite128 value n) := fun _ => ⟨rfl, rfl⟩

theorem wrWriteV (t : Token) : Statement (.wrWriteV t) := fun _ =>
  ⟨by simp only [instrOfFields, fieldsOfInstr, fieldsFNA, firstToken, flagByte_bit0]; rfl, rfl⟩

theorem wrFlush : Statement (.wrFlush) := fun _ => ⟨rfl, rfl⟩

theorem wrClose : Statement (.wrClose) := fun _ => ⟨rfl, rfl⟩

end Sys2Proof.Laws.FieldsRoundTrip
end

