-- ==== Sys2Proof/Tests/Slice0.lean ====
section
/-! SUPPORT. The model's own tests: the refusals of WellFormed, one word written out from 30_encoding.md R91, R95 and R96 for
every command, single steps with the results of 95_test_vectors.md (the section stands beside each group), and, for
every statement with hypotheses, a concrete state and operands that meet them. -/

namespace Sys2Proof.Tests

set_option Elab.async false

open Sys2Proof Sys2Proof.Machine

/-! ## WellFormed (R94) -/

/-- The length of a payload of 2^64 bytes does not fit `a[63:0]`. -/
theorem test_wellFormed_refuses_long_payload : (Instr.bcLoad (List.replicate (2 ^ 64) 0#8)).wellFormed = false := by
  simp only [Instr.wellFormed, List.length_replicate]; decide

theorem test_wellFormed_takes_longest_payload : (Instr.bcLoad (List.replicate (2 ^ 64 - 1) 0#8)).wellFormed = true := by
  simp only [Instr.wellFormed, List.length_replicate]; decide

/-! ## Decoding: words written out field by field, `op n m f`, then `a` and `b` low byte first -/

/-- A 16-byte operand from its low bytes. -/
def wide (low : List Byte) : List Byte := low ++ List.replicate (16 - low.length) 0#8

/-- A 36-byte command word (R91). -/
def word (op n m f : Byte) (a b : List Byte) : List Byte := [op, n, m, f] ++ wide a ++ wide b

/-- `a` of the words below: 0x0123456789ABCDEFFEDCBA9876543210, low byte first. -/
def bytesA : List Byte :=
  [0x10, 0x32, 0x54, 0x76, 0x98, 0xBA, 0xDC, 0xFE, 0xEF, 0xCD, 0xAB, 0x89, 0x67, 0x45, 0x23, 0x01]

/-- `b` of the words below: 0x80000000000000000000000000000007. -/
def bytesB : List Byte := [0x07, 0, 0, 0, 0, 0, 0, 0, 0, 0, 0, 0, 0, 0, 0, 0x80]

/-- The number whose bytes are `bytesA`. -/
abbrev numA : Word128 := 0x0123456789ABCDEFFEDCBA9876543210

/-- The number whose bytes are `bytesB`. -/
abbrev numB : Word128 := 0x80000000000000000000000000000007

/-- Whether a frame decodes to the command. -/
def reads (frame : List Byte) (i : Instr) : Bool := match decode frame with
  | .ok j => j == i
  | .error _ => false

/-! Unit WIA. -/

theorem test_decode_wAdd : reads (word 0x01 0 0 0 bytesA bytesB) (.wAdd numA numB) = true := by decide +kernel
theorem test_decode_wSub : reads (word 0x02 0 0 0 bytesA bytesB) (.wSub numA numB) = true := by decide +kernel
theorem test_decode_wAnd : reads (word 0x03 0 0 0 bytesA bytesB) (.wAnd numA numB) = true := by decide +kernel
theorem test_decode_wOr : reads (word 0x04 0 0 0 bytesA bytesB) (.wOr numA numB) = true := by decide +kernel
theorem test_decode_wXor : reads (word 0x05 0 0 0 bytesA bytesB) (.wXor numA numB) = true := by decide +kernel
/-- Unused fields are ignored (R96). -/
theorem test_decode_wNot : reads (word 0x06 0xFF 0xFF 0xFF bytesA bytesB) (.wNot numA) = true := by decide +kernel
theorem test_decode_wShl : reads (word 0x07 1 0 0 bytesA []) (.wShl numA 1) = true := by decide +kernel
theorem test_decode_wShr : reads (word 0x08 64 0 0 bytesA []) (.wShr numA 64) = true := by decide +kernel
theorem test_decode_wSar : reads (word 0x09 127 0 0 bytesA []) (.wSar numA 127) = true := by decide +kernel
theorem test_decode_wCmpU : reads (word 0x0A 0 0 0 bytesA bytesB) (.wCmpU numA numB) = true := by decide +kernel
theorem test_decode_wCmpS : reads (word 0x0B 0 0 0 bytesA bytesB) (.wCmpS numA numB) = true := by decide +kernel

/-! Unit BVU. -/

theorem test_decode_bvNewU : reads (word 0x10 100 0 0 bytesA []) (.bvNewU numA 100) = true := by decide +kernel
/-- `a[127:64]` is ignored (R96). -/
theorem test_decode_bvNewS : reads (word 0x11 4 0 0 [0xFD, 0xFF, 0xFF, 0xFF, 0xFF, 0xFF, 0xFF, 0xFF, 0x01] []) (.bvNewS 0xFFFFFFFFFFFFFFFD 4) = true := by decide +kernel
theorem test_decode_bvNewS128 : reads (word 0x12 128 0 0 bytesA []) (.bvNewS128 numA 128) = true := by decide +kernel
theorem test_decode_bvToU64 : reads (word 0x13 100 0 1 bytesA []) (.bvToU64 ⟨100, true, numA⟩) = true := by decide +kernel
theorem test_decode_bvToU128 : reads (word 0x14 100 0 0 bytesA []) (.bvToU128 ⟨100, false, numA⟩) = true := by decide +kernel
theorem test_decode_bvToI64 : reads (word 0x15 100 0 1 bytesA []) (.bvToI64 ⟨100, true, numA⟩) = true := by decide +kernel
theorem test_decode_bvToI128 : reads (word 0x16 100 0 0 bytesA []) (.bvToI128 ⟨100, false, numA⟩) = true := by decide +kernel
/-- `f[0]` belongs to the first token, `f[1]` to the second (R96). -/
theorem test_decode_bvEq : reads (word 0x17 8 9 2 bytesA bytesB) (.bvEq ⟨8, false, numA⟩ ⟨9, true, numB⟩) = true := by decide +kernel

/-! Unit BCU. -/

theorem test_decode_bcClear : reads (word 0x20 0 0 0 [] []) (.bcClear) = true := by decide +kernel
/-- The payload follows the word; `a[127:64]` is ignored (R94). -/
theorem test_decode_bcLoad :
    reads (word 0x21 0 0 0 [3, 0, 0, 0, 0, 0, 0, 0, 1] [] ++ [0x5A, 0x00, 0xC3]) (.bcLoad [0x5A, 0x00, 0xC3]) = true := by
  decide +kernel

theorem test_decode_bcWrite : reads (word 0x22 3 0 0 [0x02] []) (.bcWrite 2 3) = true := by decide +kernel
theorem test_decode_bcRead : reads (word 0x23 8 0 0 [] []) (.bcRead 8) = true := by decide +kernel
theorem test_decode_bcWrite128 : reads (word 0x24 120 0 0 bytesA []) (.bcWrite128 numA 120) = true := by decide +kernel
theorem test_decode_bcRead128 : reads (word 0x25 120 0 0 [] []) (.bcRead128 120) = true := by decide +kernel
theorem test_decode_bcWriteV : reads (word 0x26 5 0 1 bytesA []) (.bcWriteV ⟨5, true, numA⟩) = true := by decide +kernel
/-- Only `f[0]` is read (R96). -/
theorem test_decode_bcReadV : reads (word 0x27 5 0 0xFF [] []) (.bcReadV true 5) = true := by decide +kernel
theorem test_decode_bcSeek : reads (word 0x28 0 0 0 [0x23, 0x01] []) (.bcSeek 0x123) = true := by decide +kernel
theorem test_decode_bcReset : reads (word 0x29 0 0 0 [] []) (.bcReset) = true := by decide +kernel
theorem test_decode_bcAtEnd : reads (word 0x2A 0 0 0 [] []) (.bcAtEnd) = true := by decide +kernel
theorem test_decode_bcStat : reads (word 0x2B 0 0 0 [] []) (.bcStat) = true := by decide +kernel
theorem test_decode_bcBytes : reads (word 0x2C 0 0 0 [] []) (.bcBytes) = true := by decide +kernel

/-! Unit BRU. -/

/-- `a[127:32]` is ignored (R96). -/
theorem test_decode_rdOpen : reads (word 0x30 0 0 0 [0x10, 0, 0, 0, 1] []) (.rdOpen 16) = true := by decide +kernel
theorem test_decode_rdRead : reads (word 0x31 12 0 0 [] []) (.rdRead 12) = true := by decide +kernel
theorem test_decode_rdRead128 : reads (word 0x32 70 0 0 [] []) (.rdRead128 70) = true := by decide +kernel
theorem test_decode_rdReadV : reads (word 0x33 4 0 0xFE [] []) (.rdReadV false 4) = true := by decide +kernel
theorem test_decode_rdAtEnd : reads (word 0x34 0 0 0 [] []) (.rdAtEnd) = true := by decide +kernel
theorem test_decode_rdClose : reads (word 0x35 0 0 0 [] []) (.rdClose) = true := by decide +kernel

/-! Unit BWU. -/

theorem test_decode_wrOpen : reads (word 0x40 0 0 1 [0, 0, 0, 0, 1] []) (.wrOpen true 0) = true := by decide +kernel
theorem test_decode_wrWrite : reads (word 0x41 16 0 0 [0xCD, 0xAB] []) (.wrWrite 0xABCD 16) = true := by decide +kernel
theorem test_decode_wrWrite128 : reads (word 0x42 128 0 0 bytesA []) (.wrWrite128 numA 128) = true := by decide +kernel
theorem test_decode_wrWriteV : reads (word 0x43 100 0 1 bytesA []) (.wrWriteV ⟨100, true, numA⟩) = true := by decide +kernel
theorem test_decode_wrFlush : reads (word 0x44 0 0 0 [] []) (.wrFlush) = true := by decide +kernel
theorem test_decode_wrClose : reads (word 0x45 0 0 0 [] []) (.wrClose) = true := by decide +kernel

/-! Illegal frames (R94, R97; 95_test_vectors.md 2.6). -/

/-- Whether a frame is no command. -/
def illegal (frame : List Byte) : Bool := match decode frame with
  | .ok _ => false
  | .error _ => true

theorem test_decode_unassigned :
    ([0x00, 0x0C, 0x0F, 0x18, 0x1F, 0x2D, 0x2F, 0x36, 0x3F, 0x46, 0x80, 0xFF].all
      fun op => illegal (word op 0 0 0 [] [])) = true := by
  decide +kernel

theorem test_decode_wrong_length :
    illegal ((word 0x01 0 0 0 [] []).take 35) = true ∧ illegal (word 0x01 0 0 0 [] [] ++ [0]) = true ∧
      illegal (word 0x21 0 0 0 [2] []) = true ∧ illegal (word 0x21 0 0 0 [4] [] ++ [1, 2, 3]) = true := by
  decide +kernel

/-! Response words, 20 bytes (R92; 95_test_vectors.md 2.6). -/

theorem test_response_value : responseFrame (okValue 0x10000000000000000) = [0, 0, 0, 0, 0, 0, 0, 0, 0, 0, 0, 0, 1, 0, 0, 0, 0, 0, 0, 0] := by
  decide +kernel

theorem test_response_token : responseFrame (okToken ⟨4, true, -3⟩) = [0x00, 0x04, 0x01, 0x00, 0xFD] ++ List.replicate 15 0xFF := by
  decide +kernel

theorem test_response_ioError : responseFrame (ioFailed 0x2A) = [3, 0, 0, 0, 0x2A] ++ List.replicate 15 0 := by
  decide +kernel

theorem test_response_illegal : responseFrame (failed .illegalCommand) = 0xFF :: List.replicate 19 0 := by
  decide +kernel

theorem test_response_payload :
    responseFrame (okPayload 3 [0xA5, 0xF0, 0x0F]) = [0, 0, 0, 0, 3] ++ List.replicate 15 0 ++ [0xA5, 0xF0, 0x0F] := by
  decide +kernel

/-! ## Single steps -/

/-- Whether a command answers with the response, changing nothing else. -/
def answers (i : Instr) (s : State) (x : Response) : Bool := match exec i s with
  | .next t => t == s.respond x
  | _ => false

/-- Whether a command answers with the response and leaves a state of which `p` holds. -/
def leads (i : Instr) (s : State) (x : Response) (p : State → Bool) : Bool := match exec i s with
  | .next t => t.env.responses == s.env.responses ++ [responseFrame x] && p t
  | _ => false

/-- All ones. -/
abbrev maxW : Word128 := 0xFFFFFFFFFFFFFFFFFFFFFFFFFFFFFFFF

/-- The top bit alone. -/
abbrev minW : Word128 := 0x80000000000000000000000000000000

/-! 95_test_vectors.md 2.1. -/

theorem test_wAdd_carries : answers (.wAdd 0xFFFFFFFFFFFFFFFF 1) State.reset (okValue 0x10000000000000000) = true := by decide +kernel
theorem test_wAdd_wraps : answers (.wAdd maxW 1) State.reset (okValue 0) = true := by decide +kernel
theorem test_wSub_borrows : answers (.wSub 0x10000000000000000 1) State.reset (okValue 0xFFFFFFFFFFFFFFFF) = true := by decide +kernel
theorem test_wSub_wraps : answers (.wSub 3 5) State.reset (okValue 0xFFFFFFFFFFFFFFFFFFFFFFFFFFFFFFFE) = true := by decide +kernel
theorem test_wAnd : answers (.wAnd 0xFF00FF00FF00FF00FF00FF00FF00FF00 0x0FF00FF00FF00FF00FF00FF00FF00FF0) State.reset (okValue 0x0F000F000F000F000F000F000F000F00) = true := by decide +kernel
theorem test_wOr : answers (.wOr 0xFF00FF00FF00FF00FF00FF00FF00FF00 0x0FF00FF00FF00FF00FF00FF00FF00FF0) State.reset (okValue 0xFFF0FFF0FFF0FFF0FFF0FFF0FFF0FFF0) = true := by decide +kernel
theorem test_wXor : answers (.wXor 0xFF00FF00FF00FF00FF00FF00FF00FF00 0x0FF00FF00FF00FF00FF00FF00FF00FF0) State.reset (okValue 0xF0F0F0F0F0F0F0F0F0F0F0F0F0F0F0F0) = true := by decide +kernel
theorem test_wNot : answers (.wNot 0x0123456789ABCDEFFEDCBA9876543210) State.reset (okValue 0xFEDCBA98765432100123456789ABCDEF) = true := by decide +kernel
theorem test_wShl_crosses_words : answers (.wShl 0x0123456789ABCDEFFEDCBA9876543210 4) State.reset (okValue 0x123456789ABCDEFFEDCBA98765432100) = true := by decide +kernel
theorem test_wShl_by_128 : answers (.wShl 1 128) State.reset (failed .illegalCommand) = true := by decide +kernel
theorem test_wShr_crosses_words : answers (.wShr 0x0123456789ABCDEFFEDCBA9876543210 4) State.reset (okValue 0x00123456789ABCDEFFEDCBA987654321) = true := by decide +kernel
theorem test_wShr_by_64 : answers (.wShr minW 64) State.reset (okValue 0x8000000000000000) = true := by decide +kernel
theorem test_wSar_floors : answers (.wSar 0xFFFFFFFFFFFFFFFFFFFFFFFFFFFFFFF9 1) State.reset (okValue 0xFFFFFFFFFFFFFFFFFFFFFFFFFFFFFFFC) = true := by decide +kernel
theorem test_wSar_by_64 : answers (.wSar minW 64) State.reset (okValue 0xFFFFFFFFFFFFFFFF8000000000000000) = true := by decide +kernel
theorem test_wCmpU : answers (.wCmpU 0x10000000000000000 0xFFFFFFFFFFFFFFFF) State.reset (okValue 2) = true := by decide +kernel
theorem test_wCmpS : answers (.wCmpS maxW 0) State.reset (okValue 1) = true := by decide +kernel

/-! 95_test_vectors.md 2.2. -/

theorem test_bvNewU_masks : answers (.bvNewU 0x1FF 5) State.reset (okToken ⟨5, false, 0x1F⟩) = true := by decide +kernel
theorem test_bvNewS_keeps_storage_width : answers (.bvNewS 200 5) State.reset (okToken ⟨5, true, 0xFFFFFFFFFFFFFFFFFFFFFFFFFFFFFFC8⟩) = true := by decide +kernel
theorem test_bvNewS_wraps : answers (.bvNewS (-129) 8) State.reset (okToken ⟨8, true, 0x7F⟩) = true := by decide +kernel
theorem test_bvNewS128_cuts : answers (.bvNewS128 0x80000000000000000000000000000080 8) State.reset (okToken ⟨8, true, 0xFFFFFFFFFFFFFFFFFFFFFFFFFFFFFF80⟩) = true := by decide +kernel
theorem test_bvNewS128_keeps_whole : answers (.bvNewS128 0x80000000000000000000000000000005 100) State.reset (okToken ⟨100, true, 0x80000000000000000000000000000005⟩) = true := by decide +kernel
theorem test_bvToU64_negative_wide : answers (.bvToU64 ⟨65, true, maxW⟩) State.reset (failed .invalidConversion) = true := by decide +kernel
theorem test_bvToU64_negative_narrow : answers (.bvToU64 ⟨64, true, maxW⟩) State.reset (okValue 0xFFFFFFFFFFFFFFFF) = true := by decide +kernel
theorem test_bvToU128 : answers (.bvToU128 ⟨16, true, 0xFFFFFFFFFFFFFFFFFFFFFFFFFFFFFFFE⟩) State.reset (okValue 0xFFFFFFFFFFFFFFFFFFFFFFFFFFFFFFFE) = true := by decide +kernel
theorem test_bvToI64_extends : answers (.bvToI64 ⟨64, false, 0x8000000000000000⟩) State.reset (okValue 0xFFFFFFFFFFFFFFFF8000000000000000) = true := by decide +kernel
theorem test_bvToI128 : answers (.bvToI128 ⟨128, false, minW⟩) State.reset (okValue minW) = true := by decide +kernel
theorem test_bvToI128_ill_formed : answers (.bvToI128 ⟨5, true, 0x80⟩) State.reset (failed .illegalCommand) = true := by decide +kernel
theorem test_bvEq_ignores_signedness : answers (.bvEq ⟨8, false, 255⟩ ⟨8, true, maxW⟩) State.reset (okValue 1) = true := by decide +kernel
theorem test_bvEq_compares_storage : answers (.bvEq ⟨5, true, 0xFFFFFFFFFFFFFFFFFFFFFFFFFFFFFFC8⟩ ⟨5, true, 8⟩) State.reset (okValue 0) = true := by decide +kernel

/-! 95_test_vectors.md 1 and 2.3. -/

/-- The bytes as a sparse sequence. -/
def stored (bytes : List Byte) : Memory := Memory.writeBytes [] 0 bytes

/-- A machine whose container holds the bytes. -/
def holding (bytes : List Byte) (cursor bitLength : Nat) : State := State.reset.withContainer ⟨stored bytes, cursor, bitLength⟩

/-- Whether the container is as given. -/
def holds (bytes : List Byte) (cursor bitLength : Nat) (t : State) : Bool := t.bc == ⟨stored bytes, cursor, bitLength⟩

theorem test_bcClear :
    leads (.bcClear) (holding [7, 0xFF] 8 16) (okValue 0) (holds [] 0 0) = true := by decide +kernel

theorem test_bcLoad :
    leads (.bcLoad [0xA5, 0, 0x0F]) (holding [7, 0xFF] 8 16) (okValue 0) (holds [0xA5, 0, 0x0F] 0 24) = true := by decide +kernel

theorem test_bcWrite_grows :
    leads (.bcWrite 0b0110 4) (holding [0x07, 0xFF] 14 16) (okValue 0) (holds [0x07, 0xBF, 0x01] 18 18) = true := by decide +kernel

theorem test_bcRead :
    leads (.bcRead 19) (holding [0x07, 0xBF, 0x05] 0 19) (okValue 0x5BF07) (holds [0x07, 0xBF, 0x05] 19 19) = true := by decide +kernel

theorem test_bcWrite128 :
    leads (.bcWrite128 numA 128) (holding [0x05] 3 3) (okValue 0) (holds [0x85, 0x90, 0xA1, 0xB2, 0xC3, 0xD4, 0xE5, 0xF6, 0x7F, 0x6F, 0x5E, 0x4D, 0x3C, 0x2B, 0x1A, 0x09] 131 131) = true := by decide +kernel

theorem test_bcRead128 :
    leads (.bcRead128 120) (holding bytesA 0 120) (okValue 0x23456789ABCDEFFEDCBA9876543210) (holds bytesA 120 120) = true := by decide +kernel

theorem test_bcWriteV :
    leads (.bcWriteV ⟨5, true, 0xFFFFFFFFFFFFFFFFFFFFFFFFFFFFFFC8⟩) (holding [0x0D] 4 4) (okValue 0) (holds [0x8D, 0x00] 9 9) = true := by decide +kernel

theorem test_bcReadV_signed :
    leads (.bcReadV true 4) (holding [0x8D] 0 8) (okToken ⟨4, true, -3⟩) (holds [0x8D] 4 8) = true := by decide +kernel

theorem test_bcReadV_unsigned :
    leads (.bcReadV false 4) (holding [0x8D] 0 8) (okToken ⟨4, false, 0xD⟩) (holds [0x8D] 4 8) = true := by decide +kernel

theorem test_bcSeek :
    leads (.bcSeek 8) (holding [0x5A] 4 8) (okValue 0) (holds [0x5A] 8 8) = true := by decide +kernel

theorem test_bcRead_at_end : answers (.bcRead 5) (holding [0x5A] 4 8) (failed .endOfStream) = true := by decide +kernel
theorem test_bcSeek_beyond : answers (.bcSeek 9) (holding [0x5A] 4 8) (failed .endOfStream) = true := by decide +kernel
theorem test_bcWrite_past_maxBits : answers (.bcWrite 0 4) (holding [] (2 ^ 64 - 4) (2 ^ 64 - 4)) (failed .illegalCommand) = true := by decide +kernel

theorem test_bcReset :
    leads (.bcReset) (holding [0x5A] 4 8) (okValue 0) (holds [0x5A] 0 8) = true := by decide +kernel

theorem test_bcAtEnd : answers (.bcAtEnd) (holding [0x5A] 8 8) (okValue 1) = true := by decide +kernel
theorem test_bcStat : answers (.bcStat) (holding bytesA 4 131) (okValue 0x830000000000000004) = true := by decide +kernel
theorem test_bcBytes : answers (.bcBytes) (holding [0x07, 0xBF, 0x05] 7 19) (okPayload 3 [0x07, 0xBF, 0x05]) = true := by decide +kernel

/-! 95_test_vectors.md 2.4. -/

/-- A machine with a reader and the source's next answers. -/
def reading (r : Reader) (tape : List ReadAnswer) : State :=
  { State.reset with rd := r, env := { idleEnv with srcReadTape := tape } }

/-- An open reader of capacity 16. -/
def reader (bytes : List Byte) (bytePos bitPos : Nat) (atEnd : Bool) : Reader :=
  ⟨true, 16, stored bytes, bytes.length, bytePos, bitPos, atEnd, false, 0⟩

/-- Whether size and cursor of the buffer, and how many source calls have been made, are as given. -/
def readerAt (size bytePos bitPos calls : Nat) (t : State) : Bool :=
  t.rd.bufferSize == size && t.rd.bytePos == bytePos && t.rd.bitPos == bitPos && t.env.calls.length == calls

theorem test_rdOpen :
    leads (.rdOpen 0) (reading closedReader []) (okValue 0) (fun t => t.rd == ⟨true, 4096, [], 0, 0, 0, false, false, 0⟩) = true := by decide +kernel

theorem test_rdOpen_small : answers (.rdOpen 15) State.reset (failed .illegalCommand) = true := by decide +kernel

theorem test_rdRead_fills :
    leads (.rdRead 12) (reading (reader [] 0 0 false) [.ok [0xA5, 0xF0]]) (okValue 0x0A5) (readerAt 2 1 4 1) = true := by decide +kernel

theorem test_rdRead_end_consumes :
    leads (.rdRead 8) (reading (reader [0x3C, 0x81] 1 4 false) [.ok []]) (failed .endOfStream) (fun t => readerAt 2 2 0 1 t && t.rd.atEndOfSource) = true := by decide +kernel

theorem test_rdRead128_spans_fills :
    leads (.rdRead128 20) (reading (reader [0xA5, 0xF0] 1 4 false) [.ok [0x0F], .ok [0x3C, 0x81]]) (okValue 0x3C0FF) (readerAt 2 1 0 2) = true := by decide +kernel

theorem test_rdRead128_source_fails :
    leads (.rdRead128 70) (reading (reader [0x07, 0xFF] 0 3 false) [.err 0x2A]) (ioFailed 0x2A) (fun t => readerAt 2 2 0 1 t && t.rd.fatal && t.rd.cause == 0x2A) = true := by decide +kernel

theorem test_rdReadV :
    leads (.rdReadV true 4) (reading (reader [0x3C, 0x81] 1 0 false) []) (okToken ⟨4, true, 1⟩) (readerAt 2 1 4 0) = true := by decide +kernel

theorem test_rdAtEnd : answers (.rdAtEnd) (reading (reader [0xFF] 1 0 false) []) (okValue 0) = true := by decide +kernel

/-- A machine with a reader and the source's answer to a close. -/
def closing (r : Reader) (a : PortAnswer) : State :=
  { State.reset with rd := r, env := { idleEnv with srcCloseTape := [a] } }

theorem test_rdClose :
    leads (.rdClose) (closing (reader [] 0 0 false) .ok) (okValue 0) (fun t => !t.rd.opened && t.env.calls == [.srcClose .ok]) = true := by decide +kernel

theorem test_rdClose_fails :
    leads (.rdClose) (closing (reader [] 0 0 false) (.err 7)) (ioFailed 7) (fun t => t.rd.opened && t.env.calls == [.srcClose (.err 7)]) = true := by decide +kernel

/-! 95_test_vectors.md 2.5. -/

/-- A machine with a writer and the sink's next answers to a write, a flush and a close. -/
def writing (w : Writer) (ws fs cs : List PortAnswer) : State :=
  { State.reset with wr := w, env := { idleEnv with sinkWriteTape := ws, sinkFlushTape := fs, sinkCloseTape := cs } }

/-- An open writer of capacity 16. -/
def writer (bytes : List Byte) (bytePos bitPos : Nat) : Writer := ⟨true, 16, false, stored bytes, bytePos, bitPos⟩

/-- Whether cursor and pending bytes of the buffer, and the calls made, are as given. -/
def writerAt (bytePos bitPos : Nat) (bytes : List Byte) (calls : List PortCall) (t : State) : Bool :=
  t.wr.bytePos == bytePos && t.wr.bitPos == bitPos && unsentBytes t.wr == bytes && t.env.calls == calls

theorem test_wrOpen :
    leads (.wrOpen true 16) (State.reset) (okValue 0) (fun t => t.wr == ⟨true, 16, true, [], 0, 0⟩) = true := by decide +kernel

theorem test_wrOpen_again : answers (.wrOpen true 16) (writing (writer [] 0 0) [] [] []) (failed .illegalCommand) = true := by decide +kernel

theorem test_wrWrite_starts_clean_byte :
    leads (.wrWrite 0b101 3) (writing (writer [0xFF] 0 0) [] [] []) (okValue 0) (writerAt 0 3 [0x05] []) = true := by decide +kernel

/-- The low 15 bytes of `bytesA`. -/
abbrev fifteen : List Byte := [0x10, 0x32, 0x54, 0x76, 0x98, 0xBA, 0xDC, 0xFE, 0xEF, 0xCD, 0xAB, 0x89, 0x67, 0x45, 0x23]

theorem test_wrWrite_undone :
    leads (.wrWrite 0xABCD 16) (writing (writer fifteen 15 0) [.err 0x1C] [] []) (ioFailed 0x1C) (writerAt 15 0 fifteen [.sinkWrite (fifteen ++ [0xCD]) (.err 0x1C)]) = true := by decide +kernel

theorem test_wrWrite128_flushes_inside :
    leads (.wrWrite128 maxW 128) (writing (writer [0x01] 0 1) [.ok] [] []) (okValue 0) (writerAt 0 1 [0x01] [.sinkWrite (List.replicate 16 0xFF) .ok]) = true := by decide +kernel

theorem test_wrWriteV :
    leads (.wrWriteV ⟨4, true, 0x0D⟩) (writing (writer [0x0D] 0 4) [] [] []) (okValue 0) (writerAt 1 0 [0xDD] []) = true := by decide +kernel

theorem test_wrFlush :
    leads (.wrFlush) (writing (writer [0x05] 0 3) [.ok] [.ok] []) (okValue 0) (writerAt 0 0 [] [.sinkWrite [0x05] .ok, .sinkFlush .ok]) = true := by decide +kernel

theorem test_wrFlush_sink_flush_fails :
    leads (.wrFlush) (writing (writer [0xAB] 1 0) [.ok] [.err 0x1D] []) (ioFailed 0x1D) (writerAt 0 0 [] [.sinkWrite [0xAB] .ok, .sinkFlush (.err 0x1D)]) = true := by decide +kernel

theorem test_wrClose :
    leads (.wrClose) (writing (writer [0xDD] 1 0) [.ok] [.ok] [.ok]) (okValue 0) (fun t => !t.wr.opened && writerAt 0 0 [] [.sinkWrite [0xDD] .ok, .sinkFlush .ok, .sinkClose .ok] t) = true := by decide +kernel

theorem test_wrClose_fails :
    leads (.wrClose) (writing (writer [0x03] 0 2) [.ok] [.ok] [.err 0x1E]) (ioFailed 0x1E) (fun t => t.wr.opened && writerAt 0 0 [] [.sinkWrite [0x03] .ok, .sinkFlush .ok, .sinkClose (.err 0x1E)] t) = true := by decide +kernel

/-! The step (30_encoding.md R90, 70_reset_and_hazards.md R310). -/

/-- `RD_OPEN` with capacity 16 as the first command after reset. -/
theorem test_step_first_command :
    (match step (State.reset.withFetchWord 288 (0x30 + 16 * 2 ^ 32)) with
      | .next t => t.rd.opened && t.rd.capacity == 16 && t.env.inbox == []
      | _ => false) = true := by
  decide +kernel

theorem test_decodeTableWord : decodeTableWord 32 0x7F0C = none ∧ decodeTableWord 32 0x7F09 = some (.wSar 0 0x7F) := by
  decide +kernel

/-! ## Witnesses: for each statement with hypotheses, a state and operands that meet them together; for a statement of
several clauses, a boundary case of each. -/

/-- A container with 5 valid bits meets its invariant. -/
theorem fiveBits_ok : containerOk ⟨stored [0x15], 2, 5⟩ := by
  refine ⟨by decide, by decide, by decide, fun p hp => ?_⟩
  have low : ∀ i, i < 8 → 5 ≤ i → Memory.getBit (stored [0x15]) i = false := by decide
  by_cases h : p < 8
  · exact low p h hp
  · have : p / 8 ≠ 0 := by omega
    have shape : stored [0x15] = [(0, 0x15#8)] := by decide
    show Memory.getBit (stored [0x15]) p = false
    rw [shape]
    simp [Memory.getBit, Memory.read, Memory.blank, Ne.symm this]

/-- A reader in the middle of a byte meets its invariant. -/
theorem midReader_ok : readerOk (reader [0xA5, 0xF0] 1 4 false) := by unfold readerOk capacityOk; decide

/-- A writer in the middle of a byte meets its invariant. -/
theorem midWriter_ok : writerOk (writer [0x07, 0x05] 1 3) := by unfold writerOk capacityOk; decide

/-- A machine in the middle of a byte everywhere, with a frame presented. -/
def busy (frame : List Byte) : State where
  bc := ⟨stored [0x15], 2, 5⟩
  rd := reader [0xA5, 0xF0] 1 4 false
  wr := writer [0x07, 0x05] 1 3
  env := { idleEnv with
    inbox := [.frame frame, .reset], srcReadTape := [.ok [0x0F], .ok [0x3C, 0x81], .ok []], srcCloseTape := [.ok],
    sinkWriteTape := [.ok], sinkFlushTape := [.ok], sinkCloseTape := [.ok] }

theorem busy_ok (frame : List Byte) : Inv (busy frame) := ⟨fiveBits_ok, midReader_ok, midWriter_ok⟩

/-- Whether an outcome is a next state. -/
def goesOn (r : Result) : Bool := match r with
  | .next _ => true
  | _ => false

theorem goesOn_next {r : Result} (h : goesOn r = true) : ∃ t, r = .next t := by
  cases r with
  | next t => exact ⟨t, rfl⟩
  | fault f => exact absurd h (by simp [goesOn])
  | refused f => exact absurd h (by simp [goesOn])

theorem reads_ok {frame : List Byte} {i : Instr} (h : reads frame i = true) : decode frame = .ok i := by
  unfold reads at h
  split at h
  · next j hj => rw [hj]; simp at h; rw [h]
  · exact absurd h (by simp)

theorem witness_DecodeOfEncodeIsTheCommand : (Instr.bcLoad [0x5A, 0x00]).wellFormed = true := by decide

theorem witness_DecodedFrameCarriesTheCommand : decode (word 0x27 5 0 1 [] []) = .ok (.bcReadV true 5) :=
  reads_ok (by decide +kernel)

theorem witness_StepRunsTheDecodedCommand :
    (busy (word 0x31 20 0 0 [] [])).env.inbox = .frame (word 0x31 20 0 0 [] []) :: [.reset] ∧
      decode (word 0x31 20 0 0 [] []) = .ok (.rdRead 20) :=
  ⟨rfl, reads_ok (by decide +kernel)⟩

/-- Each clause: a length one off, a payload one byte short, and both ends of every gap of the opcode map. -/
theorem witness_IllegalFrameIsRejectedWhole :
    (busy []).env.inbox = .frame [] :: [.reset] ∧
    ((word 0x2C 0 0 0 [] [] ++ [0]).length ≠ 36 ∧ leValue (word 0x2C 0 0 0 [] [] ++ [0]) % 256 = 0x2C) ∧
    ((word 0x21 0 0 0 [2] [] ++ [7]).length ≠ 36 + leValue (word 0x21 0 0 0 [2] [] ++ [7]) / 2 ^ 32 % 2 ^ 64 ∧
      leValue (word 0x21 0 0 0 [2] [] ++ [7]) % 256 = 0x21) ∧
    ([0x00, 0x0C, 0x0F, 0x18, 0x1F, 0x2D, 0x2F, 0x36, 0x3F, 0x46, 0xFF].all
      fun op => leValue (word op 0 0 0 [] []) % 256 == op.toNat) = true := by
  decide +kernel

theorem witness_IdleHoldsAndResetEmpties :
    State.reset.env.inbox = [] ∧
      ({ busy [] with env := { (busy []).env with inbox := [.reset] } } : State).env.inbox = .reset :: [] := by
  decide

theorem witness_StepKeepsTheUnitInvariants : ∃ t, Inv (busy (word 0x31 20 0 0 [] [])) ∧
    step (busy (word 0x31 20 0 0 [] [])) = .next t := by
  obtain ⟨t, ht⟩ := goesOn_next (r := step (busy (word 0x31 20 0 0 [] []))) (by decide +kernel)
  exact ⟨t, busy_ok _, ht⟩

theorem busy_keeps (frame : List Byte) : sourceKeepsContract (busy frame) := by
  simp [sourceKeepsContract, busy, keepsContract, reader]

/-- The second clause: a source that answers 17 bytes to a request for 16. -/
theorem witness_OnlyABrokenSourceStopsTheBlock :
    sourceKeepsContract (busy []) ∧
    exec (.rdRead 8) (reading (reader [] 0 0 false) [.ok (List.replicate 17 0xFF)]) = .refused .sourceBrokeContract :=
  ⟨busy_keeps [], by rfl⟩

theorem witness_FailuresChangeOnlyWhatIsListed : ∃ t, exec (.rdRead 29) (busy []) = .next t ∧
    t.env.responses = [responseFrame (failed .endOfStream)] := by
  have h : leads (.rdRead 29) (busy []) (failed .endOfStream) (fun _ => true) = true := by decide +kernel
  unfold leads at h
  split at h
  · next t ht => exact ⟨t, ht, by simpa [busy, idleEnv] using h⟩
  · exact absurd h (by simp)

/-- One command of each unit goes on. -/
theorem witness_UnitsDoNotTouchEachOther :
    (∃ t, exec (.wAdd 1 2) (busy []) = .next t) ∧ (∃ t, exec (.bcWrite 1 2) (busy []) = .next t) ∧
    (∃ t, exec (.rdRead 28) (busy []) = .next t) ∧ ∃ t, exec (.wrWrite 5 3) (busy []) = .next t :=
  ⟨goesOn_next (by decide +kernel), goesOn_next (by decide +kernel), goesOn_next (by decide +kernel),
    goesOn_next (by decide +kernel)⟩

/-- The two clauses of `WideShiftLeftMultiplies`, `WideShiftRightDivides` and `WideArithmeticShiftFloors`. -/
theorem witness_shifts : (127#8).toNat < 128 ∧ 128 ≤ (128#8).toNat := by decide

/-- The two clauses of `NewUnsignedMasksToWidth`. -/
theorem witness_NewUnsignedMasksToWidth :
    (1 ≤ (128#8).toNat ∧ (128#8).toNat ≤ 128) ∧ (0#8).toNat = 0 ∧ 128 < (129#8).toNat := by decide

/-- The two clauses of `NewSignedCutsToStorage`. -/
theorem witness_NewSignedCutsToStorage :
    (1 ≤ (64#8).toNat ∧ (64#8).toNat ≤ 64) ∧ (0#8).toNat = 0 ∧ 64 < (65#8).toNat := by decide

/-- The three clauses of `NewSignedWideCutsToStorage`. -/
theorem witness_NewSignedWideCutsToStorage :
    (1 ≤ (65#8).toNat ∧ (65#8).toNat ≤ 128) ∧ 128 < (129#8).toNat ∧ (64#8).toNat ≤ 64 := by decide

/-- Tokens at the ends of their range, in both forms, and just outside it. -/
theorem witness_TokenFitsItsWidth :
    tokenWellFormed ⟨5, false, 31⟩ = true ∧ tokenWellFormed ⟨5, false, 32⟩ = false ∧
    tokenWellFormed ⟨5, true, 127⟩ = true ∧ tokenWellFormed ⟨5, true, 128⟩ = false ∧
    tokenWellFormed ⟨5, true, -128⟩ = true ∧ tokenWellFormed ⟨0, false, 0⟩ = false ∧
    tokenWellFormed ⟨129, false, 0⟩ = false := by
  decide +kernel

/-- Each of the five commands answers a token, `RD_READV` through two fills. -/
theorem witness_TokensMadeAreWellFormed :
    (tokenAsked (.bvNewU 0x1FF 5) = some (false, 5) ∧ answers (.bvNewU 0x1FF 5) (busy []) (okToken ⟨5, false, 0x1F⟩) = true) ∧
    (tokenAsked (.bvNewS 200 5) = some (true, 5) ∧ answers (.bvNewS 200 5) (busy []) (okToken ⟨5, true, -56⟩) = true) ∧
    (tokenAsked (.bvNewS128 maxW 128) = some (true, 128) ∧
      answers (.bvNewS128 maxW 128) (busy []) (okToken ⟨128, true, maxW⟩) = true) ∧
    (tokenAsked (.bcReadV true 3) = some (true, 3) ∧
      leads (.bcReadV true 3) (busy []) (okToken ⟨3, true, -3⟩) (fun _ => true) = true) ∧
    (tokenAsked (.rdReadV false 20) = some (false, 20) ∧
      leads (.rdReadV false 20) (busy []) (okToken ⟨20, false, 0x3C0FF⟩) (fun _ => true) = true) := by
  decide +kernel

theorem witness_IllFormedTokenIsRefused : tokenWellFormed ⟨5, false, 32⟩ = false := by decide +kernel

/-- A negative wide token, one that converts, and one that is ill-formed. -/
theorem witness_ToUnsignedWordTruncates :
    (tokenWellFormed ⟨65, true, maxW⟩ = true ∧ (65 : Nat) ≤ (65#8).toNat ∧ maxW.toInt < 0) ∧
      tokenWellFormed ⟨64, true, maxW⟩ = true ∧ tokenWellFormed ⟨64, true, minW⟩ = false := by
  decide +kernel

theorem witness_OtherConversionsReinterpretOrTruncate :
    tokenWellFormed ⟨100, true, numB⟩ = true ∧ tokenWellFormed ⟨129, false, 0⟩ = false := by
  decide +kernel

/-- A pair with the same eight stored bits, a pair of different widths, and an ill-formed token. -/
theorem witness_EqualityComparesStoredBits :
    tokenWellFormed ⟨8, false, 255⟩ = true ∧ tokenWellFormed ⟨8, true, maxW⟩ = true ∧
      (∀ i, i < 8 → (255 : Word128).getLsbD i = maxW.getLsbD i) ∧
      tokenWellFormed ⟨5, false, 3⟩ = true ∧ tokenWellFormed ⟨6, false, 3⟩ = true ∧ ¬ ((5#8) = (6#8)) ∧
      tokenWellFormed ⟨5, false, 32⟩ = false := by
  decide +kernel

/-- A count just above the limit with the reader open, and the response it gets. -/
theorem witness_BadBitCountsAreRefused :
    (bitCount (.rdRead 65) = some (65, 64) ∧ 64 < (65#8).toNat ∧ unitReady (.rdRead 65) (busy []) = true) ∧
      answers (.rdRead 65) (busy []) (failed .invalidBitCount) = true ∧ (failed .invalidBitCount).status = .invalidBitCount := by
  decide +kernel

/-- Both clauses: the longest payload that fits, and the shortest that does not. -/
theorem witness_LoadHoldsThePayload :
    8 * (List.replicate (2 ^ 61 - 1) (0xFF#8)).length ≤ 2 ^ 64 - 1 ∧
      2 ^ 64 - 1 < 8 * (List.replicate (2 ^ 61) (0xFF#8)).length := by
  simp only [List.length_replicate]; decide

/-- A cursor close to the position bound: a field of 3 bits fits exactly, one of 4 does not. -/
theorem witness_container_writes :
    (holding [0xFF] (2 ^ 64 - 4) (2 ^ 64 - 4)).bc.storage.wf = true ∧ 1 ≤ (3#8).toNat ∧ (3#8).toNat ≤ 64 ∧
      (holding [0xFF] (2 ^ 64 - 4) (2 ^ 64 - 4)).bc.cursor + (3#8).toNat ≤ 2 ^ 64 - 1 ∧
      2 ^ 64 - 1 < (holding [0xFF] (2 ^ 64 - 4) (2 ^ 64 - 4)).bc.cursor + (4#8).toNat := by
  decide +kernel

/-- `TokenWriteReplacesTheField` in the same two places. -/
theorem witness_TokenWriteReplacesTheField :
    tokenWellFormed ⟨3, true, -4⟩ = true ∧ tokenWellFormed ⟨4, true, -128⟩ = true ∧
      (holding [0xFF] (2 ^ 64 - 4) (2 ^ 64 - 4)).bc.cursor + (3#8).toNat ≤ 2 ^ 64 - 1 ∧
      2 ^ 64 - 1 < (holding [0xFF] (2 ^ 64 - 4) (2 ^ 64 - 4)).bc.cursor + (4#8).toNat := by
  decide +kernel

/-- Reads of exactly the bits that remain, and of one more, in the narrow and in the wide range. -/
theorem witness_container_reads :
    (1 ≤ (4#8).toNat ∧ (4#8).toNat ≤ 64 ∧ (holding [0x5A] 4 8).bc.cursor + (4#8).toNat ≤ (holding [0x5A] 4 8).bc.bitLength ∧
      (holding [0x5A] 4 8).bc.bitLength < (holding [0x5A] 4 8).bc.cursor + (5#8).toNat) ∧
    ((127#8).toNat ≤ 128 ∧ (holding bytesA 1 128).bc.cursor + (127#8).toNat ≤ (holding bytesA 1 128).bc.bitLength ∧
      (holding bytesA 1 128).bc.bitLength < (holding bytesA 1 128).bc.cursor + (128#8).toNat) := by
  decide +kernel

theorem witness_SeekAndResetMoveTheCursor :
    (8#64).toNat ≤ (holding [0x5A] 4 8).bc.bitLength ∧ (holding [0x5A] 4 8).bc.bitLength < (9#64).toNat := by decide

theorem witness_ContainerQueriesAnswerItsFields : containerOk (busy []).bc := fiveBits_ok

theorem witness_WriteSeekReadRoundTrips :
    (busy []).bc.storage.wf = true ∧ (1 ≤ (64#8).toNat ∧ (64#8).toNat ≤ 64) ∧ (1 ≤ (128#8).toNat ∧ (128#8).toNat ≤ 128) ∧
      (busy []).bc.cursor + (128#8).toNat ≤ 2 ^ 64 - 1 := by
  decide +kernel

theorem witness_SplitFieldsPackAlike :
    (busy []).bc.storage.wf = true ∧ 1 ≤ (64#8).toNat ∧ (64#8).toNat ≤ 64 ∧ 1 ≤ (56#8).toNat ∧ (56#8).toNat ≤ 64 ∧
      (120#8).toNat = (64#8).toNat + (56#8).toNat ∧ (busy []).bc.cursor + (120#8).toNat ≤ 2 ^ 64 - 1 := by
  decide +kernel

theorem witness_WindowFormOfExtractAndDeposit : (stored bytesA).wf = true ∧ 128 ≤ 128 := by decide +kernel

/-- Both clauses, each capacity at its bound and the default one. -/
theorem witness_ReaderOpensEmpty :
    (State.reset.rd.opened = false ∧ 16 ≤ (16#32).toNat ∧ (0#32).toNat = 0) ∧
      (busy []).rd.opened = true ∧ (15#32).toNat < 16 := by
  decide

/-- A read of every bit the reader can hand out. -/
theorem witness_ReaderReadsItsStream :
    readerOk (busy []).rd ∧ (busy []).rd.opened = true ∧ (busy []).rd.fatal = false ∧ sourceKeepsContract (busy []) ∧
      readAccepted (.narrow 28) = true ∧ readWidth (.narrow 28) ≤ readerBitsLeft (busy []) :=
  ⟨midReader_ok, rfl, rfl, busy_keeps [], by decide, by decide +kernel⟩

theorem endedReader_ok : readerOk (reader [0xA5] 1 0 true) := by unfold readerOk capacityOk; decide

/-- A reader at the end, and a read of one bit more than the source has. -/
theorem witness_ReaderMeetsTheEndOfItsSource :
    (readerOk (reader [0xA5] 1 0 true) ∧ (reader [0xA5] 1 0 true).fatal = false ∧
      sourceKeepsContract (reading (reader [0xA5] 1 0 true) [])) ∧
    (readerOk (busy []).rd ∧ sourceKeepsContract (busy []) ∧ (busy []).rd.atEndOfSource = false ∧
      tapeStop (busy []).env.srcReadTape = some (.ok []) ∧ readAccepted (.tagged true 29) = true ∧
      readerBitsLeft (busy []) < readWidth (.tagged true 29)) :=
  ⟨⟨endedReader_ok, rfl, by simp [sourceKeepsContract, reading]⟩,
    midReader_ok, busy_keeps [], rfl, rfl, by decide, by decide +kernel⟩

theorem failingReader_ok : readerOk (reader [0x07, 0xFF] 0 3 false) := by unfold readerOk capacityOk; decide

/-- A fatal reader, and a fill that fails one bit too early. -/
theorem witness_ReaderFailureIsFatalAndSticky :
    (({ reader [0x07] 1 0 false with fatal := true, cause := 9 } : Reader).opened = true ∧ readAccepted (.narrow 1) = true) ∧
    (readerOk (reader [0x07, 0xFF] 0 3 false) ∧
      sourceKeepsContract (reading (reader [0x07, 0xFF] 0 3 false) [.err 0x2A]) ∧
      tapeStop (reading (reader [0x07, 0xFF] 0 3 false) [.err 0x2A]).env.srcReadTape = some (.err 0x2A) ∧
      readAccepted (.wide 14) = true ∧
      readerBitsLeft (reading (reader [0x07, 0xFF] 0 3 false) [.err 0x2A]) < readWidth (.wide 14)) :=
  ⟨⟨rfl, by decide⟩, failingReader_ok, by simp [sourceKeepsContract, reading, keepsContract], rfl, by decide,
    by decide +kernel⟩

theorem witness_ReadsMakeFewSourceCalls : ∃ t, exec (readerRead (.narrow 28)) (busy []) = .next t :=
  goesOn_next (by decide +kernel)

/-- A reader that is not open, a close the source accepts, one it does not, and an open reader with an empty tape. -/
theorem witness_ReaderQueryAndClose :
    State.reset.rd.opened = false ∧ ((busy []).rd.opened = true ∧ srcCloseAnswer (busy []) = .ok) ∧
      ((closing (reader [] 0 0 false) (.err 7)).rd.opened = true ∧
        srcCloseAnswer (closing (reader [] 0 0 false) (.err 7)) = .err 7) ∧
      ((reading (reader [] 0 0 false) []).rd.opened = true ∧ (reading (reader [] 0 0 false) []).env.srcCloseTape = []) := by
  decide

theorem witness_ClosedUnitsRefuseCommands : State.reset.rd.opened = false ∧ State.reset.wr.opened = false := by decide

/-- Reads of 1, 3, 4, 8 and 8 bits over three bytes delivered in two chunks: every bit is asked for. -/
theorem witness_ReaderAgreesWithTheContainer :
    let s := reading closedReader [.ok [0xA5, 0xF0], .ok [0x0F], .ok []]
    let fs : List FieldRead := [.narrow 1, .tagged true 3, .wide 4, .narrow 8, .tagged false 8]
    (s.rd.opened = false ∧ s.rd.buf.wf = true ∧ 16 ≤ askedCapacity 16) ∧
    (∀ a ∈ s.env.srcReadTape, keepsContract (askedCapacity 16) a) ∧ (∀ f ∈ fs, readAccepted f = true) ∧
    (fs.map readWidth).sum ≤ 8 * (tapeBytes s.env.srcReadTape).length ∧
    8 * (tapeBytes s.env.srcReadTape).length ≤ 2 ^ 64 - 1 := by
  refine ⟨by decide, ?_, by decide, by decide, by decide⟩
  simp [reading, keepsContract, askedCapacity]

/-- Both clauses, as for the reader. -/
theorem witness_WriterOpensEmpty :
    (State.reset.wr.opened = false ∧ 16 ≤ (16#32).toNat ∧ (0#32).toNat = 0) ∧
      (busy []).wr.opened = true ∧ (15#32).toNat < 16 := by
  decide

/-- A field that ends one bit before the buffer does, and one that fills it and meets a sink that accepts. -/
theorem witness_WriterAppendsTheField :
    (writerOk (busy []).wr ∧ (busy []).wr.opened = true ∧ writeAccepted (.wide maxW 116) = true ∧
      8 * (busy []).wr.bytePos + (busy []).wr.bitPos + writeWidth (.wide maxW 116) < 8 * (busy []).wr.capacity) ∧
    (writeAccepted (.wide maxW 117) = true ∧
      8 * (busy []).wr.capacity ≤ 8 * (busy []).wr.bytePos + (busy []).wr.bitPos + writeWidth (.wide maxW 117) ∧
      sinkWriteAnswer (busy []) = .ok) :=
  ⟨⟨midWriter_ok, rfl, by decide, by decide⟩, by decide, by decide, rfl⟩

theorem witness_FailedFlushUndoesTheWrite :
    let s := writing (writer [0x07, 0x05] 1 3) [.err 0x1C] [] []
    writerOk s.wr ∧ s.wr.opened = true ∧ writeAccepted (.wide maxW 117) = true ∧
      8 * s.wr.capacity ≤ 8 * s.wr.bytePos + s.wr.bitPos + writeWidth (.wide maxW 117) ∧
      sinkWriteAnswer s = .err 0x1C :=
  ⟨midWriter_ok, rfl, by decide, by decide, rfl⟩

/-- Something pending and nothing pending, each port accepting and failing; and an open writer with empty tapes. -/
theorem witness_FlushHandsOverThePendingBytes :
    ((busy []).wr.opened = true ∧ unsentBytes (busy []).wr ≠ [] ∧ sinkWriteAnswer (busy []) = .ok ∧
      sinkFlushAnswer (afterHandOver (busy [])) = .ok) ∧
    ((writing (writer [] 0 0) [] [.err 3] []).wr.opened = true ∧ unsentBytes (writer [] 0 0) = [] ∧
      sinkFlushAnswer (afterHandOver (writing (writer [] 0 0) [] [.err 3] [])) = .err 3) ∧
    (unsentBytes (writer [1] 0 1) ≠ [] ∧ sinkWriteAnswer (writing (writer [1] 0 1) [.err 2] [.ok] []) = .err 2) ∧
    ((writing (writer [1] 0 1) [] [] []).wr.opened = true ∧ (writing (writer [1] 0 1) [] [] []).env.sinkWriteTape = []) := by
  decide

/-- Something pending and nothing pending; each port accepting and failing; the sink left open and closed. -/
theorem witness_CloseFlushesAndThenCloses :
    ((busy []).wr.opened = true ∧ unsentBytes (busy []).wr ≠ [] ∧ sinkWriteAnswer (busy []) = .ok ∧
      sinkFlushAnswer (afterHandOver (busy [])) = .ok ∧ (busy []).wr.leaveOpen = false ∧
      sinkCloseAnswer (afterSinkFlush (afterHandOver (busy []))) = .ok) ∧
    (unsentBytes (writer [1] 0 1) ≠ [] ∧ sinkWriteAnswer (writing (writer [1] 0 1) [.err 2] [] []) = .err 2) ∧
    (unsentBytes (writer [] 0 0) = [] ∧
      sinkFlushAnswer (afterHandOver (writing (writer [] 0 0) [] [.err 3] [])) = .err 3) ∧
    (sinkFlushAnswer (afterHandOver (writing (writer [] 0 0) [] [.ok] [.err 4])) = .ok ∧
      sinkCloseAnswer (afterSinkFlush (afterHandOver (writing (writer [] 0 0) [] [.ok] [.err 4]))) = .err 4) ∧
    (({ writer [] 0 0 with leaveOpen := true } : Writer).leaveOpen = true ∧
      sinkFlushAnswer (afterHandOver (writing { writer [] 0 0 with leaveOpen := true } [] [.ok] [])) = .ok) := by
  decide

theorem witness_StreamingAgreesWithInMemory :
    let s := writing closedWriter [.ok, .ok, .ok] [.ok] []
    let fs : List FieldWrite := [.narrow 5 3, .tagged ⟨4, true, -3⟩]
    (s.wr.opened = false ∧ s.wr.buf.wf = true ∧ 16 ≤ askedCapacity 16) ∧ (∀ f ∈ fs, writeAccepted f = true) ∧
    (fs.map writeWidth).sum ≤ 2 ^ 64 - 1 ∧ (∀ a ∈ s.env.sinkWriteTape, a = .ok) ∧
    fs.length < s.env.sinkWriteTape.length ∧ s.env.sinkFlushTape.head? = some .ok := by
  decide +kernel

end Sys2Proof.Tests
end

section
/-! PROOFS. Sign extension and well-formed tokens (00_scope.md R12, 41_bitvalue.md R152). -/

namespace Sys2Proof.Machine

/-- `sext_128` is the library's sign extension of the low k bits (R12). -/
theorem signExtend_eq_signExtend {k : Nat} (hk : k ≤ 128) (v : Nat) :
    signExtend v k = (BitVec.ofNat k v).signExtend 128 := by
  have hlt : v % 2 ^ k < 2 ^ k := Nat.mod_lt _ (Nat.two_pow_pos k)
  have hle : 2 ^ k ≤ 2 ^ 128 := Nat.pow_le_pow_right (by decide) hk
  have hmsb : (BitVec.ofNat k v).msb = (v % 2 ^ k).testBit (k - 1) := by
    rw [BitVec.msb_eq_getLsbD_last, BitVec.getLsbD, BitVec.toNat_ofNat]
  apply BitVec.eq_of_toNat_eq
  rw [BitVec.toNat_signExtend, BitVec.toNat_setWidth, BitVec.toNat_ofNat, hmsb, signExtend]
  split
  · rw [BitVec.toNat_ofNat, Nat.mod_eq_of_lt (a := v % 2 ^ k) (by omega), Nat.mod_eq_of_lt (by omega)]
  · rw [BitVec.toNat_ofNat, Nat.add_zero]

/-- A 128-bit value is the sign extension of its low k bits exactly when its signed reading fits k bits. -/
theorem eq_signExtend_iff {k : Nat} (hpos : 0 < k) (hk : k ≤ 128) (x : Word128) :
    x = signExtend x.toNat k ↔ -(2 ^ (k - 1) : Int) ≤ x.toInt ∧ x.toInt < 2 ^ (k - 1) := by
  have hlow : (signExtend x.toNat k).toInt = (x.setWidth k).toInt := by
    rw [signExtend_eq_signExtend hk, BitVec.ofNat_toNat, BitVec.toInt_signExtend_of_le hk]
  constructor
  · intro h
    rw [h, hlow]
    exact ⟨BitVec.le_toInt _, BitVec.toInt_lt⟩
  · rintro ⟨hlo, hhi⟩
    have hdvd : (2 ^ k : Nat) ∣ 2 ^ 128 := Nat.pow_dvd_pow 2 hk
    have hpow : ((2 ^ k : Nat) : Int) = 2 * 2 ^ (k - 1) := by
      rw [← pow_succ', Nat.sub_add_cancel hpos]; norm_cast
    apply BitVec.eq_of_toInt_eq
    calc x.toInt = x.toInt.bmod (2 ^ k) := (Int.bmod_eq_of_le_mul_two (by omega) (by omega)).symm
      _ = (x.toNat : Int).bmod (2 ^ k) := by rw [BitVec.toInt_eq_toNat_bmod, Int.bmod_bmod_of_dvd hdvd]
      _ = (signExtend x.toNat k).toInt := by rw [hlow, BitVec.toInt_setWidth]

theorem storageWidth_pos (n : Nat) : 0 < storageWidth n := by
  unfold storageWidth; split_ifs <;> decide

theorem storageWidth_le (n : Nat) : storageWidth n ≤ 128 := by
  unfold storageWidth; split_ifs <;> decide

/-- Well-formed tokens (R152) in terms of the values they carry. -/
theorem tokenWellFormed_iff (t : Token) :
    tokenWellFormed t = true ↔
      1 ≤ t.n.toNat ∧ t.n.toNat ≤ 128 ∧
        (t.sgn = false → t.ext.toNat < 2 ^ t.n.toNat) ∧
        (t.sgn = true → -(2 ^ (storageWidth t.n.toNat - 1) : Int) ≤ t.ext.toInt ∧
          t.ext.toInt < 2 ^ (storageWidth t.n.toNat - 1)) := by
  have hfits := eq_signExtend_iff (storageWidth_pos t.n.toNat) (storageWidth_le t.n.toNat) t.ext
  unfold tokenWellFormed
  cases h : t.sgn with
  | false => simp [and_assoc]
  | true => simp [and_assoc, hfits]

/-- Settles O26: the width in the statement is the storage width of R12. -/
theorem tokenFitsItsWidth : Obligations.TokenFitsItsWidth := tokenWellFormed_iff

end Sys2Proof.Machine
end

section
/-! PROOFS. Every command and every step goes on unless a read meets a source that breaks its contract
(00_scope.md R17, 20_memory.md R80). -/

namespace Sys2Proof.Machine

/-! ## The source keeps its contract through a read (20_memory.md R80, 93_implementation_defined.md U11) -/

/-- A source whose tape keeps the contract answers within the reader's capacity; the free answer does by its own law. -/
theorem srcReadAnswer_keepsContract {s : State} (h : sourceKeepsContract s) :
    keepsContract s.rd.capacity (srcReadAnswer s s.rd.capacity) := by
  unfold srcReadAnswer
  split
  · next a rest htape => exact h a (by simp [htape])
  · unfold freeReadAnswer
    split
    · trivial
    · exact List.length_take_le _ _

/-- The contract concerns the reader's capacity and the answers still to come, and a step may use answers up. -/
theorem sourceKeepsContract_of_tape {s t : State} (h : sourceKeepsContract s) (hcap : t.rd.capacity = s.rd.capacity)
    (htape : t.env.srcReadTape ⊆ s.env.srcReadTape) : sourceKeepsContract t := by
  intro a ha
  rw [hcap]
  exact h a (htape ha)

/-- A reader step did not meet a broken contract, and the answers it left keep theirs. -/
def Pull.sound {α : Type} : Pull α → Prop
  | .got _ t => sourceKeepsContract t
  | .endOfStream t => sourceKeepsContract t
  | .ioError _ t => sourceKeepsContract t
  | .brokenContract => False

theorem takeBit_sound {s : State} (h : sourceKeepsContract s) : (takeBit s).sound :=
  sourceKeepsContract_of_tape h (readerAdvance_capacity s.rd) (List.Subset.refl _)

theorem fillBuffer_sound {s : State} (h : sourceKeepsContract s) : (fillBuffer s).sound := by
  have htail : s.env.srcReadTape.tail ⊆ s.env.srcReadTape := List.tail_subset _
  rcases fillBuffer_cases s with ⟨c, _, e⟩ | ⟨bytes, hans, hlong, _⟩ | ⟨_, e⟩ | ⟨b, bytes, _, _, e⟩
  · rw [e]; exact sourceKeepsContract_of_tape h rfl htail
  · have hkeeps := srcReadAnswer_keepsContract h
    rw [hans] at hkeeps
    exact absurd hkeeps (Nat.not_le.mpr hlong)
  · rw [e]; exact sourceKeepsContract_of_tape h rfl htail
  · rw [e]; exact sourceKeepsContract_of_tape h rfl htail

theorem rdBit_sound {s : State} (h : sourceKeepsContract s) : (rdBit s).sound := by
  unfold rdBit
  split
  · split
    · exact h
    · have hfill := fillBuffer_sound h
      cases e : fillBuffer s <;> rw [e] at hfill
      case got u t => exact takeBit_sound hfill
      all_goals exact hfill
  · exact takeBit_sound h

theorem rdGet_sound (n : Nat) {s : State} (h : sourceKeepsContract s) : (rdGet n s).sound := by
  induction n generalizing s with
  | zero => exact h
  | succ n ih =>
    have hbit := rdBit_sound h
    unfold rdGet
    cases e : rdBit s <;> rw [e] at hbit
    case got b t =>
      have hrest := ih hbit
      cases e' : rdGet n t <;> simp only [e'] <;> rw [e'] at hrest <;> exact hrest
    all_goals exact hbit

theorem rdGetWide_sound (n : Nat) {s : State} (h : sourceKeepsContract s) : (rdGetWide n s).sound := by
  unfold rdGetWide
  split
  · have hget := rdGet_sound n h
    cases e : rdGet n s <;> rw [e] at hget <;> exact hget
  · have hlow := rdGet_sound 64 h
    cases e : rdGet 64 s <;> rw [e] at hlow
    case got v t =>
      have hhigh := rdGet_sound (n - 64) hlow
      cases e' : rdGet (n - 64) t <;> simp only [e'] <;> rw [e'] at hhigh <;> exact hhigh
    all_goals exact hlow

/-! ## Commands that have a next state (00_scope.md R17) -/

/-- The machine goes on. -/
def HasNext (r : Result) : Prop := ∃ t, r = .next t

theorem hasNext_answer (x : Response) (s : State) : HasNext (answer x s) := ⟨_, rfl⟩

theorem hasNext_raise (status : Status) (s : State) : HasNext (raise status s) := ⟨_, rfl⟩

theorem hasNext_raiseIo (cause : Word64) (s : State) : HasNext (raiseIo cause s) := ⟨_, rfl⟩

/-- A command behind a check that raises goes on if the command does. -/
theorem hasNext_gate {c : Prop} [Decidable c] {status : Status} {s : State} {r : Result} (h : HasNext r) :
    HasNext (if c then raise status s else r) := by
  split
  · exact hasNext_raise status s
  · exact h

theorem hasNext_finishPush (p : Push) : HasNext (finishPush p) := by
  cases p with
  | done t => exact hasNext_answer _ t
  | ioError cause t => exact hasNext_raiseIo cause t

theorem hasNext_rdClose (s : State) : HasNext (execRdClose s) := by
  refine hasNext_gate ?_
  cases srcCloseAnswer s with
  | ok => exact hasNext_answer _ _
  | err cause => exact hasNext_raiseIo cause _

theorem hasNext_wrClose (s : State) : HasNext (execWrClose s) := by
  refine hasNext_gate ?_
  cases flushSteps s with
  | ioError cause t => exact hasNext_raiseIo cause t
  | done t =>
    dsimp only
    cases closeSink t with
    | ioError cause u => exact hasNext_raiseIo cause u
    | done u => exact hasNext_answer _ _

/-- No command but a read of the reader can stop the block, whatever the source holds. -/
theorem exec_hasNext_of_not_read {i : Instr} (h : ∀ f, i ≠ readerRead f) (s : State) : HasNext (exec i s) := by
  cases i with
  | wAdd | wSub | wAnd | wOr | wXor | wNot | wCmpU | wCmpS => exact hasNext_answer _ s
  | bcAtEnd | bcStat | bcBytes => exact hasNext_answer _ s
  | bcClear | bcReset => exact hasNext_answer _ _
  | wShl | wShr | wSar => exact hasNext_gate (hasNext_answer _ s)
  | bvNewU | bvNewS | bvNewS128 | bvToU128 | bvToI64 | bvToI128 | bvEq => exact hasNext_gate (hasNext_answer _ s)
  | bvToU64 => exact hasNext_gate (hasNext_gate (hasNext_answer _ s))
  | bcLoad | bcSeek => exact hasNext_gate (hasNext_answer _ _)
  | bcWrite | bcRead | bcWrite128 | bcRead128 | bcWriteV | bcReadV =>
    exact hasNext_gate (hasNext_gate (hasNext_answer _ _))
  | rdRead n => exact absurd rfl (h (.narrow n))
  | rdRead128 n => exact absurd rfl (h (.wide n))
  | rdReadV sgn n => exact absurd rfl (h (.tagged sgn n))
  | rdAtEnd => exact hasNext_gate (hasNext_answer _ s)
  | rdClose => exact hasNext_rdClose s
  | rdOpen | wrOpen => exact hasNext_gate (hasNext_gate (hasNext_answer _ _))
  | wrWrite | wrWrite128 | wrWriteV => exact hasNext_gate (hasNext_gate (hasNext_finishPush _))
  | wrFlush => exact hasNext_gate (hasNext_finishPush _)
  | wrClose => exact hasNext_wrClose s

/-! ## Reads of the reader -/

/-- The one way a command stops the block: the reader is open and its source breaks the contract (log 10). -/
def StopsAtSource (s : State) (r : Result) : Prop :=
  r = .refused .sourceBrokeContract ∧ ¬ sourceKeepsContract s ∧ s.rd.opened = true

theorem finishPull_cases {α : Type} {f : α → Response} {p : Pull α} {s : State} (hopen : s.rd.opened = true)
    (hp : sourceKeepsContract s → p.sound) : HasNext (finishPull f p) ∨ StopsAtSource s (finishPull f p) := by
  cases p with
  | got v t => exact .inl (hasNext_answer (f v) t)
  | endOfStream t => exact .inl (hasNext_raise .endOfStream t)
  | ioError cause t => exact .inl (hasNext_raiseIo cause t)
  | brokenContract => exact .inr ⟨rfl, hp, hopen⟩

/-- The gates of a reader's read (43_reader.md R222, R224) around a field read that a sound source cannot break. -/
theorem gatedRead_cases {α : Type} {f : α → Response} {p : Pull α} {s : State} {limit : Nat} {n : BitVec 8}
    {r : Result} (hp : sourceKeepsContract s → p.sound)
    (hr : r = if !s.rd.opened then raise .illegalCommand s
      else if badCount n limit then raise .invalidBitCount s
      else if s.rd.fatal then raiseIo s.rd.cause s
      else finishPull f p) : HasNext r ∨ StopsAtSource s r := by
  subst hr
  split
  · exact .inl (hasNext_raise _ s)
  next hgate =>
    have hopen : s.rd.opened = true := by simpa using hgate
    split
    · exact .inl (hasNext_raise _ s)
    split
    · exact .inl (hasNext_raiseIo _ s)
    · exact finishPull_cases hopen hp

theorem exec_readerRead_cases (f : FieldRead) (s : State) :
    HasNext (exec (readerRead f) s) ∨ StopsAtSource s (exec (readerRead f) s) := by
  cases f with
  | narrow n => exact gatedRead_cases (rdGet_sound n.toNat) rfl
  | wide n => exact gatedRead_cases (rdGetWide_sound n.toNat) rfl
  | tagged sgn n => exact gatedRead_cases (rdGetWide_sound n.toNat) rfl

/-- All a command can do (R17): go on, or be a read that stops at the source. -/
theorem exec_hasNext_or_stops (i : Instr) (s : State) :
    HasNext (exec i s) ∨ (StopsAtSource s (exec i s) ∧ ∃ f, i = readerRead f) := by
  by_cases h : ∃ f, i = readerRead f
  · obtain ⟨f, rfl⟩ := h
    exact (exec_readerRead_cases f s).imp_right fun hstop => ⟨hstop, f, rfl⟩
  · exact .inl (exec_hasNext_of_not_read (not_exists.mp h) s)

theorem exec_hasNext_of_source {s : State} (h : sourceKeepsContract s) (i : Instr) : HasNext (exec i s) := by
  rcases exec_hasNext_or_stops i s with hnext | ⟨⟨_, hbroken, _⟩, _⟩
  · exact hnext
  · exact absurd h hbroken

/-! ## Steps, by what the host presents (60_exceptions.md R300, 70_reset_and_hazards.md R310, 30_encoding.md R90) -/

theorem step_of_idle {s : State} (h : s.env.inbox = []) : step s = .next s := by
  simp [step, takeInput, h]

theorem step_of_reset {s : State} {rest : List HostInput} (h : s.env.inbox = .reset :: rest) :
    step s = .next (applyReset { s with env := { s.env with inbox := rest } }) := by
  simp [step, takeInput, h]

theorem step_of_command {s : State} {frame : List Byte} {rest : List HostInput} {i : Instr}
    (h : s.env.inbox = .frame frame :: rest) (hd : decode frame = .ok i) :
    step s = exec i { s with env := { s.env with inbox := rest } } := by
  simp [step, takeInput, h, hd]

theorem step_of_illegal_frame {s : State} {frame : List Byte} {rest : List HostInput} {e : DecodeError}
    (h : s.env.inbox = .frame frame :: rest) (hd : decode frame = .error e) :
    step s = .next (({ s with env := { s.env with inbox := rest } } : State).respond (failed .illegalCommand)) := by
  simp [step, takeInput, h, hd, rejectFrame, raise_eq]

theorem step_hasNext_of_source {s : State} (h : sourceKeepsContract s) : HasNext (step s) := by
  rcases hin : s.env.inbox with _ | ⟨frame | _, rest⟩
  · exact ⟨_, step_of_idle hin⟩
  · cases hd : decode frame with
    | error e => exact ⟨_, step_of_illegal_frame hin hd⟩
    | ok i =>
      have htaken : sourceKeepsContract { s with env := { s.env with inbox := rest } } := h
      rw [step_of_command hin hd]
      exact exec_hasNext_of_source htaken i
  · exact ⟨_, step_of_reset hin⟩

/-- Settles O12: a read is the only command that asks the source for bytes, and a source that keeps its contract on the
tape keeps it through every bit of the read. -/
theorem onlyABrokenSourceStopsTheBlock : Obligations.OnlyABrokenSourceStopsTheBlock := by
  refine ⟨fun s h => step_hasNext_of_source h, fun i s r hr => ?_⟩
  rcases exec_hasNext_or_stops i s with ⟨t, ht⟩ | ⟨⟨hstop, hbroken, hopen⟩, hread⟩
  · cases ht.symm.trans hr
  · cases hstop.symm.trans hr
    exact ⟨rfl, hbroken, hopen, hread⟩

end Sys2Proof.Machine
end

section
/-! PROOFS. The operations of the three units keep the units' invariants (10_state.md R27, R30, R32). -/

namespace Sys2Proof.Machine

/-! ## The container (R27) -/

theorem emptyContainer_ok : containerOk emptyContainer :=
  ⟨rfl, Nat.le_refl 0, Nat.zero_le _, fun _ _ => by simp [emptyContainer, Memory.getBit, Memory.read, Memory.blank]⟩

theorem cursor_le_maxBits_of_not_pastMaxBits {n : Nat} {c : Container} (h : ¬ pastMaxBits n c = true) :
    c.cursor + n ≤ Config.maxBits := by
  simpa [pastMaxBits] using h

theorem cursor_le_bitLength_of_not_fewerBits {n : Nat} {c : Container} (h : ¬ fewerBits n c = true) :
    c.cursor + n ≤ c.bitLength := by
  simpa [fewerBits] using h

/-- A field write that ends within `MAXBITS` grows the valid bits to cover the field, and writes no bit beyond it. -/
theorem bcPut_ok {c : Container} (h : containerOk c) {n : Nat} (hmax : c.cursor + n ≤ Config.maxBits) (v : Nat) :
    containerOk (bcPut v n c) := by
  obtain ⟨hwf, hcur, hlen, hzero⟩ := h
  refine ⟨bcPut_storage_wf hwf v n, Nat.le_max_right _ _, Nat.max_le.mpr ⟨hlen, hmax⟩, fun p hp => ?_⟩
  obtain ⟨hlow, hfield⟩ : c.bitLength ≤ p ∧ c.cursor + n ≤ p := Nat.max_le.mp hp
  show (c.storage.deposit c.cursor n v).getBit p = false
  rw [Memory.getBit_deposit hwf, if_neg (by omega), hzero p hlow]

theorem bcPutWide_ok {c : Container} (h : containerOk c) {n : Nat} (hmax : c.cursor + n ≤ Config.maxBits)
    (value : Word128) : containerOk (bcPutWide value n c) := by
  unfold bcPutWide
  dsimp only
  split
  · exact bcPut_ok h hmax _
  · have hlow : containerOk (bcPut (truncate value n).low.toNat 64 c) := bcPut_ok h (by omega) _
    exact bcPut_ok hlow (show c.cursor + 64 + (n - 64) ≤ Config.maxBits by omega) _

theorem withCursor_ok {c : Container} (h : containerOk c) {p : Nat} (hp : p ≤ c.bitLength) :
    containerOk { c with cursor := p } := by
  obtain ⟨hwf, -, hlen, hzero⟩ := h
  exact ⟨hwf, hp, hlen, hzero⟩

/-- A payload fills whole bytes, so no bit beyond it is set. -/
theorem loadedContainer_ok {payload : List Byte} (h : 8 * payload.length ≤ Config.maxBits) :
    containerOk ⟨Memory.writeBytes [] 0 payload, 0, 8 * payload.length⟩ := by
  have hwf : Memory.wf [] = true := rfl
  refine ⟨Memory.writeBytes_wf hwf 0 payload, Nat.zero_le _, h, fun p hp => ?_⟩
  have hbeyond : ¬ (0 ≤ p / 8 ∧ p / 8 < 0 + payload.length) := by dsimp only at hp; omega
  rw [Memory.getBit, Memory.read_writeBytes hwf, if_neg hbeyond]
  simp [Memory.read, Memory.blank]

/-! ## The reader (R30) -/

theorem askedCapacity_ok {cap : BitVec 32} (h : ¬ askedCapacity cap < Config.capMin) :
    capacityOk (askedCapacity cap) := by
  refine ⟨Nat.not_lt.mp h, ?_⟩
  unfold askedCapacity Config.capMax
  split
  · decide
  · have := cap.isLt; omega

theorem closedReader_ok : readerOk closedReader := ⟨rfl, fun h => nomatch h⟩

/-- A bit is taken only where a loaded byte is left, so the cursor stays within the loaded bytes. -/
theorem readerAdvance_ok {r : Reader} (h : readerOk r) (hleft : r.bytePos ≠ r.bufferSize) :
    readerOk (readerAdvance r) := by
  obtain ⟨hwf, hopen⟩ := h
  refine ⟨by simpa using hwf, fun ho => ?_⟩
  obtain ⟨hcap, hpos, hsize, hbit, -, hend⟩ := hopen (by simpa using ho)
  have hnotEnd : r.atEndOfSource ≠ true := fun he => hleft (hend he)
  unfold readerAdvance
  split
  · exact ⟨hcap, show r.bytePos + 1 ≤ r.bufferSize by omega, hsize, Nat.zero_lt_succ 7, fun _ => rfl,
      fun he => absurd he hnotEnd⟩
  · exact ⟨hcap, hpos, hsize, show r.bitPos + 1 < 8 by omega, fun he => absurd he hleft,
      fun he => absurd he hnotEnd⟩

/-- A chunk the source may send makes the reader stand at the first of its bytes. -/
theorem loadChunk_ok {r : Reader} (h : readerOk r) {b : Byte} {bytes : List Byte}
    (hfits : (b :: bytes).length ≤ r.capacity) (hmore : r.atEndOfSource ≠ true) :
    readerOk (loadChunk (b :: bytes) r) := by
  obtain ⟨hwf, hopen⟩ := h
  refine ⟨loadChunk_buf_wf hwf _, fun ho => ?_⟩
  obtain ⟨hcap, -⟩ := hopen ho
  exact ⟨hcap, Nat.zero_le _, hfits, Nat.zero_lt_succ 7, fun _ => rfl, fun he => absurd he hmore⟩

/-- An end of the source met with every loaded byte consumed. -/
theorem endedReader_ok {r : Reader} (h : readerOk r) (hdone : r.bytePos = r.bufferSize) :
    readerOk { r with atEndOfSource := true } := by
  obtain ⟨hwf, hopen⟩ := h
  refine ⟨hwf, fun ho => ?_⟩
  obtain ⟨hcap, hpos, hsize, hbit, hclean, -⟩ := hopen ho
  exact ⟨hcap, hpos, hsize, hbit, hclean, fun _ => hdone⟩

theorem rdBit_ok {s u : State} (h : readerOk s.rd) (hu : (rdBit s).leaves u) : readerOk u.rd := by
  unfold rdBit at hu
  split at hu
  next hdone =>
    split at hu
    · subst hu; exact h
    next hmore =>
      rcases fillBuffer_cases s with ⟨cause, -, e⟩ | ⟨bytes, -, -, e⟩ | ⟨-, e⟩ | ⟨b, bytes, -, hfits, e⟩ <;>
        rw [e] at hu
      · subst hu; exact h
      · exact hu.elim
      · subst hu; exact endedReader_ok h hdone
      · subst hu; exact readerAdvance_ok (loadChunk_ok h hfits hmore) (Nat.zero_ne_add_one _)
  next hleft => subst hu; exact readerAdvance_ok h hleft

theorem rdGet_ok {n : Nat} {s u : State} (h : readerOk s.rd) (hu : (rdGet n s).leaves u) : readerOk u.rd :=
  rdGet_leaves (R := fun s u => readerOk s.rd → readerOk u.rd) (fun _ => id) (fun hst htu => htu ∘ hst)
    (fun hbit hs => rdBit_ok hs hbit) hu h

theorem rdGetWide_ok {n : Nat} {s u : State} (h : readerOk s.rd) (hu : (rdGetWide n s).leaves u) : readerOk u.rd :=
  rdGetWide_leaves (R := fun s u => readerOk s.rd → readerOk u.rd) (fun _ => id) (fun hst htu => htu ∘ hst)
    (fun hbit hs => rdBit_ok hs hbit) hu h

/-! ## The writer (R32) -/

theorem closedWriter_ok : writerOk closedWriter := ⟨rfl, fun h => nomatch h⟩

theorem putBit_lt {x : Byte} {i : Nat} (hi : i < 8) (hx : x.toNat < 2 ^ i) (b : Bool) :
    (putBit x i b).toNat < 2 ^ (i + 1) := by
  refine Nat.lt_pow_two_of_testBit _ fun j hj => ?_
  have hput := putBit_getLsbD hi x b j
  rw [if_neg (by omega)] at hput
  exact hput.trans (Nat.testBit_lt_two_pow (hx.trans_le (Nat.pow_le_pow_right (by decide) (by omega))))

/-- The pending byte holds the bits placed so far and zeros above them: its first bit starts it clean (R257). -/
theorem placeBit_pending {w : Writer} (hwf : w.buf.wf = true) (h8 : w.bitPos < 8)
    (hpending : 0 < w.bitPos → (w.buf.read w.bytePos).toNat < 2 ^ w.bitPos) (b : Bool) :
    ((placeBit b w).buf.read w.bytePos).toNat < 2 ^ (w.bitPos + 1) := by
  unfold placeBit
  dsimp only
  split
  next hfirst =>
    rw [Memory.read_setBitOf (Memory.write_wf hwf _ _), if_pos rfl, Memory.read_write hwf, if_pos rfl]
    exact putBit_lt h8 (by simp) b
  next hlater =>
    rw [Memory.read_setBitOf hwf, if_pos rfl]
    exact putBit_lt h8 (hpending (Nat.pos_of_ne_zero hlater)) b

/-- A writer at the start of a byte has nothing pending in it. -/
theorem writerOk_of_byte_start {w : Writer} (hwf : w.buf.wf = true) (hbit : w.bitPos = 0)
    (hcap : w.opened = true → capacityOk w.capacity ∧ w.bytePos < w.capacity) : writerOk w :=
  ⟨hwf, fun ho => ⟨(hcap ho).1, (hcap ho).2, by omega, fun hpos => absurd hbit (Nat.ne_of_gt hpos)⟩⟩

theorem capacityOk_pos {k : Nat} (h : capacityOk k) : 0 < k :=
  lt_of_lt_of_le (by decide) h.1

/-- The writer with its buffer handed over meets the invariant again, whatever the buffer held. -/
theorem emptiedWriter_ok {w : Writer} (h : writerOk w) : writerOk (emptiedWriter w) := by
  obtain ⟨hwf, hopen⟩ := h
  refine writerOk_of_byte_start hwf rfl fun ho => ?_
  obtain ⟨hcap, -⟩ := hopen ho
  exact ⟨hcap, capacityOk_pos hcap⟩

/-- A bit step that ends well. One whose flush fails leaves the writer past its buffer; `wrPut` undoes that (R257). -/
theorem wrBit_ok {b : Bool} {s t : State} (h : writerOk s.wr) (hd : wrBit b s = .done t) : writerOk t.wr := by
  obtain ⟨hwf, hopen⟩ := h
  have hbuf : (placeBit b s.wr).buf.wf = true := placeBit_buf_wf hwf b
  rcases wrBit_cases b s with ⟨-, -, e⟩ | ⟨-, hnotFull, e⟩ | ⟨hnot8, e⟩ <;> rw [e] at hd
  · rcases flushFull_cases { s with wr := { placeBit b s.wr with bitPos := 0, bytePos := s.wr.bytePos + 1 } } with
      ⟨cause, -, ef⟩ | ⟨-, ef⟩ <;> rw [ef] at hd
    · cases hd
    · cases hd
      refine writerOk_of_byte_start hbuf rfl fun ho => ?_
      obtain ⟨hcap, -⟩ := hopen ho
      exact ⟨hcap, capacityOk_pos hcap⟩
  · cases hd
    refine writerOk_of_byte_start hbuf rfl fun ho => ?_
    obtain ⟨hcap, hpos, -⟩ := hopen ho
    exact ⟨hcap, show s.wr.bytePos + 1 < s.wr.capacity by omega⟩
  · cases hd
    refine ⟨hbuf, fun ho => ?_⟩
    obtain ⟨hcap, hpos, hbit, hpending⟩ := hopen ho
    exact ⟨hcap, hpos, show s.wr.bitPos + 1 < 8 by omega, fun _ => placeBit_pending hwf hbit hpending b⟩

theorem wrBits_ok {n v : Nat} {s t : State} (h : writerOk s.wr) (hd : wrBits n v s = .done t) : writerOk t.wr := by
  induction n generalizing v s with
  | zero => cases hd; exact h
  | succ n ih =>
    unfold wrBits at hd
    cases e : wrBit (v.testBit 0) s with
    | done u => rw [e] at hd; exact ih (wrBit_ok h e) hd
    | ioError cause u => rw [e] at hd; cases hd

theorem wrSegments_ok {segments : List (Nat × Nat)} {s t : State} (h : writerOk s.wr)
    (hd : wrSegments segments s = .done t) : writerOk t.wr := by
  induction segments generalizing s with
  | nil => cases hd; exact h
  | cons x rest ih =>
    obtain ⟨v, n⟩ := x
    unfold wrSegments at hd
    cases e : wrBits n v s with
    | done u => rw [e] at hd; exact ih (wrBits_ok h e) hd
    | ioError cause u => rw [e] at hd; cases hd

/-- A field write keeps the invariant however it ends: it is completed or undone whole (R257). -/
theorem wrPut_ok {segments : List (Nat × Nat)} {s : State} (h : writerOk s.wr) :
    writerOk (wrPut segments s).leaves.wr := by
  cases e : wrPut segments s with
  | done t =>
    refine wrSegments_ok (segments := segments) h ?_
    unfold wrPut at e
    cases es : wrSegments segments s <;> rw [es] at e <;> cases e
    rfl
  | ioError cause t =>
    show writerOk t.wr
    rw [wrPut_failed e]
    exact h

theorem flushPending_ok {s : State} (h : writerOk s.wr) : writerOk (flushPending s).leaves.wr := by
  rcases flushPending_cases s with ⟨-, e⟩ | ⟨-, cause, -, e⟩ | ⟨-, -, e⟩ <;> rw [e]
  · exact h
  · exact h
  · exact emptiedWriter_ok h

theorem flushSteps_ok {s : State} (h : writerOk s.wr) : writerOk (flushSteps s).leaves.wr := by
  have hp := flushPending_ok h
  unfold flushSteps
  cases e : flushPending s with
  | done t =>
    rw [e] at hp
    cases ea : sinkFlushAnswer t <;> simp only [ea] <;> exact hp
  | ioError cause t => rw [e] at hp; exact hp

end Sys2Proof.Machine
end

section
/-! PROOFS. What a command does to the units before it answers: it moves its own unit alone and keeps that unit's
invariant; and what follows for every step (10_state.md R27, R28, R30, R32, R36). -/

namespace Sys2Proof.Machine

/-! ## Moves of one unit (R28) -/

/-- From `s` to `u` nothing but the container changed, and it kept its invariant. -/
structure ContainerMove (s u : State) : Prop where
  rd : u.rd = s.rd
  wr : u.wr = s.wr
  env : u.env = s.env
  ok : containerOk s.bc → containerOk u.bc

/-- From `s` to `u` the other two units did not change, and the reader kept its invariant. -/
structure ReaderMove (s u : State) : Prop where
  bc : u.bc = s.bc
  wr : u.wr = s.wr
  ok : readerOk s.rd → readerOk u.rd

/-- From `s` to `u` the other two units did not change, and the writer kept its invariant. -/
structure WriterMove (s u : State) : Prop where
  bc : u.bc = s.bc
  rd : u.rd = s.rd
  ok : writerOk s.wr → writerOk u.wr

theorem ContainerMove.refl (s : State) : ContainerMove s s := ⟨rfl, rfl, rfl, id⟩
theorem ReaderMove.refl (s : State) : ReaderMove s s := ⟨rfl, rfl, id⟩
theorem WriterMove.refl (s : State) : WriterMove s s := ⟨rfl, rfl, id⟩

theorem rdGet_move {n : Nat} {s u : State} (h : (rdGet n s).leaves u) : ReaderMove s u :=
  ⟨(rdGet_outside h).bc, (rdGet_outside h).wr, fun hr => rdGet_ok hr h⟩

theorem rdGetWide_move {n : Nat} {s u : State} (h : (rdGetWide n s).leaves u) : ReaderMove s u :=
  ⟨(rdGetWide_outside h).bc, (rdGetWide_outside h).wr, fun hr => rdGetWide_ok hr h⟩

theorem wrPut_move (segments : List (Nat × Nat)) (s : State) : WriterMove s (wrPut segments s).leaves :=
  ⟨(wrPut_outside segments s).bc, (wrPut_outside segments s).rd, wrPut_ok⟩

theorem flushSteps_move (s : State) : WriterMove s (flushSteps s).leaves :=
  ⟨(flushSteps_outside s).bc, (flushSteps_outside s).rd, flushSteps_ok⟩

theorem closeSink_move (s : State) : WriterMove s (closeSink s).leaves := by
  unfold closeSink
  split
  · exact .refl s
  · cases e : sinkCloseAnswer s <;> exact ⟨rfl, rfl, id⟩

/-- What a command may have done before it answers, by the unit its opcode belongs to (30_encoding.md R95). -/
inductive MovesWithin (op : BitVec 8) (s : State) : State → Prop
  | stateless (hop : op.toNat < 0x20) : MovesWithin op s s
  | container (hop : 0x20 ≤ op.toNat ∧ op.toNat ≤ 0x2C) {u : State} (m : ContainerMove s u) : MovesWithin op s u
  | reader (hop : 0x30 ≤ op.toNat ∧ op.toNat ≤ 0x35) {u : State} (m : ReaderMove s u) : MovesWithin op s u
  | writer (hop : 0x40 ≤ op.toNat) {u : State} (m : WriterMove s u) : MovesWithin op s u

theorem MovesWithin.inv {op : BitVec 8} {s u : State} (h : MovesWithin op s u) (hs : Inv s) : Inv u := by
  obtain ⟨hbc, hrd, hwr⟩ := hs
  cases h with
  | stateless => exact ⟨hbc, hrd, hwr⟩
  | container _ m => exact ⟨m.ok hbc, m.rd ▸ hrd, m.wr ▸ hwr⟩
  | reader _ m => exact ⟨m.bc ▸ hbc, m.ok hrd, m.wr ▸ hwr⟩
  | writer _ m => exact ⟨m.bc ▸ hbc, m.rd ▸ hrd, m.ok hwr⟩

/-! ## Commands that answer from a state (60_exceptions.md R280, R281) -/

/-- If the command goes on, it sent its one response from a state with the property. -/
def AnswersFrom (P : State → Prop) (r : Result) : Prop := ∀ t, r = .next t → ∃ u x, P u ∧ t = u.respond x

theorem answersFrom_answer {P : State → Prop} {s : State} (h : P s) (x : Response) : AnswersFrom P (answer x s) :=
  fun _ ht => ⟨s, x, h, (Host.Outcome.next.inj ht).symm⟩

/-- A check in front of a command: the command may use that the check let it through. -/
theorem answersFrom_ite {P : State → Prop} {c : Prop} [Decidable c] {r r' : Result} (h : AnswersFrom P r)
    (h' : ¬ c → AnswersFrom P r') : AnswersFrom P (if c then r else r') := by
  split
  · exact h
  next hc => exact h' hc

/-- A check in front of a command that raises from the state at its start. -/
theorem answersFrom_gate {P : State → Prop} {c : Prop} [Decidable c] {status : Status} {s : State} {r : Result}
    (hs : P s) (h : ¬ c → AnswersFrom P r) : AnswersFrom P (if c then raise status s else r) :=
  answersFrom_ite (answersFrom_answer hs _) h

/-- Two checks, one after the other. -/
theorem answersFrom_gates {P : State → Prop} {c c' : Prop} [Decidable c] [Decidable c'] {status status' : Status}
    {s : State} {r : Result} (hs : P s) (h : ¬ c → ¬ c' → AnswersFrom P r) :
    AnswersFrom P (if c then raise status s else if c' then raise status' s else r) :=
  answersFrom_gate hs fun hc => answersFrom_gate hs fun hc' => h hc hc'

theorem answersFrom_finishPull {P : State → Prop} {α : Type} {f : α → Response} {p : Pull α}
    (h : ∀ u, p.leaves u → P u) : AnswersFrom P (finishPull f p) := by
  intro t ht
  obtain ⟨u, x, hu, rfl⟩ := finishPull_next ht
  exact ⟨u, x, h u hu, rfl⟩

theorem answersFrom_finishPush {P : State → Prop} {p : Push} (h : P p.leaves) : AnswersFrom P (finishPush p) := by
  cases p <;> exact answersFrom_answer h _

theorem AnswersFrom.mono {P Q : State → Prop} {r : Result} (hPQ : ∀ u, P u → Q u) (h : AnswersFrom P r) :
    AnswersFrom Q r := by
  intro t ht
  obtain ⟨u, x, hu, rfl⟩ := h t ht
  exact ⟨u, x, hPQ u hu, rfl⟩

/-! ## The commands of each unit -/

theorem withContainer_answers {s : State} {c : Container} (h : containerOk s.bc → containerOk c) (x : Response) :
    AnswersFrom (ContainerMove s) (answer x (s.withContainer c)) :=
  answersFrom_answer ⟨rfl, rfl, rfl, h⟩ x

/-- A command of the container that reads a field: refused, or the cursor moves within the valid bits. -/
theorem containerRead_answers (f : FieldRead) (s : State) :
    AnswersFrom (ContainerMove s) (exec (containerRead f) s) := by
  cases f
  all_goals
    refine answersFrom_gates (.refl s) fun _ hfew => withContainer_answers (fun h => ?_) _
    exact withCursor_ok h (cursor_le_bitLength_of_not_fewerBits hfew)

/-- A command of the container that writes a field: refused, or the field ends within `MAXBITS`. -/
theorem containerWrite_answers (f : FieldWrite) (s : State) :
    AnswersFrom (ContainerMove s) (exec (containerWrite f) s) := by
  cases f with
  | narrow value n =>
    refine answersFrom_gates (.refl s) fun _ hmax => withContainer_answers (fun h => ?_) _
    exact bcPut_ok h (cursor_le_maxBits_of_not_pastMaxBits hmax) _
  | wide | tagged =>
    refine answersFrom_gates (.refl s) fun _ hmax => withContainer_answers (fun h => ?_) _
    exact bcPutWide_ok h (cursor_le_maxBits_of_not_pastMaxBits hmax) _

theorem bcLoad_answers (payload : List Byte) (s : State) : AnswersFrom (ContainerMove s) (execBcLoad payload s) :=
  answersFrom_gate (.refl s) fun hfits => withContainer_answers (fun _ => loadedContainer_ok (Nat.not_lt.mp hfits)) _

theorem bcSeek_answers (position : Word64) (s : State) : AnswersFrom (ContainerMove s) (execBcSeek position s) :=
  answersFrom_gate (.refl s) fun hwithin => withContainer_answers (fun h => withCursor_ok h (Nat.not_lt.mp hwithin)) _

theorem rdOpen_answers (cap : BitVec 32) (s : State) : AnswersFrom (ReaderMove s) (execRdOpen cap s) := by
  refine answersFrom_gates (.refl s) fun _ hcap => answersFrom_answer ⟨rfl, rfl, ?_⟩ _
  rintro ⟨hwf, -⟩
  exact ⟨hwf, fun _ =>
    ⟨askedCapacity_ok hcap, Nat.le_refl 0, Nat.zero_le _, Nat.zero_lt_succ 7, fun _ => rfl, fun _ => rfl⟩⟩

/-- A command of the reader that reads a field: refused, failing at once, or the state its bits leave. -/
theorem readerRead_answers (f : FieldRead) (s : State) : AnswersFrom (ReaderMove s) (exec (readerRead f) s) := by
  cases f
  all_goals
    refine answersFrom_gates (.refl s) fun _ _ =>
      answersFrom_ite (answersFrom_answer (.refl s) _) fun _ => answersFrom_finishPull fun u hu => ?_
  case narrow => exact rdGet_move hu
  case wide | tagged => exact rdGetWide_move hu

theorem rdClose_answers (s : State) : AnswersFrom (ReaderMove s) (execRdClose s) := by
  refine answersFrom_gate (.refl s) fun _ => ?_
  cases srcCloseAnswer s with
  | ok => exact answersFrom_answer ⟨rfl, rfl, fun ⟨hwf, _⟩ => ⟨hwf, fun ho => nomatch ho⟩⟩ _
  | err cause => exact answersFrom_answer ⟨rfl, rfl, id⟩ _

theorem wrOpen_answers (leave : Bool) (cap : BitVec 32) (s : State) :
    AnswersFrom (WriterMove s) (execWrOpen leave cap s) := by
  refine answersFrom_gates (.refl s) fun _ hcap => answersFrom_answer ⟨rfl, rfl, ?_⟩ _
  rintro ⟨hwf, -⟩
  exact writerOk_of_byte_start hwf rfl fun _ => ⟨askedCapacity_ok hcap, capacityOk_pos (askedCapacity_ok hcap)⟩

/-- A command of the writer that writes a field: refused, or what the field write leaves. -/
theorem writerWrite_answers (f : FieldWrite) (s : State) : AnswersFrom (WriterMove s) (exec (writerWrite f) s) := by
  cases f
  all_goals
    exact answersFrom_gates (.refl s) fun _ _ => answersFrom_finishPush (wrPut_move _ s)

/-- Closing: the pending bytes, then the sink, then the writer; each may be where it ends (44_writer.md R259). -/
theorem wrClose_answers (s : State) : AnswersFrom (WriterMove s) (execWrClose s) := by
  refine answersFrom_gate (.refl s) fun _ => ?_
  have hflush := flushSteps_move s
  cases e : flushSteps s with
  | ioError cause t => rw [e] at hflush; exact answersFrom_answer hflush _
  | done t =>
    rw [e] at hflush
    have hsink := closeSink_move t
    dsimp only
    cases e' : closeSink t with
    | ioError cause u =>
      rw [e'] at hsink
      exact answersFrom_answer ⟨hsink.bc.trans hflush.bc, hsink.rd.trans hflush.rd, hsink.ok ∘ hflush.ok⟩ _
    | done u =>
      rw [e'] at hsink
      refine answersFrom_answer ⟨hsink.bc.trans hflush.bc, hsink.rd.trans hflush.rd, fun h => ?_⟩ _
      obtain ⟨hwf, -⟩ := hsink.ok (hflush.ok h)
      exact ⟨hwf, fun ho => nomatch ho⟩

/-! ## Every command -/

theorem AnswersFrom.ofStateless {op : BitVec 8} {s : State} {r : Result} (h : AnswersFrom (Eq s) r)
    (hop : op.toNat < 0x20) : AnswersFrom (MovesWithin op s) r := h.mono fun _ (hu : s = _) => hu ▸ .stateless hop

theorem AnswersFrom.ofContainer {op : BitVec 8} {s : State} {r : Result} (h : AnswersFrom (ContainerMove s) r)
    (hop : 0x20 ≤ op.toNat ∧ op.toNat ≤ 0x2C) : AnswersFrom (MovesWithin op s) r := h.mono fun _ => .container hop

theorem AnswersFrom.ofReader {op : BitVec 8} {s : State} {r : Result} (h : AnswersFrom (ReaderMove s) r)
    (hop : 0x30 ≤ op.toNat ∧ op.toNat ≤ 0x35) : AnswersFrom (MovesWithin op s) r := h.mono fun _ => .reader hop

theorem AnswersFrom.ofWriter {op : BitVec 8} {s : State} {r : Result} (h : AnswersFrom (WriterMove s) r)
    (hop : 0x40 ≤ op.toNat) : AnswersFrom (MovesWithin op s) r := h.mono fun _ => .writer hop

/-- A command answers from a state in which only the unit of its opcode has moved (R28). -/
theorem exec_answers (i : Instr) (s : State) : AnswersFrom (MovesWithin (fieldsOfInstr i).op s) (exec i s) := by
  cases i with
  | wAdd | wSub | wAnd | wOr | wXor | wNot | wCmpU | wCmpS =>
    exact (answersFrom_answer rfl _).ofStateless (of_decide_eq_true rfl)
  | wShl | wShr | wSar | bvNewU | bvNewS | bvNewS128 | bvToU128 | bvToI64 | bvToI128 | bvEq =>
    exact (answersFrom_gate rfl fun _ => answersFrom_answer rfl _).ofStateless (of_decide_eq_true rfl)
  | bvToU64 =>
    exact (answersFrom_gates rfl fun _ _ => answersFrom_answer rfl _).ofStateless (of_decide_eq_true rfl)
  | bcClear => exact (withContainer_answers (fun _ => emptyContainer_ok) _).ofContainer (of_decide_eq_true rfl)
  | bcLoad payload => exact (bcLoad_answers payload s).ofContainer (of_decide_eq_true rfl)
  | bcWrite value n => exact (containerWrite_answers (.narrow value n) s).ofContainer (of_decide_eq_true rfl)
  | bcWrite128 value n => exact (containerWrite_answers (.wide value n) s).ofContainer (of_decide_eq_true rfl)
  | bcWriteV t => exact (containerWrite_answers (.tagged t) s).ofContainer (of_decide_eq_true rfl)
  | bcRead n => exact (containerRead_answers (.narrow n) s).ofContainer (of_decide_eq_true rfl)
  | bcRead128 n => exact (containerRead_answers (.wide n) s).ofContainer (of_decide_eq_true rfl)
  | bcReadV sgn n => exact (containerRead_answers (.tagged sgn n) s).ofContainer (of_decide_eq_true rfl)
  | bcSeek position => exact (bcSeek_answers position s).ofContainer (of_decide_eq_true rfl)
  | bcReset =>
    exact (withContainer_answers (fun h => withCursor_ok h (Nat.zero_le _)) _).ofContainer (of_decide_eq_true rfl)
  | bcAtEnd | bcStat | bcBytes => exact (answersFrom_answer (.refl s) _).ofContainer (of_decide_eq_true rfl)
  | rdOpen cap => exact (rdOpen_answers cap s).ofReader (of_decide_eq_true rfl)
  | rdRead n => exact (readerRead_answers (.narrow n) s).ofReader (of_decide_eq_true rfl)
  | rdRead128 n => exact (readerRead_answers (.wide n) s).ofReader (of_decide_eq_true rfl)
  | rdReadV sgn n => exact (readerRead_answers (.tagged sgn n) s).ofReader (of_decide_eq_true rfl)
  | rdAtEnd =>
    exact (answersFrom_gate (.refl s) fun _ => answersFrom_answer (.refl s) _).ofReader (of_decide_eq_true rfl)
  | rdClose => exact (rdClose_answers s).ofReader (of_decide_eq_true rfl)
  | wrOpen leave cap => exact (wrOpen_answers leave cap s).ofWriter (of_decide_eq_true rfl)
  | wrWrite value n => exact (writerWrite_answers (.narrow value n) s).ofWriter (of_decide_eq_true rfl)
  | wrWrite128 value n => exact (writerWrite_answers (.wide value n) s).ofWriter (of_decide_eq_true rfl)
  | wrWriteV t => exact (writerWrite_answers (.tagged t) s).ofWriter (of_decide_eq_true rfl)
  | wrFlush =>
    have hflush := answersFrom_finishPush (flushSteps_move s)
    exact (answersFrom_gate (.refl s) fun _ => hflush).ofWriter (of_decide_eq_true rfl)
  | wrClose => exact (wrClose_answers s).ofWriter (of_decide_eq_true rfl)

/-! ## The statements -/

theorem inv_of_reset_units {s : State} (hbc : s.bc = emptyContainer) (hrd : s.rd = closedReader)
    (hwr : s.wr = closedWriter) : Inv s :=
  ⟨hbc ▸ emptyContainer_ok, hrd ▸ closedReader_ok, hwr ▸ closedWriter_ok⟩

theorem exec_keeps_inv {i : Instr} {s t : State} (hs : Inv s) (ht : exec i s = .next t) : Inv t := by
  obtain ⟨u, x, hmoves, rfl⟩ := exec_answers i s t ht
  exact hmoves.inv hs

/-- Settles O11, by what the host presents: a command moves one unit and keeps its invariant, reset makes the units
anew, and an idle step or an illegal frame moves none. -/
theorem stepKeepsTheUnitInvariants : Obligations.StepKeepsTheUnitInvariants := by
  intro s t hs ht
  rcases hin : s.env.inbox with _ | ⟨frame | _, rest⟩
  · rw [step_of_idle hin] at ht
    cases ht
    exact hs
  · cases hd : decode frame with
    | error e =>
      rw [step_of_illegal_frame hin hd] at ht
      cases ht
      exact hs
    | ok i =>
      have htaken : Inv { s with env := { s.env with inbox := rest } } := hs
      rw [step_of_command hin hd] at ht
      exact exec_keeps_inv htaken ht
  · rw [step_of_reset hin] at ht
    cases ht
    exact inv_of_reset_units rfl rfl rfl

/-- Settles O14, by the unit that has moved before the response, which itself touches no unit and is no port call. -/
theorem unitsDoNotTouchEachOther : Obligations.UnitsDoNotTouchEachOther := by
  intro i s t ht
  obtain ⟨u, x, hmoves, rfl⟩ := exec_answers i s t ht
  simp only [respond_bc, respond_rd, respond_wr, respond_calls, respond_draws]
  cases hmoves with
  | stateless => exact ⟨fun _ => rfl, fun _ => rfl, fun _ => rfl, fun _ => ⟨rfl, rfl⟩⟩
  | container hop m =>
    exact ⟨fun hout => absurd hop hout, fun _ => m.rd, fun _ => m.wr, fun _ => by simp [m.env]⟩
  | reader hop m =>
    exact ⟨fun _ => m.bc, fun hout => absurd hop hout, fun _ => m.wr, fun hlow => by omega⟩
  | writer hop m =>
    exact ⟨fun _ => m.bc, fun _ => m.rd, fun hlow => by omega, fun hlow => by omega⟩

/-- Settles O9, field by field. -/
theorem resetLeavesTheSpecsValues : Obligations.ResetLeavesTheSpecsValues :=
  ⟨rfl, rfl, rfl, rfl, rfl, rfl, rfl, rfl⟩

/-- Settles O10: after reset the container is empty and the reader and the writer are not open. -/
theorem resetMeetsTheUnitInvariants : Obligations.ResetMeetsTheUnitInvariants :=
  inv_of_reset_units rfl rfl rfl

end Sys2Proof.Machine
end

section
/-! PROOFS. Windows of bytes: a window read as a number has the bits of the sequence, so `Extract` and `Deposit` are a
shift, a mask and a merge of the window that holds the field (20_memory.md R61, R63 to R65). -/

namespace Sys2Proof.Machine

/-! ## Bytes (R61) -/

theorem Memory.readBytes_add (m : Memory) (a j k : Nat) :
    m.readBytes a (j + k) = m.readBytes a j ++ m.readBytes (a + j) k := by
  induction j generalizing a with
  | zero => simp [Memory.readBytes]
  | succ j ih =>
    rw [Nat.succ_add, Memory.readBytes, ih, Memory.readBytes, List.cons_append, Nat.add_right_comm, Nat.add_assoc]

theorem Memory.readBytes_succ (m : Memory) (a k : Nat) : m.readBytes a (k + 1) = m.readBytes a k ++ [m.read (a + k)] :=
  Memory.readBytes_add m a k 1

theorem Memory.readBytes_congr {m m' : Memory} {a k : Nat} (h : ∀ c, a ≤ c → c < a + k → m.read c = m'.read c) :
    m.readBytes a k = m'.readBytes a k := by
  induction k generalizing a with
  | zero => rfl
  | succ k ih =>
    rw [Memory.readBytes, Memory.readBytes, h a le_rfl (by omega), ih fun c hc hk => h c (by omega) (by omega)]

/-- A window of bytes read as a number has the bits of the sequence from the window's first bit position. -/
theorem Memory.leValue_readBytes_testBit (m : Memory) (a k q : Nat) :
    (leValue (m.readBytes a k)).testBit q = (decide (q < 8 * k) && m.getBit (8 * a + q)) := by
  rw [leValue_testBit, List.getD_eq_getElem?_getD]
  by_cases hq : q < 8 * k
  · have hlen : q / 8 < (m.readBytes a k).length := by rw [Memory.readBytes_length]; omega
    rw [List.getElem?_eq_getElem hlen, Option.getD_some, Memory.readBytes_getElem, Memory.getBit,
      show (8 * a + q) / 8 = a + q / 8 by omega, show (8 * a + q) % 8 = q % 8 by omega]
    simp [hq]
  · have hlen : (m.readBytes a k).length ≤ q / 8 := by rw [Memory.readBytes_length]; omega
    simp [List.getElem?_eq_none hlen, hq]

theorem Memory.read_eq_of_getBit {m m' : Memory} {a : Nat}
    (h : ∀ j, j < 8 → m.getBit (8 * a + j) = m'.getBit (8 * a + j)) :
    m.read a = m'.read a := by
  refine BitVec.eq_of_getLsbD_eq fun j hj => ?_
  have hbit := h j hj
  rwa [Memory.getBit, Memory.getBit, show (8 * a + j) / 8 = a by omega, show (8 * a + j) % 8 = j by omega] at hbit

theorem Memory.read_setBit {m : Memory} (h : m.wf = true) (p : Nat) (b : Bool) (a : Nat) :
    (m.setBit p b).read a = if a = p / 8 then putBit (m.read (p / 8)) (p % 8) b else m.read a :=
  Memory.read_setBitOf h _ _ _ _

/-- `Deposit` leaves every byte that holds no bit of the field as it was (R64). -/
theorem Memory.read_deposit_outside {m : Memory} (h : m.wf = true) {p n a : Nat}
    (ha : 8 * a + 8 ≤ p ∨ p + n ≤ 8 * a) (v : Nat) : (m.deposit p n v).read a = m.read a :=
  Memory.read_eq_of_getBit fun j hj => by rw [Memory.getBit_deposit h, if_neg (by omega)]

/-! ## The window that holds a field (R65) -/

/-- `Extract` is a shift and a mask of any window that covers the field (R63, R65). -/
theorem Memory.extract_eq_window {m : Memory} {p n k : Nat} (hk : p % 8 + n ≤ 8 * k) :
    m.extract p n = leValue (m.readBytes (p / 8) k) / 2 ^ (p % 8) % 2 ^ n := by
  refine Nat.eq_of_testBit_eq fun i => ?_
  rw [Memory.extract_testBit, Nat.testBit_mod_two_pow, Nat.testBit_div_two_pow, Memory.leValue_readBytes_testBit]
  by_cases hi : i < n
  · simp [hi, show i + p % 8 < 8 * k by omega, show 8 * (p / 8) + (i + p % 8) = p + i by omega]
  · simp [hi]

/-- `Deposit` is a masked merge of any window that covers the field (R64, R65). -/
theorem Memory.deposit_eq_merge {m : Memory} (h : m.wf = true) {p n k w : Nat} (hk : p % 8 + n ≤ 8 * k) (v : Nat) :
    BitVec.ofNat w (leValue ((m.deposit p n v).readBytes (p / 8) k))
      = (BitVec.ofNat w (leValue (m.readBytes (p / 8) k)) &&& ~~~(BitVec.ofNat w (2 ^ n - 1) <<< (p % 8)))
        ||| (BitVec.ofNat w (v % 2 ^ n) <<< (p % 8)) := by
  refine BitVec.eq_of_getLsbD_eq fun i hi => ?_
  simp only [BitVec.getLsbD_ofNat, BitVec.getLsbD_or, BitVec.getLsbD_and, BitVec.getLsbD_not, BitVec.getLsbD_shiftLeft,
    Memory.leValue_readBytes_testBit, Memory.getBit_deposit h, Nat.testBit_two_pow_sub_one, Nat.testBit_mod_two_pow, hi,
    decide_true, Bool.true_and]
  by_cases hbelow : i < p % 8
  · simp [hbelow, show ¬ p ≤ 8 * (p / 8) + i by omega]
  by_cases hfield : i - p % 8 < n
  · simp [hbelow, hfield, show p ≤ 8 * (p / 8) + i ∧ 8 * (p / 8) + i < p + n by omega,
      show 8 * (p / 8) + i - p = i - p % 8 by omega, show i < 8 * k by omega, show i - p % 8 < w by omega]
  · simp [hfield, show ¬ 8 * (p / 8) + i < p + n by omega]

/-- Settles O46: the window is the bytes that hold the field, so it covers the field and no other byte changes. -/
theorem windowFormOfExtractAndDeposit : Obligations.WindowFormOfExtractAndDeposit := by
  intro m p n v hwf hn
  dsimp only
  have hcover : p % 8 + n ≤ 8 * ceil8 (p % 8 + n) := by unfold ceil8; omega
  refine ⟨fun h64 => ?_, ?_, Memory.extract_eq_window hcover, Memory.deposit_eq_merge hwf hcover v, fun a ha => ?_⟩
  · unfold ceil8; omega
  · unfold ceil8; omega
  · exact Memory.read_deposit_outside hwf (by omega) v

end Sys2Proof.Machine
end

section
/-! PROOFS. Fields and their slices: consecutive slices pack as one field, so the two segments of the 128-bit path do,
and every accepted field write of the container is one `BcPut` (20_memory.md R64, R70, R71, 42_container.md R184). -/

namespace Sys2Proof.Machine

/-! ## Slices of a field (R64) -/

/-- `Deposit` takes the low n bits of its value and no others. -/
theorem Memory.deposit_congr (m : Memory) (p : Nat) {n v w : Nat} (h : ∀ i, i < n → v.testBit i = w.testBit i) :
    m.deposit p n v = m.deposit p n w := by
  induction n generalizing m p v w with
  | zero => rfl
  | succ n ih =>
    rw [Memory.deposit, Memory.deposit, h 0 (Nat.zero_lt_succ n)]
    refine ih _ _ fun i hi => ?_
    rw [← Nat.testBit_succ, ← Nat.testBit_succ]
    exact h (i + 1) (by omega)

theorem Memory.deposit_add (m : Memory) (p j k v : Nat) :
    m.deposit p (j + k) v = (m.deposit p j v).deposit (p + j) k (v / 2 ^ j) := by
  induction j generalizing m p v with
  | zero => simp [Memory.deposit]
  | succ j ih =>
    rw [Nat.succ_add, Memory.deposit, ih, Memory.deposit, Nat.div_div_eq_div_mul, ← Nat.pow_succ', Nat.add_right_comm,
      Nat.add_assoc]

theorem truncate_getLsbD (value : Word128) (n i : Nat) :
    (truncate value n).getLsbD i = (decide (i < n) && value.getLsbD i) := by
  rw [truncate, BitVec.getLsbD_ofNat, Nat.testBit_mod_two_pow, BitVec.testBit_toNat]
  by_cases h128 : i < 128
  · simp [h128]
  · simp [h128, BitVec.getLsbD_of_ge value i (by omega)]

/-- The low half of the 128-bit path transfers bits 0 to 63 of the field (R70). -/
theorem truncate_low_testBit (value : Word128) {n i : Nat} (hi : i < n) (h64 : i < 64) :
    (truncate value n).low.toNat.testBit i = value.toNat.testBit i := by
  rw [BitVec.testBit_toNat, BitVec.testBit_toNat, Word128.low, BitVec.getLsbD_extractLsb', truncate_getLsbD]
  simp [h64, hi]

/-- The high half transfers bits 64 and up of the field (R70). -/
theorem truncate_high_testBit (value : Word128) {n i : Nat} (hi : i < n - 64) :
    (truncate value n).high.toNat.testBit i = (value.toNat / 2 ^ 64).testBit i := by
  rw [Nat.testBit_div_two_pow, BitVec.testBit_toNat, BitVec.testBit_toNat, Word128.high, BitVec.getLsbD_extractLsb',
    truncate_getLsbD, Nat.add_comm i 64]
  by_cases h64 : i < 64
  · simp [h64, show 64 + i < n by omega]
  · simp [h64, BitVec.getLsbD_of_ge value (64 + i) (by omega)]

/-! ## The container's field writes (42_container.md R184, R188) -/

theorem bcPut_congr {n v w : Nat} (h : ∀ i, i < n → v.testBit i = w.testBit i) (c : Container) :
    bcPut v n c = bcPut w n c := by
  rw [bcPut, bcPut, Memory.deposit_congr _ _ h]

/-- Two consecutive slices written one after the other are one field. -/
theorem bcPut_bcPut (v j k : Nat) (c : Container) : bcPut (v / 2 ^ j) k (bcPut v j c) = bcPut v (j + k) c := by
  have hlen : max (max c.bitLength (c.cursor + j)) (c.cursor + j + k) = max c.bitLength (c.cursor + (j + k)) := by omega
  rw [bcPut, bcPut, bcPut, Memory.deposit_add, hlen, Nat.add_assoc]

/-- The 128-bit path writes the low n bits of its value as one field (R70, R188). -/
theorem bcPutWide_eq_bcPut (value : Word128) (n : Nat) (c : Container) :
    bcPutWide value n c = bcPut value.toNat n c := by
  unfold bcPutWide
  dsimp only
  split
  next hn => exact bcPut_congr (fun i hi => truncate_low_testBit value hi (by omega)) c
  next hn =>
    rw [bcPut_congr (fun i hi => truncate_high_testBit value hi),
      bcPut_congr (fun i hi => truncate_low_testBit value (by omega) hi), bcPut_bcPut,
      Nat.add_sub_cancel' (by omega)]

theorem badCount_eq_false_iff (n : BitVec 8) (limit : Nat) :
    badCount n limit = false ↔ 1 ≤ n.toNat ∧ n.toNat ≤ limit := by
  simp only [badCount, Bool.or_eq_false_iff, decide_eq_false_iff_not]
  omega

/-- A width that a field write accepts is at most 128 (20_memory.md R68, R70, 41_bitvalue.md R152). -/
theorem writeWidth_le_of_accepted {f : FieldWrite} (h : writeAccepted f = true) : writeWidth f ≤ 128 := by
  cases f with
  | narrow value n =>
    obtain ⟨-, hle⟩ := (badCount_eq_false_iff n 64).mp (by simpa [writeAccepted] using h)
    exact hle.trans (by decide)
  | wide value n =>
    obtain ⟨-, hle⟩ := (badCount_eq_false_iff n 128).mp (by simpa [writeAccepted] using h)
    exact hle
  | tagged t =>
    obtain ⟨-, hle, -⟩ := (tokenWellFormed_iff t).mp h
    exact hle

/-- A field write that is accepted and ends within `MAXBITS` replaces the field at the cursor (R186, R188, R190). -/
theorem exec_containerWrite {f : FieldWrite} (hf : writeAccepted f = true) {s : State}
    (hmax : s.bc.cursor + writeWidth f ≤ Config.maxBits) :
    exec (containerWrite f) s
      = .next ((s.withContainer (bcPut (writeValue f) (writeWidth f) s.bc)).respond (okValue 0)) := by
  have hfits : pastMaxBits (writeWidth f) s.bc = false := by simpa [pastMaxBits] using hmax
  cases f with
  | narrow value n =>
    have hcount : badCount n 64 = false := by simpa [writeAccepted] using hf
    have hfits : pastMaxBits n.toNat s.bc = false := hfits
    simp [containerWrite, exec, execBcWrite, hcount, hfits, answer_eq, writeValue, writeWidth]
  | wide value n =>
    have hcount : badCount n 128 = false := by simpa [writeAccepted] using hf
    have hfits : pastMaxBits n.toNat s.bc = false := hfits
    simp [containerWrite, exec, execBcWrite128, hcount, hfits, answer_eq, writeValue, writeWidth, bcPutWide_eq_bcPut]
  | tagged t =>
    have hwf : tokenWellFormed t = true := hf
    have hfits : pastMaxBits t.n.toNat s.bc = false := hfits
    simp [containerWrite, exec, execBcWriteV, hwf, hfits, answer_eq, writeValue, writeWidth, bcPutWide_eq_bcPut]

/-! ## Sequences of commands -/

theorem execAll_cons_of_next {i : Instr} {s t : State} (h : exec i s = .next t) (is : List Instr) :
    execAll (i :: is) s = execAll is t := by
  rw [execAll, h]

theorem execAll_append_of_next {is : List Instr} {s t : State} (h : execAll is s = .next t) (js : List Instr) :
    execAll (is ++ js) s = execAll js t := by
  induction is generalizing s with
  | nil => cases h; rfl
  | cons i is ih =>
    cases e : exec i s with
    | next u =>
      rw [execAll_cons_of_next e] at h
      rw [List.cons_append, execAll_cons_of_next e, ih h]
    | fault r => rw [execAll, e] at h; cases h
    | refused r => rw [execAll, e] at h; cases h

/-! ## The statements -/

/-- Settles O45: both sides write the low n bits of the value as one field, the right one in two slices. -/
theorem splitFieldsPackAlike : Obligations.SplitFieldsPackAlike := by
  intro v j k n s _ hj hj64 hk hk64 hn hmax
  have hslice : ∀ w : Nat, ∀ i, i < 64 → (BitVec.ofNat 64 w).toNat.testBit i = w.testBit i := fun w i hi => by
    rw [BitVec.testBit_toNat, BitVec.getLsbD_ofNat, decide_eq_true hi, Bool.true_and]
  have hwhole : writeAccepted (.wide v n) = true := by
    simpa [writeAccepted] using (badCount_eq_false_iff n 128).mpr (by omega)
  have hlow : writeAccepted (.narrow (BitVec.ofNat 64 v.toNat) j) = true := by
    simpa [writeAccepted] using (badCount_eq_false_iff j 64).mpr ⟨hj, hj64⟩
  have hhigh : writeAccepted (.narrow (BitVec.ofNat 64 (v.toNat / 2 ^ j.toNat)) k) = true := by
    simpa [writeAccepted] using (badCount_eq_false_iff k 64).mpr ⟨hk, hk64⟩
  have hroom : s.bc.cursor + j.toNat ≤ Config.maxBits := by unfold Config.maxBits; omega
  have hroom' : s.bc.cursor + j.toNat + k.toNat ≤ Config.maxBits := by unfold Config.maxBits; omega
  refine ⟨_, _, exec_containerWrite hwhole hmax,
    (execAll_cons_of_next (exec_containerWrite hlow hroom) _).trans
      (execAll_cons_of_next (exec_containerWrite hhigh hroom') []), ?_⟩
  calc bcPut v.toNat n.toNat s.bc
      = bcPut (v.toNat / 2 ^ j.toNat) k.toNat (bcPut v.toNat j.toNat s.bc) := by rw [bcPut_bcPut, hn]
    _ = bcPut (BitVec.ofNat 64 (v.toNat / 2 ^ j.toNat)).toNat k.toNat
          (bcPut (BitVec.ofNat 64 v.toNat).toNat j.toNat s.bc) := by
        rw [bcPut_congr (fun i hi => hslice _ i (by omega)), bcPut_congr (fun i hi => hslice _ i (by omega))]

end Sys2Proof.Machine
end

section
/-! PROOFS. The writer in front of its sink makes the bytes that the container holds after the same field writes
(20_memory.md R84, 44_writer.md R260). -/

namespace Sys2Proof.Machine

/-! ## A field in the writer, whole (44_writer.md R255, R257) -/

/-- A run of bits takes the low n bits of its value and no others. -/
theorem wrBits_congr {n v w : Nat} (h : ∀ i, i < n → v.testBit i = w.testBit i) (s : State) :
    wrBits n v s = wrBits n w s := by
  induction n generalizing v w s with
  | zero => rfl
  | succ n ih =>
    have hrest : ∀ t, wrBits n (v / 2) t = wrBits n (w / 2) t := fun t => ih (fun i hi => by
      rw [← Nat.testBit_succ, ← Nat.testBit_succ]; exact h (i + 1) (by omega)) t
    rw [wrBits, wrBits, h 0 (Nat.zero_lt_succ n)]
    simp only [hrest]

theorem wrSegments_singleton (v n : Nat) (s : State) : wrSegments [(v, n)] s = wrBits n v s := by
  unfold wrSegments
  cases wrBits n v s <;> rfl

/-- Two consecutive slices are one run of bits. -/
theorem wrSegments_pair (v j k : Nat) (s : State) :
    wrSegments [(v, j), (v / 2 ^ j, k)] s = wrBits (j + k) v s := by
  induction j generalizing v s with
  | zero => rw [Nat.zero_add, pow_zero, Nat.div_one, ← wrSegments_singleton]; rfl
  | succ j ih =>
    rw [Nat.succ_add, wrBits, wrSegments, wrBits]
    cases wrBit (v.testBit 0) s with
    | ioError cause t => rfl
    | done t =>
      dsimp only
      rw [← ih, wrSegments, Nat.div_div_eq_div_mul, ← Nat.pow_succ']

/-- The segments of the 128-bit path are the low n bits of the value in one run (20_memory.md R70). -/
theorem wrSegments_wideSegments (value : Word128) (n : Nat) (s : State) :
    wrSegments (wideSegments value n) s = wrBits n value.toNat s := by
  unfold wideSegments
  dsimp only
  split
  next hn =>
    rw [wrSegments_singleton]
    exact wrBits_congr (fun i hi => truncate_low_testBit value hi (by omega)) s
  next hn =>
    have hlow := fun t => wrBits_congr (fun i hi => truncate_low_testBit value (n := n) (i := i) (by omega) hi) t
    have hhigh := fun t => wrBits_congr (fun i hi => truncate_high_testBit value (n := n) (i := i) hi) t
    calc wrSegments [((truncate value n).low.toNat, 64), ((truncate value n).high.toNat, n - 64)] s
        = wrSegments [(value.toNat, 64), (value.toNat / 2 ^ 64, n - 64)] s := by simp only [wrSegments, hlow, hhigh]
      _ = wrBits n value.toNat s := by rw [wrSegments_pair, Nat.add_sub_cancel' (by omega)]

/-- A field write that is accepted and whose bits all go in answers `OK` (R254 to R256). -/
theorem exec_writerWrite {f : FieldWrite} (hf : writeAccepted f = true) {s t : State} (hopen : s.wr.opened = true)
    (hbits : wrBits (writeWidth f) (writeValue f) s = .done t) :
    exec (writerWrite f) s = .next (t.respond (okValue 0)) := by
  have hput : ∀ segments, wrSegments segments s = wrBits (writeWidth f) (writeValue f) s →
      finishPush (wrPut segments s) = .next (t.respond (okValue 0)) := fun segments h => by
    rw [wrPut, h, hbits]; rfl
  cases f with
  | narrow value n =>
    have hcount : badCount n 64 = false := by simpa [writeAccepted] using hf
    have hnarrow := hput [(value.toNat, n.toNat)] (wrSegments_singleton _ _ s)
    simpa [writerWrite, exec, execWrWrite, hopen, hcount] using hnarrow
  | wide value n =>
    have hcount : badCount n 128 = false := by simpa [writeAccepted] using hf
    simpa [writerWrite, exec, execWrWrite128, hopen, hcount] using hput _ (wrSegments_wideSegments value n.toNat s)
  | tagged t =>
    have hwf : tokenWellFormed t = true := hf
    simpa [writerWrite, exec, execWrWriteV, hopen, hwf] using hput _ (wrSegments_wideSegments t.ext t.n.toNat s)

/-! ## The writer just opened (R251) -/

/-- The writer after an open command, which leaves the bytes of its buffer (log 18). -/
def openedWriter (leave : Bool) (cap : BitVec 32) (w : Writer) : Writer :=
  { w with opened := true, capacity := askedCapacity cap, leaveOpen := leave, bytePos := 0, bitPos := 0 }

theorem exec_wrOpen {s : State} (hclosed : s.wr.opened = false) {cap : BitVec 32}
    (hcap : Config.capMin ≤ askedCapacity cap) (leave : Bool) :
    exec (.wrOpen leave cap) s
      = .next (({ s with wr := openedWriter leave cap s.wr } : State).respond (okValue 0)) := by
  rw [exec, execWrOpen, hclosed, if_neg Bool.false_ne_true, if_neg (Nat.not_lt.mpr hcap), answer_eq, openedWriter]

theorem openedWriter_ok {w : Writer} (hwf : w.buf.wf = true) {cap : BitVec 32}
    (hcap : Config.capMin ≤ askedCapacity cap) (leave : Bool) : writerOk (openedWriter leave cap w) := by
  have hroom : capacityOk (askedCapacity cap) := askedCapacity_ok (Nat.not_lt.mpr hcap)
  exact writerOk_of_byte_start hwf rfl fun _ => ⟨hroom, capacityOk_pos hroom⟩

/-! ## The flush before a sink that accepts (R258) -/

@[simp] theorem afterHandOver_sinkFlushTape (s : State) :
    (afterHandOver s).env.sinkFlushTape = s.env.sinkFlushTape := by
  unfold afterHandOver; split <;> rfl

theorem sinkFlushAnswer_of_tape {s : State} (h : s.env.sinkFlushTape.head? = some .ok) : sinkFlushAnswer s = .ok := by
  obtain ⟨rest, htape⟩ := List.head?_eq_some_iff.mp h
  rw [sinkFlushAnswer, htape]; rfl

theorem flushSteps_of_accepting {s : State} (hwrite : sinkWriteAnswer s = .ok)
    (hflush : s.env.sinkFlushTape.head? = some .ok) :
    flushSteps s = .done (afterSinkFlush { afterHandOver s with wr := emptiedWriter s.wr }) := by
  rcases flushPending_eq s with ⟨cause, -, herr, -⟩ | ⟨-, e⟩
  · rw [hwrite] at herr; cases herr
  · rw [flushSteps, e]
    dsimp only
    rw [sinkFlushAnswer_of_tape (by simpa using hflush)]

theorem exec_wrFlush_of_accepting {s : State} (hopen : s.wr.opened = true) (hwrite : sinkWriteAnswer s = .ok)
    (hflush : s.env.sinkFlushTape.head? = some .ok) :
    exec .wrFlush s
      = .next ((afterSinkFlush { afterHandOver s with wr := emptiedWriter s.wr }).respond (okValue 0)) := by
  rw [exec, execWrFlush, flushSteps_of_accepting hwrite hflush, hopen]; rfl

/-! ## The byte being filled (R257) -/

/-- The bits of a byte begun and not yet full: a byte is clean before its first bit. -/
def pendingByte (w : Writer) : Byte := if w.bitPos = 0 then 0 else w.buf.read w.bytePos

theorem placeBit_read {w : Writer} (hwf : w.buf.wf = true) (b : Bool) (a : Nat) :
    (placeBit b w).buf.read a = if a = w.bytePos then putBit (pendingByte w) w.bitPos b else w.buf.read a := by
  unfold placeBit pendingByte
  dsimp only
  split
  · rw [Memory.read_setBitOf (Memory.write_wf hwf _ _), Memory.read_write hwf, if_pos rfl, Memory.read_write hwf]
    split <;> rfl
  · rw [Memory.read_setBitOf hwf]

/-! ## The simulation -/

theorem sunkBytes_append (xs ys : List PortCall) : sunkBytes (xs ++ ys) = sunkBytes xs ++ sunkBytes ys := by
  induction xs with
  | nil => rfl
  | cons x xs ih =>
    cases x with
    | sinkWrite bytes answer =>
      cases answer with
      | ok => simp [sunkBytes, ih]
      | err cause => exact ih
    | srcRead | srcClose | sinkFlush | sinkClose => exact ih

theorem sunkBytes_handOverCalls (s : State) : sunkBytes (handOverCalls s) = unsentBytes s.wr := by
  unfold handOverCalls
  split
  next hnone => exact hnone.symm
  next => exact List.append_nil _

/-- The bytes the sink has taken by `calls` and the buffer of `w` hold the first `p` bits of `m`, which has no bits
beyond: `full` are the bytes completed, `pending` is the byte begun. -/
structure Mirrors (calls : List PortCall) (m : Memory) (p : Nat) (w : Writer) : Prop where
  full : sunkBytes calls ++ w.buf.readBytes 0 w.bytePos = m.readBytes 0 (p / 8)
  pending : pendingByte w = m.read (p / 8)
  bitPos : w.bitPos = p % 8
  memory : m.wf = true
  beyond : ∀ a, p ≤ 8 * a → m.read a = 0

/-- Since `base` the block has made `calls`, and the sink accepts what is on its tape: room for `budget` bits in full
buffers, those of `calls` included. -/
structure SinkTakes (base : List PortCall) (budget : Nat) (calls : List PortCall) (s : State) : Prop where
  record : s.env.calls = base ++ calls
  accepts : ∀ a ∈ s.env.sinkWriteTape, a = .ok
  room : budget ≤ 8 * ((sunkBytes calls).length + s.wr.capacity * s.env.sinkWriteTape.length)
  flush : s.env.sinkFlushTape.head? = some .ok

section
variable {base calls : List PortCall} {budget p : Nat} {m : Memory} {w : Writer} {s t : State}

/-- Nothing taken, nothing pending, no bit set. -/
theorem mirrors_nothing (hbyte : w.bytePos = 0) (hbit : w.bitPos = 0) : Mirrors [] [] 0 w where
  full := by simp [sunkBytes, hbyte, Memory.readBytes]
  pending := by simp [pendingByte, hbit, Memory.read, Memory.blank]
  bitPos := hbit
  memory := rfl
  beyond _ _ := rfl

theorem Mirrors.length (h : Mirrors calls m p w) : (sunkBytes calls).length + w.bytePos = p / 8 := by
  have hlen := congrArg List.length h.full
  simpa using hlen

/-- What the sink has and what is pending are the bytes of `m` up to bit `p`, a partial byte included (R258). -/
theorem Mirrors.stream (h : Mirrors calls m p w) : sunkBytes calls ++ unsentBytes w = m.readBytes 0 (ceil8 p) := by
  have hbit := h.bitPos
  unfold unsentBytes pendingBytes
  by_cases h0 : w.bitPos = 0
  · rw [if_neg (by omega), show ceil8 p = p / 8 by unfold ceil8; omega]
    exact h.full
  · have hbyte : w.buf.read w.bytePos = m.read (p / 8) := by rw [← h.pending, pendingByte, if_neg h0]
    rw [if_pos (by omega), show ceil8 p = p / 8 + 1 by unfold ceil8; omega, Memory.readBytes_succ,
      Memory.readBytes_succ, ← List.append_assoc, h.full, Nat.zero_add, Nat.zero_add, hbyte]

/-- A bit placed in the writer's buffer is the same bit set in `m`; `y` and `i` are the writer's position one bit on. -/
theorem Mirrors.place (h : Mirrors calls m p w) (hwf : w.buf.wf = true) (b : Bool) {y i : Nat}
    (hnext : (w.bitPos + 1 = 8 ∧ y = w.bytePos + 1 ∧ i = 0) ∨
      (w.bitPos + 1 ≠ 8 ∧ y = w.bytePos ∧ i = w.bitPos + 1)) :
    Mirrors calls (m.setBit p b) (p + 1) { placeBit b w with bitPos := i, bytePos := y } := by
  have hbit := h.bitPos
  have hplaced : (placeBit b w).buf.read w.bytePos = (m.setBit p b).read (p / 8) := by
    rw [placeBit_read hwf, if_pos rfl, Memory.read_setBit h.memory, if_pos rfl, h.pending, hbit]
  have hfull : sunkBytes calls ++ (placeBit b w).buf.readBytes 0 w.bytePos = (m.setBit p b).readBytes 0 (p / 8) := by
    have hbuf : (placeBit b w).buf.readBytes 0 w.bytePos = w.buf.readBytes 0 w.bytePos :=
      Memory.readBytes_congr fun c _ hc => by rw [placeBit_read hwf, if_neg (by omega)]
    have hmem : (m.setBit p b).readBytes 0 (p / 8) = m.readBytes 0 (p / 8) :=
      Memory.readBytes_congr fun c _ hc => by rw [Memory.read_setBit h.memory, if_neg (by omega)]
    rw [hbuf, hmem, h.full]
  have hbeyond : ∀ a, p + 1 ≤ 8 * a → (m.setBit p b).read a = 0 := fun a ha => by
    rw [Memory.read_setBit h.memory, if_neg (by omega), h.beyond a (by omega)]
  rcases hnext with ⟨h8, rfl, rfl⟩ | ⟨h8, rfl, rfl⟩
  · have hbyte : (p + 1) / 8 = p / 8 + 1 := by omega
    refine ⟨?_, ?_, show 0 = (p + 1) % 8 by omega, Memory.setBit_wf h.memory p b, hbeyond⟩
    · rw [hbyte, Memory.readBytes_succ, Memory.readBytes_succ, ← List.append_assoc, Nat.zero_add, Nat.zero_add,
        hfull, hplaced]
    · exact (hbeyond _ (by omega)).symm
  · have hbyte : (p + 1) / 8 = p / 8 := by omega
    refine ⟨?_, ?_, show w.bitPos + 1 = (p + 1) % 8 by omega, Memory.setBit_wf h.memory p b, hbeyond⟩
    · rw [hbyte]; exact hfull
    · rw [hbyte]; exact hplaced

/-- The sink has taken the full buffer, and the writer starts again at its first byte (R253). -/
theorem Mirrors.handOver (h : Mirrors calls m p w) (hbit : w.bitPos = 0) :
    Mirrors (calls ++ [.sinkWrite (w.buf.readBytes 0 w.bytePos) .ok]) m p { w with bytePos := 0 } := by
  refine ⟨?_, ?_, h.bitPos, h.memory, h.beyond⟩
  · rw [← h.full, sunkBytes_append]
    simp [sunkBytes, Memory.readBytes]
  · rw [← h.pending, pendingByte, pendingByte, if_pos hbit, if_pos hbit]

/-- While the sink has taken less than its budget it has an answer for the next buffer, and the answer is `Ok`. -/
theorem SinkTakes.tape (h : SinkTakes base budget calls s) (hmore : 8 * (sunkBytes calls).length < budget) :
    ∃ rest, s.env.sinkWriteTape = .ok :: rest := by
  have hroom := h.room
  cases htape : s.env.sinkWriteTape with
  | nil => rw [htape, List.length_nil] at hroom; omega
  | cons a rest => exact ⟨rest, by rw [h.accepts a (by simp [htape])]⟩

theorem SinkTakes.answer (h : SinkTakes base budget calls s) (hmore : 8 * (sunkBytes calls).length < budget) :
    sinkWriteAnswer s = .ok := by
  obtain ⟨rest, htape⟩ := h.tape hmore
  rw [sinkWriteAnswer, htape]; rfl

/-- What the sink will take does not depend on the units but for the writer's capacity, nor on the responses. -/
theorem SinkTakes.congr (h : SinkTakes base budget calls s) (hcalls : t.env.calls = s.env.calls)
    (hwrite : t.env.sinkWriteTape = s.env.sinkWriteTape) (hflush : t.env.sinkFlushTape = s.env.sinkFlushTape)
    (hcap : t.wr.capacity = s.wr.capacity) : SinkTakes base budget calls t :=
  ⟨hcalls.trans h.record, hwrite ▸ h.accepts, hwrite ▸ hcap ▸ h.room, hflush ▸ h.flush⟩

/-- A buffer of the writer's capacity taken by the sink uses one answer up. -/
theorem SinkTakes.afterSinkWrite (h : SinkTakes base budget calls s) (hmore : 8 * (sunkBytes calls).length < budget)
    {bytes : List Byte} (hlen : bytes.length = s.wr.capacity) :
    SinkTakes base budget (calls ++ [.sinkWrite bytes .ok]) (afterSinkWrite s bytes) := by
  obtain ⟨rest, htape⟩ := h.tape hmore
  refine ⟨?_, fun a ha => h.accepts a (List.mem_of_mem_tail ha), ?_, h.flush⟩
  · rw [afterSinkWrite_calls, h.record, h.answer hmore, List.append_assoc]
  · have hroom := h.room
    rw [htape, List.length_cons, Nat.mul_succ] at hroom
    rw [sunkBytes_append, List.length_append, afterSinkWrite_sinkWriteTape, afterSinkWrite_wr, htape, List.tail_cons]
    simp only [sunkBytes, List.append_nil, hlen]
    omega

/-- A buffer just filled is handed over to a sink that accepts it (R253). -/
theorem flushFull_mirrors (h : Mirrors calls m p s.wr) (htakes : SinkTakes base budget calls s)
    (hend : s.wr.bytePos = s.wr.capacity) (hbit : s.wr.bitPos = 0) (hmore : 8 * (sunkBytes calls).length < budget) :
    ∃ calls' t, flushFull s = .done t ∧ Mirrors calls' m p t.wr ∧ SinkTakes base budget calls' t := by
  rcases flushFull_cases s with ⟨cause, herr, -⟩ | ⟨-, e⟩
  · rw [htakes.answer hmore] at herr; cases herr
  · rw [← hend] at e
    have htaken := htakes.afterSinkWrite hmore (bytes := s.wr.buf.readBytes 0 s.wr.bytePos) (by simp [hend])
    exact ⟨_, _, e, h.handOver hbit, htaken.congr rfl rfl rfl rfl⟩

theorem wrBit_mirrors (h : Mirrors calls m p s.wr) (htakes : SinkTakes base budget calls s) (hok : writerOk s.wr)
    (hmore : p < budget) (b : Bool) :
    ∃ calls' t, wrBit b s = .done t ∧ Mirrors calls' (m.setBit p b) (p + 1) t.wr ∧
      SinkTakes base budget calls' t := by
  obtain ⟨hwf, -⟩ := hok
  have hlen := h.length
  rcases wrBit_cases b s with ⟨h8, hend, e⟩ | ⟨h8, -, e⟩ | ⟨h8, e⟩
  · rw [e]
    exact flushFull_mirrors (h.place hwf b (.inl ⟨h8, rfl, rfl⟩)) (htakes.congr rfl rfl rfl rfl) hend rfl (by omega)
  · exact ⟨calls, _, e, h.place hwf b (.inl ⟨h8, rfl, rfl⟩), htakes.congr rfl rfl rfl rfl⟩
  · exact ⟨calls, _, e, h.place hwf b (.inr ⟨h8, rfl, rfl⟩), htakes.congr rfl rfl rfl rfl⟩

/-- A run of bits into the writer is the `Deposit` of the field, whatever buffers fill on the way (R257, R64). -/
theorem wrBits_mirrors {n : Nat} (h : Mirrors calls m p s.wr) (htakes : SinkTakes base budget calls s)
    (hok : writerOk s.wr) (hmore : p + n ≤ budget) (v : Nat) :
    ∃ calls' t, wrBits n v s = .done t ∧ Mirrors calls' (m.deposit p n v) (p + n) t.wr ∧
      SinkTakes base budget calls' t := by
  induction n generalizing calls m p v s with
  | zero => exact ⟨calls, s, rfl, h, htakes⟩
  | succ n ih =>
    obtain ⟨calls', t, e, h', htakes'⟩ := wrBit_mirrors h htakes hok (by omega) (v.testBit 0)
    obtain ⟨calls'', u, e', h'', htakes''⟩ := ih h' htakes' (wrBit_ok hok e) (by omega) (v / 2)
    refine ⟨calls'', u, ?_, ?_, htakes''⟩
    · rw [wrBits, e]; exact e'
    · rw [Memory.deposit, show p + (n + 1) = p + 1 + n by omega]; exact h''

end

/-! ## Field by field -/

/-- The container of `s` stands at the end of its bits, and the open writer of `t` and its sink hold the same bits. -/
structure InStep (base : List PortCall) (budget : Nat) (calls : List PortCall) (s t : State) : Prop where
  mirrors : Mirrors calls s.bc.storage s.bc.cursor t.wr
  takes : SinkTakes base budget calls t
  ok : writerOk t.wr
  opened : t.wr.opened = true
  atEnd : s.bc.bitLength = s.bc.cursor

section
variable {base calls : List PortCall} {budget : Nat} {s t : State}

theorem fieldWrite_inStep (h : InStep base budget calls s t) {f : FieldWrite} (hf : writeAccepted f = true)
    (hmax : s.bc.cursor + writeWidth f ≤ Config.maxBits) (hmore : s.bc.cursor + writeWidth f ≤ budget) :
    ∃ calls' s' t', exec (containerWrite f) s = .next s' ∧ exec (writerWrite f) t = .next t' ∧
      InStep base budget calls' s' t' ∧ s'.bc.cursor = s.bc.cursor + writeWidth f := by
  obtain ⟨calls', u, hbits, hmirrors, htakes⟩ := wrBits_mirrors h.mirrors h.takes h.ok hmore (writeValue f)
  have houtside := wrBits_leaves (R := OutsideWriter) .refl .trans wrBit_outside (writeWidth f) (writeValue f) t
  rw [hbits] at houtside
  have hok : writerOk u.wr := wrBits_ok h.ok hbits
  refine ⟨calls', _, _, exec_containerWrite hf hmax, exec_writerWrite hf h.opened hbits,
    ⟨hmirrors, htakes.congr rfl rfl rfl rfl, hok, houtside.opened.trans h.opened, ?_⟩, rfl⟩
  show max s.bc.bitLength (s.bc.cursor + writeWidth f) = s.bc.cursor + writeWidth f
  rw [h.atEnd]; omega

theorem fieldWrites_inStep {fs : List FieldWrite} (h : InStep base budget calls s t)
    (hfs : ∀ f ∈ fs, writeAccepted f = true) (hmax : s.bc.cursor + (fs.map writeWidth).sum ≤ Config.maxBits)
    (hmore : s.bc.cursor + (fs.map writeWidth).sum ≤ budget) :
    ∃ calls' s' t', execAll (fs.map containerWrite) s = .next s' ∧ execAll (fs.map writerWrite) t = .next t' ∧
      InStep base budget calls' s' t' ∧ s'.bc.cursor = s.bc.cursor + (fs.map writeWidth).sum := by
  induction fs generalizing calls s t with
  | nil => exact ⟨calls, s, t, rfl, rfl, h, rfl⟩
  | cons f fs ih =>
    rw [List.map_cons, List.sum_cons] at hmax hmore
    obtain ⟨hf, hrest⟩ := List.forall_mem_cons.mp hfs
    obtain ⟨_, s₁, t₁, es, et, h₁, hcur⟩ := fieldWrite_inStep h hf (by omega) (by omega)
    obtain ⟨calls', s₂, t₂, es', et', h₂, hcur'⟩ := ih h₁ hrest (by omega) (by omega)
    refine ⟨calls', s₂, t₂, ?_, ?_, h₂, ?_⟩
    · rw [List.map_cons, execAll_cons_of_next es, es']
    · rw [List.map_cons, execAll_cons_of_next et, et']
    · rw [List.map_cons, List.sum_cons]; omega

/-- `WR_FLUSH` hands over what is pending, and the sink then has the container's bytes (R258, 42_container.md R196). -/
theorem wrFlush_inStep (h : InStep base budget calls s t) (hmore : s.bc.cursor < budget) :
    ∃ calls' u, exec .wrFlush t = .next u ∧ u.env.calls = base ++ calls' ∧
      sunkBytes calls' = s.bc.storage.readBytes 0 (containerBytes s.bc) := by
  have hlen := h.mirrors.length
  have hwrite : sinkWriteAnswer t = .ok := h.takes.answer (by omega)
  refine ⟨calls ++ handOverCalls t ++ [.sinkFlush .ok], _,
    exec_wrFlush_of_accepting h.opened hwrite h.takes.flush, ?_, ?_⟩
  · rw [respond_calls, afterSinkFlush_calls, sinkFlushAnswer_of_tape (by simpa using h.takes.flush)]
    show (afterHandOver t).env.calls ++ _ = _
    rw [afterHandOver_calls (.inr hwrite), h.takes.record, List.append_assoc, List.append_assoc, List.append_assoc]
  · rw [containerBytes, h.atEnd, ← h.mirrors.stream, sunkBytes_append, sunkBytes_append, sunkBytes_handOverCalls]
    exact List.append_nil _

/-- A container just cleared and a writer just opened are in step: neither has a bit. -/
theorem opened_inStep {cap : BitVec 32} (hwf : s.wr.buf.wf = true) (hcap : Config.capMin ≤ askedCapacity cap)
    (hwrites : ∀ a ∈ s.env.sinkWriteTape, a = .ok) (hflush : s.env.sinkFlushTape.head? = some .ok) (leave : Bool) :
    InStep s.env.calls (8 * (askedCapacity cap * s.env.sinkWriteTape.length)) []
      ((s.withContainer emptyContainer).respond (okValue 0))
      (({ s with wr := openedWriter leave cap s.wr } : State).respond (okValue 0)) where
  mirrors := mirrors_nothing rfl rfl
  takes := ⟨(List.append_nil _).symm, hwrites, by simp [sunkBytes, openedWriter], hflush⟩
  ok := openedWriter_ok hwf hcap leave
  opened := rfl
  atEnd := rfl

end

theorem sum_writeWidth_le {fs : List FieldWrite} (hfs : ∀ f ∈ fs, writeAccepted f = true) :
    (fs.map writeWidth).sum ≤ 128 * fs.length := by
  induction fs with
  | nil => exact Nat.le_refl 0
  | cons f fs ih =>
    obtain ⟨hf, hrest⟩ := List.forall_mem_cons.mp hfs
    have hwidth := writeWidth_le_of_accepted hf
    have hsum := ih hrest
    rw [List.map_cons, List.sum_cons, List.length_cons]
    omega

/-- Settles O60, by running the container and the writer in step: a field has at most 128 bits and a buffer at least
128, so with more answers on its tape than there are fields the sink has one for every full buffer and for the flush. -/
theorem streamingAgreesWithInMemory : Obligations.StreamingAgreesWithInMemory := by
  intro fs leave cap s hclosed hwf hcap hfs hmax hwrites htape hflush
  have hbudget : (fs.map writeWidth).sum < 8 * (askedCapacity cap * s.env.sinkWriteTape.length) := by
    have hsum := sum_writeWidth_le hfs
    have hroom : 16 * s.env.sinkWriteTape.length ≤ askedCapacity cap * s.env.sinkWriteTape.length :=
      Nat.mul_le_mul_right _ hcap
    omega
  have hclear : exec .bcClear s = .next ((s.withContainer emptyContainer).respond (okValue 0)) := rfl
  have hopen := exec_wrOpen hclosed hcap leave
  have hstart := opened_inStep hwf hcap hwrites hflush leave
  have hcur : ((s.withContainer emptyContainer).respond (okValue 0)).bc.cursor = 0 := rfl
  obtain ⟨calls, t, w, et, ew, hend, hlast⟩ := fieldWrites_inStep hstart hfs
    (by rw [hcur, Nat.zero_add]; exact hmax) (by rw [hcur, Nat.zero_add]; exact hbudget.le)
  obtain ⟨calls', u, eu, hcalls, hsunk⟩ := wrFlush_inStep hend (by rw [hlast, hcur, Nat.zero_add]; exact hbudget)
  refine ⟨t, u, calls', ?_, ?_, hcalls, hsunk⟩
  · rw [execAll_cons_of_next hclear, et]
  · rw [execAll_cons_of_next hopen, execAll_append_of_next ew, execAll_cons_of_next eu]; rfl

end Sys2Proof.Machine
end

section
/-! PROOFS. Command frames and the commands they carry: the fields of a frame as numbers, the opcode map both ways, and
when a frame decodes (30_encoding.md R91, R94 to R97). -/

namespace Sys2Proof

/-! ## The fields of a frame (R91) -/

theorem leValue_take (k : Nat) (xs : List Byte) : leValue (xs.take k) = leValue xs % 256 ^ k := by
  induction xs generalizing k with
  | nil => simp [leValue]
  | cons x xs ih =>
    cases k with
    | zero => simp [leValue, Nat.mod_one]
    | succ k =>
      have hx : x.toNat < 256 := x.isLt
      rw [List.take_succ_cons, leValue, leValue, ih, pow_succ', Nat.mod_mul, Nat.add_mul_mod_self_left,
        Nat.mod_eq_of_lt hx, Nat.add_mul_div_left _ _ (by decide), Nat.div_eq_of_lt hx, Nat.zero_add]

/-- The command word is as long in bytes as in bits (R91). -/
theorem pow_wordBytes : 256 ^ wordBytes = 2 ^ 288 := by
  rw [wordBytes, show (256 : Nat) = 2 ^ 8 from rfl, ← pow_mul]

theorem ofNat_mod_two_pow (w v : Nat) : BitVec.ofNat w (v % 2 ^ w) = BitVec.ofNat w v :=
  BitVec.eq_of_toNat_eq (by rw [BitVec.toNat_ofNat, BitVec.toNat_ofNat, Nat.mod_mod])

theorem fieldsOfFrame_eq (frame : List Byte) :
    fieldsOfFrame frame = fieldsOfWord (BitVec.ofNat 288 (leValue frame)) := by
  rw [fieldsOfFrame, leValue_take, pow_wordBytes, ofNat_mod_two_pow]

theorem toNat_extractLsb'_ofNat {s l w : Nat} (h : s + l ≤ w) (v : Nat) :
    ((BitVec.ofNat w v).extractLsb' s l).toNat = v / 2 ^ s % 2 ^ l := by
  apply Nat.eq_of_testBit_eq
  intro i
  rw [BitVec.extractLsb'_toNat, BitVec.toNat_ofNat]
  by_cases hi : i < l
  · simp [hi, Nat.testBit_mod_two_pow, Nat.testBit_div_two_pow, show s + i < w by omega, Nat.add_comm]
  · simp [hi, Nat.testBit_mod_two_pow]

theorem fieldsOfFrame_op_toNat (frame : List Byte) : (fieldsOfFrame frame).op.toNat = leValue frame % 256 := by
  have hop := toNat_extractLsb'_ofNat (s := 0) (l := 8) (w := 288) (by decide) (leValue frame)
  rw [fieldsOfFrame_eq, fieldsOfWord, hop, pow_zero, Nat.div_one]
  rfl

theorem fieldsOfFrame_payloadLength (frame : List Byte) :
    payloadLength (fieldsOfFrame frame) = leValue frame / 2 ^ 32 % 2 ^ 64 := by
  have ha := toNat_extractLsb'_ofNat (s := 32) (l := 128) (w := 288) (by decide) (leValue frame)
  rw [fieldsOfFrame_eq, payloadLength, Word128.low, BitVec.extractLsb'_toNat, fieldsOfWord, ha]
  omega

/-- The length a frame must have, from the frame read as a number (R94). -/
theorem requiredLength_fieldsOfFrame (frame : List Byte) :
    requiredLength (fieldsOfFrame frame)
      = if leValue frame % 256 = 0x21 then 36 + leValue frame / 2 ^ 32 % 2 ^ 64 else 36 := by
  simp only [requiredLength, ← BitVec.toNat_inj, fieldsOfFrame_op_toNat, fieldsOfFrame_payloadLength]
  rfl

theorem wordBytes_le_requiredLength (x : Fields) : wordBytes ≤ requiredLength x := by
  unfold requiredLength
  split <;> omega

theorem requiredLength_of_not_load {x : Fields} (h : x.op.toNat ≠ 0x21) : requiredLength x = wordBytes :=
  if_neg fun hop => h (congrArg BitVec.toNat hop)

/-- The opcode is the first byte of a frame (R91). -/
theorem take_one_eq_op {frame : List Byte} (h : wordBytes ≤ frame.length) :
    frame.take 1 = [(fieldsOfFrame frame).op] := by
  cases frame with
  | nil => exact absurd h (by decide)
  | cons b bs =>
    have hop : (fieldsOfFrame (b :: bs)).op = b := by
      have hb : b.toNat < 256 := b.isLt
      apply BitVec.eq_of_toNat_eq
      rw [fieldsOfFrame_op_toNat, leValue]
      omega
    rw [hop, List.take_succ_cons, List.take_zero]

/-- A frame that begins with the word of some fields has those fields. -/
theorem fieldsOfFrame_word (x : Fields) (payload : List Byte) :
    fieldsOfFrame (leBytes wordBytes (wordOfFields x).toNat ++ payload) = x := by
  rw [fieldsOfFrame, List.take_left' (leBytes_length _ _), leValue_leBytes, pow_wordBytes,
    Nat.mod_eq_of_lt (wordOfFields x).isLt, BitVec.ofNat_toNat, BitVec.setWidth_eq, fieldsOfWord_wordOfFields]

theorem fieldsOfFrame_encode (i : Instr) : fieldsOfFrame (encode i) = fieldsOfInstr i := fieldsOfFrame_word _ _

theorem encode_length (i : Instr) : (encode i).length = wordBytes + (payloadOfInstr i).length := by
  rw [encode, List.length_append, leBytes_length]

theorem drop_wordBytes_encode (i : Instr) : (encode i).drop wordBytes = payloadOfInstr i :=
  List.drop_left' (leBytes_length _ _)

/-! ## The opcode map (R95, R97) -/

/-- The 44 opcodes of the map, range by range (R95). -/
def OpcodeAssigned (op : Nat) : Prop :=
  (0x01 ≤ op ∧ op ≤ 0x0B) ∨ (0x10 ≤ op ∧ op ≤ 0x17) ∨ (0x20 ≤ op ∧ op ≤ 0x2C) ∨ (0x30 ≤ op ∧ op ≤ 0x35) ∨
    (0x40 ≤ op ∧ op ≤ 0x45)

theorem exists_instrOfFields_iff (x : Fields) (payload : List Byte) :
    (∃ i, instrOfFields x payload = some i) ↔ OpcodeAssigned x.op.toNat := by
  unfold instrOfFields OpcodeAssigned
  split
  case h_45 =>
    simp only [imp_false] at *
    exact iff_of_false (by simp) (by omega)
  all_goals next hop => simp [hop]

/-- A row of the map gives a command of the same opcode, and only `BC_LOAD` takes the payload (R94, R95). -/
theorem op_payload_of_instrOfFields {x : Fields} {payload : List Byte} {i : Instr}
    (h : instrOfFields x payload = some i) :
    (fieldsOfInstr i).op.toNat = x.op.toNat ∧ payloadOfInstr i = if x.op.toNat = 0x21 then payload else [] := by
  unfold instrOfFields at h
  split at h
  case h_45 => cases h
  all_goals next hop => cases h; rw [hop]; exact ⟨rfl, rfl⟩

/-- The command word of a well-formed command reads back as that command and requires its length (R94 to R96). -/
theorem fieldsRoundTrip : ∀ i : Instr, Laws.FieldsRoundTrip.Statement i
  | .wAdd x y => Laws.FieldsRoundTrip.wAdd x y
  | .wSub x y => Laws.FieldsRoundTrip.wSub x y
  | .wAnd x y => Laws.FieldsRoundTrip.wAnd x y
  | .wOr x y => Laws.FieldsRoundTrip.wOr x y
  | .wXor x y => Laws.FieldsRoundTrip.wXor x y
  | .wNot x => Laws.FieldsRoundTrip.wNot x
  | .wShl x amount => Laws.FieldsRoundTrip.wShl x amount
  | .wShr x amount => Laws.FieldsRoundTrip.wShr x amount
  | .wSar x amount => Laws.FieldsRoundTrip.wSar x amount
  | .wCmpU x y => Laws.FieldsRoundTrip.wCmpU x y
  | .wCmpS x y => Laws.FieldsRoundTrip.wCmpS x y
  | .bvNewU value n => Laws.FieldsRoundTrip.bvNewU value n
  | .bvNewS value n => Laws.FieldsRoundTrip.bvNewS value n
  | .bvNewS128 value n => Laws.FieldsRoundTrip.bvNewS128 value n
  | .bvToU64 t => Laws.FieldsRoundTrip.bvToU64 t
  | .bvToU128 t => Laws.FieldsRoundTrip.bvToU128 t
  | .bvToI64 t => Laws.FieldsRoundTrip.bvToI64 t
  | .bvToI128 t => Laws.FieldsRoundTrip.bvToI128 t
  | .bvEq t u => Laws.FieldsRoundTrip.bvEq t u
  | .bcClear => Laws.FieldsRoundTrip.bcClear
  | .bcLoad payload => Laws.FieldsRoundTrip.bcLoad payload
  | .bcWrite value n => Laws.FieldsRoundTrip.bcWrite value n
  | .bcRead n => Laws.FieldsRoundTrip.bcRead n
  | .bcWrite128 value n => Laws.FieldsRoundTrip.bcWrite128 value n
  | .bcRead128 n => Laws.FieldsRoundTrip.bcRead128 n
  | .bcWriteV t => Laws.FieldsRoundTrip.bcWriteV t
  | .bcReadV sgn n => Laws.FieldsRoundTrip.bcReadV sgn n
  | .bcSeek position => Laws.FieldsRoundTrip.bcSeek position
  | .bcReset => Laws.FieldsRoundTrip.bcReset
  | .bcAtEnd => Laws.FieldsRoundTrip.bcAtEnd
  | .bcStat => Laws.FieldsRoundTrip.bcStat
  | .bcBytes => Laws.FieldsRoundTrip.bcBytes
  | .rdOpen cap => Laws.FieldsRoundTrip.rdOpen cap
  | .rdRead n => Laws.FieldsRoundTrip.rdRead n
  | .rdRead128 n => Laws.FieldsRoundTrip.rdRead128 n
  | .rdReadV sgn n => Laws.FieldsRoundTrip.rdReadV sgn n
  | .rdAtEnd => Laws.FieldsRoundTrip.rdAtEnd
  | .rdClose => Laws.FieldsRoundTrip.rdClose
  | .wrOpen leave cap => Laws.FieldsRoundTrip.wrOpen leave cap
  | .wrWrite value n => Laws.FieldsRoundTrip.wrWrite value n
  | .wrWrite128 value n => Laws.FieldsRoundTrip.wrWrite128 value n
  | .wrWriteV t => Laws.FieldsRoundTrip.wrWriteV t
  | .wrFlush => Laws.FieldsRoundTrip.wrFlush
  | .wrClose => Laws.FieldsRoundTrip.wrClose

theorem wellFormed_iff (i : Instr) : i.wellFormed = true ↔ (payloadOfInstr i).length < 2 ^ 64 := by
  cases i <;> simp [Instr.wellFormed, payloadOfInstr]

/-! ## Decoding (R94, R97) -/

/-- All that decoding tests: the frame's length, and its opcode. A frame shorter than a word has not the length. -/
theorem decode_eq_ok_iff {frame : List Byte} {i : Instr} :
    decode frame = .ok i ↔ frame.length = requiredLength (fieldsOfFrame frame) ∧
      instrOfFields (fieldsOfFrame frame) (frame.drop wordBytes) = some i := by
  have hmin := wordBytes_le_requiredLength (fieldsOfFrame frame)
  unfold decode
  split
  · next hshort => exact iff_of_false (by simp) fun ⟨hlen, _⟩ => by omega
  · by_cases hlen : frame.length = requiredLength (fieldsOfFrame frame)
    · cases hi : instrOfFields (fieldsOfFrame frame) (frame.drop wordBytes) <;> simp [hlen, hi]
    · simp [hlen]

theorem decodable_iff (frame : List Byte) :
    (∃ i, decode frame = .ok i) ↔ frame.length = requiredLength (fieldsOfFrame frame) ∧
      OpcodeAssigned (leValue frame % 256) := by
  simp only [decode_eq_ok_iff, exists_and_left, exists_instrOfFields_iff, fieldsOfFrame_op_toNat]

/-- A frame's bytes after the word are its command's payload: `BC_LOAD` takes them all, and after the word of any other
command the length leaves none (R94). -/
theorem drop_eq_payload_of_decode {frame : List Byte} {i : Instr} (h : decode frame = .ok i) :
    frame.drop wordBytes = payloadOfInstr i := by
  obtain ⟨hlen, hinstr⟩ := decode_eq_ok_iff.mp h
  obtain ⟨-, hpayload⟩ := op_payload_of_instrOfFields hinstr
  by_cases hload : (fieldsOfFrame frame).op.toNat = 0x21
  · rw [hpayload, if_pos hload]
  · rw [requiredLength_of_not_load hload] at hlen
    rw [hpayload, if_neg hload, List.drop_of_length_le hlen.le]

theorem wellFormed_of_decode {frame : List Byte} {i : Instr} (h : decode frame = .ok i) : i.wellFormed = true := by
  obtain ⟨hlen, -⟩ := decode_eq_ok_iff.mp h
  have hlow : payloadLength (fieldsOfFrame frame) < 2 ^ 64 := BitVec.isLt _
  rw [wellFormed_iff, ← drop_eq_payload_of_decode h, List.length_drop, hlen, requiredLength]
  split <;> omega

/-! ## The statements -/

/-- Settles O2: the fields and the payload come back from the frame, and the opcode map reads its own encoder. -/
theorem decodeOfEncodeIsTheCommand : Obligations.DecodeOfEncodeIsTheCommand := by
  intro i hi
  obtain ⟨hinstr, hlen⟩ := fieldsRoundTrip i hi
  rw [decode_eq_ok_iff, fieldsOfFrame_encode, drop_wordBytes_encode, encode_length]
  exact ⟨hlen.symm, hinstr⟩

/-- Settles O3, by reading the required length off the frame as a number. -/
theorem decodableFramesAreThoseOfTheMap : Obligations.DecodableFramesAreThoseOfTheMap := by
  intro frame
  have hiff := decodable_iff frame
  rwa [requiredLength_fieldsOfFrame] at hiff

/-- Settles O4: the first byte is the opcode, which the map keeps, and the rest is the payload. -/
theorem decodedFrameCarriesTheCommand : Obligations.DecodedFrameCarriesTheCommand := by
  intro frame i h
  obtain ⟨hlen, hinstr⟩ := decode_eq_ok_iff.mp h
  obtain ⟨hop, -⟩ := op_payload_of_instrOfFields hinstr
  have hword : wordBytes ≤ frame.length := hlen ▸ wordBytes_le_requiredLength _
  have hdrop := drop_eq_payload_of_decode h
  refine ⟨wellFormed_of_decode h, ?_, ?_, hdrop⟩
  · rw [encode_length, ← hdrop, List.length_drop]
    omega
  · rw [take_one_eq_op hword, take_one_eq_op (by rw [encode_length]; omega), fieldsOfFrame_encode,
      BitVec.eq_of_toNat_eq hop]

theorem decode_of_eq_encode {frame : List Byte} {i : Instr} (hi : i.wellFormed = true) (h : frame = encode i) :
    decode frame = .ok i :=
  h ▸ decodeOfEncodeIsTheCommand i hi

/-- Settles O1: each listed word is, byte for byte, the encoding of the command it names. -/
theorem listedFramesDecodeToTheirCommands : Obligations.ListedFramesDecodeToTheirCommands :=
  ⟨decode_of_eq_encode rfl (by decide), decode_of_eq_encode rfl (by decide),
    decode_of_eq_encode rfl (by decide), decode_of_eq_encode rfl (by decide),
    decode_of_eq_encode rfl (by decide)⟩

end Sys2Proof
end

section
/-! PROOFS. Response frames (30_encoding.md R92, R98), and what a step does with the frame the host presents (R90, R94,
R97). -/

namespace Sys2Proof.Machine

theorem toNat_append_eq_add {v w : Nat} (x : BitVec v) (y : BitVec w) :
    (x ++ y).toNat = 2 ^ w * x.toNat + y.toNat := by
  rw [BitVec.toNat_append, ← Nat.shiftLeft_add_eq_or_of_lt y.isLt, Nat.shiftLeft_eq, Nat.mul_comm]

theorem flagByte_toNat (b : Bool) : (flagByte b).toNat = b.toNat := by cases b <;> rfl

/-- The response word as a number, field by field; `z` adds nothing (R92). -/
theorem responseWord_toNat (x : Response) :
    (responseWord x).toNat
      = (statusCode x.status).toNat + 2 ^ 8 * x.n.toNat + 2 ^ 16 * x.sgn.toNat + 2 ^ 32 * x.r.toNat := by
  simp only [responseWord, toNat_append_eq_add, flagByte_toNat, BitVec.toNat_ofNat]
  ring

/-- Settles O5: the word's 160 bits are the frame's first 20 bytes. -/
theorem encodedResponseHasTheRspLayout : Obligations.EncodedResponseHasTheRspLayout := by
  refine ⟨fun x => ⟨?_, ?_, ?_⟩, rfl, rfl, rfl, rfl, rfl, rfl⟩
  · rw [responseFrame, List.length_append, leBytes_length]
  · exact List.drop_left' (leBytes_length _ _)
  · have hfits : (responseWord x).toNat < 256 ^ 20 := (responseWord x).isLt
    rw [responseFrame, List.take_left' (leBytes_length _ _), leValue_leBytes, Nat.mod_eq_of_lt hfits,
      responseWord_toNat]

/-- Settles O6, as the case of a step whose frame decodes. -/
theorem stepRunsTheDecodedCommand : Obligations.StepRunsTheDecodedCommand :=
  fun _ _ _ _ hin hd => step_of_command hin hd

/-- Settles O7: a frame outside the map decodes to no command (O3), and a step rejects what does not decode. -/
theorem illegalFrameIsRejectedWhole : Obligations.IllegalFrameIsRejectedWhole := by
  intro s frame rest hin w op hbad
  have hnone : ¬ ∃ i, decode frame = .ok i := by
    intro hok
    obtain ⟨hlen, hop⟩ := (decodableFramesAreThoseOfTheMap frame).mp hok
    rcases hbad with hbad | hbad
    · exact hbad hlen
    · omega
  cases hd : decode frame with
  | ok i => exact absurd ⟨i, hd⟩ hnone
  | error e => exact step_of_illegal_frame hin hd

end Sys2Proof.Machine
end

section
/-! PROOFS. The wide-integer unit (40_wide_integer.md R121 to R132): each word-by-word meaning is one operation on the
128-bit value, by its two words' numbers for sums and comparisons, by its two words' bits for the rest. -/

namespace Sys2Proof.Machine

/-! ## The two words of a wide integer (10_state.md R24) -/

theorem getLsbD_high (x : Word128) (i : Nat) : x.high.getLsbD i = x.getLsbD (64 + i) := by
  rw [Word128.high, BitVec.getLsbD_extractLsb']
  by_cases hi : i < 64
  · rw [decide_eq_true hi, Bool.true_and]
  · rw [decide_eq_false hi, Bool.false_and, BitVec.getLsbD_of_ge _ _ (by omega)]

theorem getLsbD_low (x : Word128) {i : Nat} (hi : i < 64) : x.low.getLsbD i = x.getLsbD i := by
  simp [Word128.low, hi]

/-- A wide integer is known by the bits of its two words. -/
theorem ofPair_eq_of_getLsbD {high low : Word64} {r : Word128}
    (hlow : ∀ i, i < 64 → low.getLsbD i = r.getLsbD i)
    (hhigh : ∀ i, i < 64 → high.getLsbD i = r.getLsbD (64 + i)) : Word128.ofPair high low = r := by
  apply BitVec.eq_of_getLsbD_eq
  intro i hi
  rw [Word128.ofPair, BitVec.getLsbD_append]
  split
  · next h => exact hlow i h
  · rw [hhigh (i - 64) (by omega), show 64 + (i - 64) = i by omega]

theorem ofPair_high_low (x : Word128) : Word128.ofPair x.high x.low = x :=
  ofPair_eq_of_getLsbD (fun _ hi => getLsbD_low x hi) (fun i _ => getLsbD_high x i)

theorem toNat_ofPair (high low : Word64) : (Word128.ofPair high low).toNat = 2 ^ 64 * high.toNat + low.toNat :=
  toNat_append_eq_add high low

theorem toNat_eq_words (x : Word128) : x.toNat = 2 ^ 64 * x.high.toNat + x.low.toNat := by
  rw [← toNat_ofPair, ofPair_high_low]

/-- The signed reading takes its sign from the high word alone. -/
theorem toInt_eq_words (x : Word128) : x.toInt = 2 ^ 64 * x.high.toInt + x.low.toNat := by
  have happend : (Word128.ofPair x.high x.low).toInt = 2 ^ 64 * x.high.toInt + x.low.toNat := BitVec.toInt_append
  rwa [ofPair_high_low] at happend

/-- The sign bit is the high word's sign bit. -/
theorem msb_high (x : Word128) : x.high.msb = x.getLsbD 127 := by
  rw [BitVec.msb_eq_getLsbD_last, getLsbD_high]

/-! ## Sum and difference (R122, R123) -/

/-- The carry of the low words makes the sum of the words the sum of the values. -/
theorem wideAdd_eq (x y : Word128) : wideAdd x y = x + y := by
  have hx := toNat_eq_words x
  have hy := toNat_eq_words y
  apply BitVec.eq_of_toNat_eq
  rw [wideAdd, toNat_ofPair, carryOut, BitVec.toNat_ofNat, BitVec.toNat_add, BitVec.toNat_add]
  omega

/-- The borrow of the low words makes the difference of the words the difference of the values. -/
theorem wideSub_eq (x y : Word128) : wideSub x y = x - y := by
  have hx := toNat_eq_words x
  have hy := toNat_eq_words y
  apply BitVec.eq_of_toNat_eq
  rw [wideSub, toNat_ofPair, borrowOut]
  split <;> simp only [BitVec.toNat_sub, BitVec.toNat_ofNat] <;> omega

theorem ofInt_sub_toNat (x y : Word128) : BitVec.ofInt 128 ((x.toNat : Int) - y.toNat) = x - y := by
  apply BitVec.eq_of_toInt_eq
  rw [BitVec.toInt_ofInt, BitVec.toInt_sub, BitVec.toInt_eq_toNat_bmod x, BitVec.toInt_eq_toNat_bmod y,
    Int.bmod_sub_bmod, Int.sub_bmod_bmod]

/-! ## Bitwise operations (R124 to R127) -/

/-- An operation that acts on each bit of a word acts on each bit of the value. -/
theorem wideBitwise_getLsbD {op : Word64 → Word64 → Word64} {f : Bool → Bool → Bool}
    (hop : ∀ a b i, i < 64 → (op a b).getLsbD i = f (a.getLsbD i) (b.getLsbD i)) (x y : Word128) {i : Nat}
    (hi : i < 128) : (wideBitwise op x y).getLsbD i = f (x.getLsbD i) (y.getLsbD i) := by
  rw [wideBitwise, Word128.ofPair, BitVec.getLsbD_append]
  split
  · next hlow => rw [hop _ _ _ hlow, getLsbD_low x hlow, getLsbD_low y hlow]
  · have hhigh : i - 64 < 64 := by omega
    rw [hop _ _ _ hhigh, getLsbD_high, getLsbD_high, show 64 + (i - 64) = i by omega]

/-! ## Shifts (R128 to R130) -/

/-- The bits a shift by less than a word takes across the border of the two words. -/
theorem getLsbD_across (x : Word128) {s i : Nat} (hs : s ≤ 64) (hi : i < 64) :
    ((x.low >>> s) ||| (x.high <<< (64 - s))).getLsbD i = x.getLsbD (s + i) := by
  rw [BitVec.getLsbD_or, BitVec.getLsbD_ushiftRight, BitVec.getLsbD_shiftLeft, getLsbD_high]
  by_cases h : s + i < 64
  · simp [getLsbD_low x h, show i < 64 - s by omega]
  · simp [BitVec.getLsbD_of_ge x.low (s + i) (by omega), hi, show ¬ i < 64 - s by omega,
      show 64 + (i - (64 - s)) = s + i by omega]

/-- A shift by a word or more moves one word into the other; so for the next two. -/
theorem wideShl_of_le (x : Word128) {s : Nat} (hs : 64 ≤ s) :
    wideShl x s = Word128.ofPair (x.low <<< (s - 64)) 0 := by
  rw [wideShl, if_neg (by omega), if_neg (by omega)]
  split
  · next h => rw [h, BitVec.shiftLeft_zero]
  · rfl

theorem wideShr_of_le (x : Word128) {s : Nat} (hs : 64 ≤ s) :
    wideShr x s = Word128.ofPair 0 (x.high >>> (s - 64)) := by
  rw [wideShr, if_neg (by omega), if_neg (by omega)]
  split
  · next h => rw [h, BitVec.ushiftRight_zero]
  · rfl

theorem wideSar_of_le (x : Word128) {s : Nat} (hs : 64 ≤ s) :
    wideSar x s = Word128.ofPair (signWord x) (x.high.sshiftRight (s - 64)) := by
  rw [wideSar, if_neg (by omega), if_neg (by omega)]
  split
  · next h => rw [h, BitVec.sshiftRight_zero]
  · rfl

theorem getLsbD_signWord (x : Word128) {i : Nat} (hi : i < 64) : (signWord x).getLsbD i = x.getLsbD 127 := by
  unfold signWord
  split
  · next h => rw [BitVec.getLsbD_allOnes, decide_eq_true hi, h]
  · next h => rw [eq_false_of_ne_true h]; exact BitVec.getLsbD_zero

theorem wideShl_eq (x : Word128) (s : Nat) : wideShl x s = x <<< s := by
  obtain rfl | hpos := Nat.eq_zero_or_pos s
  · rw [BitVec.shiftLeft_zero]
    rfl
  obtain hlarge | hsmall := le_or_gt 64 s
  · rw [wideShl_of_le x hlarge]
    refine ofPair_eq_of_getLsbD (fun i hi => ?_) (fun i hi => ?_)
    · simp [show i < s by omega]
    · rw [BitVec.getLsbD_shiftLeft, BitVec.getLsbD_shiftLeft, getLsbD_low x (by omega)]
      simp only [hi, show 64 + i < 128 by omega, show 64 + i < s ↔ i < s - 64 by omega,
        show 64 + i - s = i - (s - 64) by omega]
  · rw [wideShl, if_neg hpos.ne', if_pos hsmall]
    refine ofPair_eq_of_getLsbD (fun i hi => ?_) (fun i hi => ?_)
    · rw [BitVec.getLsbD_shiftLeft, BitVec.getLsbD_shiftLeft, getLsbD_low x (by omega)]
      simp only [hi, show i < 128 by omega]
    · have hacross := getLsbD_across x (s := 64 - s) (by omega) hi
      rw [show 64 - (64 - s) = s by omega, BitVec.or_comm] at hacross
      rw [hacross, BitVec.getLsbD_shiftLeft, decide_eq_true (by omega), decide_eq_false (by omega),
        show 64 - s + i = 64 + i - s by omega]
      rfl

theorem wideShr_eq (x : Word128) (s : Nat) : wideShr x s = x >>> s := by
  obtain rfl | hpos := Nat.eq_zero_or_pos s
  · rw [BitVec.ushiftRight_zero]
    rfl
  obtain hlarge | hsmall := le_or_gt 64 s
  · rw [wideShr_of_le x hlarge]
    refine ofPair_eq_of_getLsbD (fun i hi => ?_) (fun i hi => ?_)
    · rw [BitVec.getLsbD_ushiftRight, BitVec.getLsbD_ushiftRight, getLsbD_high,
        show 64 + (s - 64 + i) = s + i by omega]
    · rw [BitVec.getLsbD_ushiftRight, BitVec.getLsbD_of_ge x _ (by omega)]
      exact BitVec.getLsbD_zero
  · rw [wideShr, if_neg hpos.ne', if_pos hsmall]
    refine ofPair_eq_of_getLsbD (fun i hi => ?_) (fun i hi => ?_)
    · rw [getLsbD_across x (by omega) hi, BitVec.getLsbD_ushiftRight]
    · rw [BitVec.getLsbD_ushiftRight, BitVec.getLsbD_ushiftRight, getLsbD_high, Nat.add_left_comm]

/-- The bits of an arithmetic shift: those `s` places above, then copies of the sign bit (R130). -/
theorem getLsbD_sshiftRight_wide (x : Word128) (s : Nat) {i : Nat} (hi : i < 128) :
    (x.sshiftRight s).getLsbD i = if i + s ≤ 127 then x.getLsbD (i + s) else x.getLsbD 127 := by
  rw [BitVec.getLsbD_sshiftRight, decide_eq_false (by omega), BitVec.msb_eq_getLsbD_last, Nat.add_comm s i]
  simp only [show i + s < 128 ↔ i + s ≤ 127 by omega, Bool.not_false, Bool.true_and]

/-- An arithmetic shift of the high word copies the sign bit of the value. -/
theorem getLsbD_high_sshiftRight (x : Word128) (s : Nat) {i : Nat} (hi : i < 64) :
    (x.high.sshiftRight s).getLsbD i = if i + s < 64 then x.getLsbD (64 + i + s) else x.getLsbD 127 := by
  rw [BitVec.getLsbD_sshiftRight, decide_eq_false (by omega), msb_high, getLsbD_high, Nat.add_comm s i,
    ← Nat.add_assoc]
  rfl

theorem wideSar_eq (x : Word128) (s : Nat) : wideSar x s = x.sshiftRight s := by
  obtain rfl | hpos := Nat.eq_zero_or_pos s
  · rw [BitVec.sshiftRight_zero]
    rfl
  obtain hlarge | hsmall := le_or_gt 64 s
  · rw [wideSar_of_le x hlarge]
    refine ofPair_eq_of_getLsbD (fun i hi => ?_) (fun i hi => ?_)
    · rw [getLsbD_high_sshiftRight x _ hi, getLsbD_sshiftRight_wide x s (by omega)]
      simp only [show i + (s - 64) < 64 ↔ i + s ≤ 127 by omega, show 64 + i + (s - 64) = i + s by omega]
    · rw [getLsbD_signWord x hi, getLsbD_sshiftRight_wide x s (by omega), if_neg (by omega)]
  · rw [wideSar, if_neg hpos.ne', if_pos hsmall]
    refine ofPair_eq_of_getLsbD (fun i hi => ?_) (fun i hi => ?_)
    · rw [getLsbD_across x (by omega) hi, getLsbD_sshiftRight_wide x s (by omega), if_pos (by omega), Nat.add_comm]
    · rw [getLsbD_high_sshiftRight x s hi, getLsbD_sshiftRight_wide x s (by omega)]
      simp only [show 64 + i + s ≤ 127 ↔ i + s < 64 by omega]

theorem toInt_sshiftRight_eq_fdiv (x : Word128) (s : Nat) : (x.sshiftRight s).toInt = Int.fdiv x.toInt (2 ^ s) := by
  rw [BitVec.toInt_sshiftRight, Int.shiftRight_eq_div_pow, Int.fdiv_eq_ediv_of_nonneg _ (by positivity), Nat.cast_pow,
    Nat.cast_ofNat]

/-- A shift command by less than the width answers its function (R121). -/
theorem shiftBy_of_lt (f : Word128 → Nat → Word128) (x : Word128) {amount : BitVec 8} (h : amount.toNat < 128)
    (s : State) : shiftBy f x amount s = .next (s.respond (okValue (f x amount.toNat))) := by
  rw [shiftBy, badShift, decide_eq_false (by omega)]
  rfl

/-- A shift command by the width or more is refused (R121). -/
theorem shiftBy_of_le (f : Word128 → Nat → Word128) (x : Word128) {amount : BitVec 8} (h : 128 ≤ amount.toNat)
    (s : State) : shiftBy f x amount s = .next (s.respond (failed .illegalCommand)) := by
  rw [shiftBy, badShift, decide_eq_true h]
  rfl

/-! ## Comparisons (R131, R132) -/

/-- Comparing the high words, then the low words as unsigned numbers, orders the values that the pairs stand for. -/
theorem orderCode_lexicographic {a b X Y : Int} {l m : Nat} (hl : l < 2 ^ 64) (hm : m < 2 ^ 64)
    (hX : X = 2 ^ 64 * a + l) (hY : Y = 2 ^ 64 * b + m) :
    (if a = b then orderCode (decide (l < m)) (decide (l = m)) else orderCode (decide (a < b)) false)
      = if X = Y then 0 else if X < Y then 1 else 2 := by
  unfold orderCode
  split
  · next h =>
    simp only [decide_eq_true_eq, show X = Y ↔ l = m by omega, show X < Y ↔ l < m by omega]
  · next h =>
    rw [if_neg (show X ≠ Y by omega)]
    simp only [decide_eq_true_eq, show X < Y ↔ a < b by omega]
    rfl

theorem compareUnsigned_eq (x y : Word128) :
    compareUnsigned x y = if x.toNat = y.toNat then 0 else if x.toNat < y.toNat then 1 else 2 := by
  have hx : (x.toNat : Int) = 2 ^ 64 * x.high.toNat + x.low.toNat := by exact_mod_cast toNat_eq_words x
  have hy : (y.toNat : Int) = 2 ^ 64 * y.high.toNat + y.low.toNat := by exact_mod_cast toNat_eq_words y
  simpa only [compareUnsigned, Nat.cast_inj, Nat.cast_lt, BitVec.toNat_inj, beq_eq_decide] using
    orderCode_lexicographic x.low.isLt y.low.isLt hx hy

theorem compareSigned_eq (x y : Word128) :
    compareSigned x y = if x.toInt = y.toInt then 0 else if x.toInt < y.toInt then 1 else 2 := by
  simpa only [compareSigned, BitVec.toInt_inj, BitVec.toNat_inj, beq_eq_decide] using
    orderCode_lexicographic x.low.isLt y.low.isLt (toInt_eq_words x) (toInt_eq_words y)

/-! ## What the commands answer (R120) -/

theorem exec_wAdd (x y : Word128) (s : State) : exec (.wAdd x y) s = .next (s.respond (okValue (wideAdd x y))) := rfl

theorem exec_wSub (x y : Word128) (s : State) : exec (.wSub x y) s = .next (s.respond (okValue (wideSub x y))) := rfl

theorem exec_wShl (x : Word128) (amount : BitVec 8) (s : State) :
    exec (.wShl x amount) s = shiftBy wideShl x amount s := rfl

theorem exec_wShr (x : Word128) (amount : BitVec 8) (s : State) :
    exec (.wShr x amount) s = shiftBy wideShr x amount s := rfl

theorem exec_wSar (x : Word128) (amount : BitVec 8) (s : State) :
    exec (.wSar x amount) s = shiftBy wideSar x amount s := rfl

theorem exec_wCmpU (x y : Word128) (s : State) :
    exec (.wCmpU x y) s = .next (s.respond (okValue (compareUnsigned x y))) := rfl

theorem exec_wCmpS (x y : Word128) (s : State) :
    exec (.wCmpS x y) s = .next (s.respond (okValue (compareSigned x y))) := rfl

/-! ## The statements -/

/-- Settles O15: the words' sum is the 128-bit sum. -/
theorem wideAddWrapsModulo : Obligations.WideAddWrapsModulo := by
  intro x y s
  rw [exec_wAdd, wideAdd_eq, ofNat_mod_two_pow, BitVec.add_def]

/-- Settles O16: the words' difference is the 128-bit difference. -/
theorem wideSubWrapsModulo : Obligations.WideSubWrapsModulo := by
  intro x y s
  rw [exec_wSub, wideSub_eq, ofInt_sub_toNat]

/-- Settles O17: each of the four operations on words acts on each bit, so it does on the value. -/
theorem wideBitwiseActsOnEachBit : Obligations.WideBitwiseActsOnEachBit := by
  intro x y s
  refine ⟨_, _, _, _, rfl, rfl, rfl, rfl, fun i hi => ⟨?_, ?_, ?_, ?_⟩⟩
  · exact wideBitwise_getLsbD (f := and) (fun _ _ _ _ => BitVec.getLsbD_and) x y hi
  · exact wideBitwise_getLsbD (f := or) (fun _ _ _ _ => BitVec.getLsbD_or) x y hi
  · exact wideBitwise_getLsbD (f := bne) (fun _ _ _ _ => BitVec.getLsbD_xor) x y hi
  · refine wideBitwise_getLsbD (f := fun b _ => !b) (fun a _ j hj => ?_) x x hi
    rw [BitVec.getLsbD_not, decide_eq_true hj, Bool.true_and]

/-- Settles O18: the words' left shift is the 128-bit one, a product modulo the width. -/
theorem wideShiftLeftMultiplies : Obligations.WideShiftLeftMultiplies := by
  intro x amount s
  have hshl : BitVec.ofNat 128 (x.toNat * 2 ^ amount.toNat % 2 ^ 128) = x <<< amount.toNat := by
    apply BitVec.eq_of_toNat_eq
    rw [ofNat_mod_two_pow, BitVec.toNat_ofNat, BitVec.toNat_shiftLeft, Nat.shiftLeft_eq]
  rw [exec_wShl, hshl, ← wideShl_eq]
  exact ⟨fun h => shiftBy_of_lt _ x h s, fun h => shiftBy_of_le _ x h s⟩

/-- Settles O19: the words' right shift is the 128-bit one, a quotient. -/
theorem wideShiftRightDivides : Obligations.WideShiftRightDivides := by
  intro x amount s
  have hshr : BitVec.ofNat 128 (x.toNat / 2 ^ amount.toNat) = x >>> amount.toNat := by
    rw [← Nat.shiftRight_eq_div_pow, ← BitVec.toNat_ushiftRight, BitVec.ofNat_toNat, BitVec.setWidth_eq]
  rw [exec_wShr, hshr, ← wideShr_eq]
  exact ⟨fun h => shiftBy_of_lt _ x h s, fun h => shiftBy_of_le _ x h s⟩

/-- Settles O20: the words' arithmetic shift is the 128-bit one, whose signed reading is the floor. -/
theorem wideArithmeticShiftFloors : Obligations.WideArithmeticShiftFloors := by
  intro x amount s
  rw [exec_wSar]
  refine ⟨fun h => ⟨x.sshiftRight amount.toNat, ?_, toInt_sshiftRight_eq_fdiv x _,
    fun i hi => getLsbD_sshiftRight_wide x _ hi⟩, fun h => shiftBy_of_le _ x h s⟩
  rw [shiftBy_of_lt _ x h s, wideSar_eq]

/-- Settles O21, by the order of the unsigned readings of the words. -/
theorem compareUnsignedOrdersValues : Obligations.CompareUnsignedOrdersValues := by
  intro x y s
  rw [exec_wCmpU, compareUnsigned_eq]

/-- Settles O22, by the signed order of the high words and the unsigned order of the low ones. -/
theorem compareSignedOrdersValues : Obligations.CompareSignedOrdersValues := by
  intro x y s
  rw [exec_wCmpS, compareSigned_eq]

end Sys2Proof.Machine
end

section
/-! PROOFS. The BitValue unit (41_bitvalue.md R150 to R162): what a bit count or a token lets through, the token each
constructor and each tagged read makes, the conversions, and equality. -/

namespace Sys2Proof.Machine

/-! ## Commands behind a bit count or a token (60_exceptions.md R284, 41_bitvalue.md R152) -/

theorem badCount_eq_true_iff (n : BitVec 8) (limit : Nat) :
    badCount n limit = true ↔ n.toNat = 0 ∨ limit < n.toNat := by
  simp [badCount]

/-- The checks of the 64-bit and the 128-bit path differ above 64 only. -/
theorem badCount_128_eq_badCount_64 {n : BitVec 8} (h : n.toNat ≤ 64) : badCount n 128 = badCount n 64 := by
  rw [Bool.eq_iff_iff, badCount_eq_true_iff, badCount_eq_true_iff]
  omega

theorem countGate_of_bad {n : BitVec 8} {limit : Nat} (h : n.toNat = 0 ∨ limit < n.toNat) (s : State) (r : Result) :
    (if badCount n limit then raise .invalidBitCount s else r) = .next (s.respond (failed .invalidBitCount)) :=
  if_pos ((badCount_eq_true_iff n limit).mpr h)

theorem countGate_of_good {n : BitVec 8} {limit : Nat} (h : 1 ≤ n.toNat ∧ n.toNat ≤ limit) (s : State) (r : Result) :
    (if badCount n limit then raise .invalidBitCount s else r) = r :=
  if_neg (by rw [(badCount_eq_false_iff n limit).mpr h]; decide)

theorem tokenGate_of_illFormed {t : Token} (h : tokenWellFormed t = false) (s : State) (r : Result) :
    (if !tokenWellFormed t then raise .illegalCommand s else r) = .next (s.respond (failed .illegalCommand)) :=
  if_pos (by rw [h]; rfl)

theorem tokenGate_of_wellFormed {t : Token} (h : tokenWellFormed t = true) (s : State) (r : Result) :
    (if !tokenWellFormed t then raise .illegalCommand s else r) = r :=
  if_neg (by rw [h]; decide)

theorem exec_bvToU64_of_illFormed {t : Token} (h : tokenWellFormed t = false) (s : State) :
    exec (.bvToU64 t) s = .next (s.respond (failed .illegalCommand)) := tokenGate_of_illFormed h s _

theorem exec_bvToU128_of_illFormed {t : Token} (h : tokenWellFormed t = false) (s : State) :
    exec (.bvToU128 t) s = .next (s.respond (failed .illegalCommand)) := tokenGate_of_illFormed h s _

theorem exec_bvToI64_of_illFormed {t : Token} (h : tokenWellFormed t = false) (s : State) :
    exec (.bvToI64 t) s = .next (s.respond (failed .illegalCommand)) := tokenGate_of_illFormed h s _

theorem exec_bvToI128_of_illFormed {t : Token} (h : tokenWellFormed t = false) (s : State) :
    exec (.bvToI128 t) s = .next (s.respond (failed .illegalCommand)) := tokenGate_of_illFormed h s _

/-- Equality asks both tokens to be well formed. -/
theorem exec_bvEq_of_illFormed {t u : Token} (h : tokenWellFormed t = false ∨ tokenWellFormed u = false) (s : State) :
    exec (.bvEq t u) s = .next (s.respond (failed .illegalCommand)) :=
  if_pos (by simpa using h)

theorem exec_bcWriteV_of_illFormed {t : Token} (h : tokenWellFormed t = false) (s : State) :
    exec (.bcWriteV t) s = .next (s.respond (failed .illegalCommand)) := tokenGate_of_illFormed h s _

/-- A writer that is not open gives the same answer before it looks at the token (44_writer.md R252). -/
theorem exec_wrWriteV_of_illFormed {t : Token} (h : tokenWellFormed t = false) (s : State) :
    exec (.wrWriteV t) s = .next (s.respond (failed .illegalCommand)) := by
  show (if !s.wr.opened then _ else _) = _
  split
  · exact raise_eq _ s
  · exact tokenGate_of_illFormed h s _

/-- Settles O28, command by command. -/
theorem illFormedTokenIsRefused : Obligations.IllFormedTokenIsRefused := fun _ _ s h =>
  ⟨exec_bvToU64_of_illFormed h s, exec_bvToU128_of_illFormed h s, exec_bvToI64_of_illFormed h s,
    exec_bvToI128_of_illFormed h s, exec_bvEq_of_illFormed (.inl h) s, exec_bvEq_of_illFormed (.inr h) s,
    exec_bcWriteV_of_illFormed h s, exec_wrWriteV_of_illFormed h s⟩

/-! ## Storage widths (00_scope.md R12, 41_bitvalue.md R150) -/

theorem le_storageWidth {n : Nat} (h : n ≤ 128) : n ≤ storageWidth n := by
  unfold storageWidth; split_ifs <;> omega

theorem storageWidth_le_64 {n : Nat} (h : n ≤ 64) : storageWidth n ≤ 64 := by
  unfold storageWidth; split_ifs <;> omega

/-- A BitValue of kind I128 or U128 has at least 65 bits. -/
theorem storageWidth_eq_128_iff (n : Nat) : storageWidth n = 128 ↔ 65 ≤ n := by
  unfold storageWidth; split_ifs <;> omega

/-! ## Sign extension of the low bits of a value (R12) -/

theorem signExtend_toNat {v : Nat} (x : BitVec v) {k : Nat} (hk : k ≤ 128) :
    signExtend x.toNat k = (x.setWidth k).signExtend 128 := by
  rw [signExtend_eq_signExtend hk, BitVec.ofNat_toNat]

theorem signExtend_congr {v w k : Nat} (h : v % 2 ^ k = w % 2 ^ k) : signExtend v k = signExtend w k := by
  rw [signExtend, signExtend, h]

theorem signExtend_bounds {k : Nat} (hk : k ≤ 128) (v : Nat) :
    -(2 ^ (k - 1) : Int) ≤ (signExtend v k).toInt ∧ (signExtend v k).toInt < 2 ^ (k - 1) := by
  rw [signExtend_eq_signExtend hk, BitVec.toInt_signExtend_of_le hk]
  exact ⟨BitVec.le_toInt _, BitVec.toInt_lt⟩

/-! ## Tokens made (R152) -/

theorem tokenWellFormed_unsigned {n : BitVec 8} (hn : 1 ≤ n.toNat ∧ n.toNat ≤ 128) {v : Word128}
    (hv : v.toNat < 2 ^ n.toNat) : tokenWellFormed ⟨n, false, v⟩ = true := by
  obtain ⟨hpos, hle⟩ := hn
  exact (tokenWellFormed_iff _).mpr ⟨hpos, hle, fun _ => hv, nofun⟩

/-- A value sign-extended from no more bits than the storage has fits the storage. -/
theorem tokenWellFormed_signed {n : BitVec 8} (hn : 1 ≤ n.toNat ∧ n.toNat ≤ 128) {k : Nat}
    (hk : k ≤ storageWidth n.toNat) (v : Nat) : tokenWellFormed ⟨n, true, signExtend v k⟩ = true := by
  obtain ⟨hlo, hhi⟩ := signExtend_bounds (hk.trans (storageWidth_le _)) v
  have hpow : (2 ^ (k - 1) : Int) ≤ 2 ^ (storageWidth n.toNat - 1) := pow_le_pow_right₀ (by decide) (by omega)
  obtain ⟨hpos, hle⟩ := hn
  refine (tokenWellFormed_iff _).mpr ⟨hpos, hle, nofun, fun _ => ⟨?_, hhi.trans_le hpow⟩⟩
  exact (neg_le_neg hpow).trans hlo

theorem unsignedToken_wellFormed (value : Word128) {n : BitVec 8} (hn : 1 ≤ n.toNat ∧ n.toNat ≤ 128) :
    tokenWellFormed (unsignedToken value n) = true := by
  refine tokenWellFormed_unsigned hn ?_
  rw [truncate, BitVec.toNat_ofNat]
  exact (Nat.mod_le _ _).trans_lt (Nat.mod_lt _ (Nat.two_pow_pos _))

theorem signedToken_wellFormed (value : Nat) {n : BitVec 8} (hn : 1 ≤ n.toNat ∧ n.toNat ≤ 128) :
    tokenWellFormed (signedToken value n) = true :=
  tokenWellFormed_signed hn (Nat.le_refl _) value

/-- A tagged read sign-extends from bit n - 1 (42_container.md R191), whatever the storage width. -/
theorem readToken_wellFormed (sgn : Bool) {n : BitVec 8} (hn : 1 ≤ n.toNat ∧ n.toNat ≤ 128) {raw : Word128}
    (hraw : raw.toNat < 2 ^ n.toNat) : tokenWellFormed (readToken sgn n raw) = true := by
  cases sgn with
  | false => exact tokenWellFormed_unsigned hn hraw
  | true => exact tokenWellFormed_signed hn (le_storageWidth hn.2) raw.toNat

/-- The signed constructor in the library's operations. -/
theorem signedToken_toNat {v : Nat} (x : BitVec v) (n : BitVec 8) :
    signedToken x.toNat n = ⟨n, true, (x.setWidth (storageWidth n.toNat)).signExtend 128⟩ := by
  rw [signedToken, signExtend_toNat x (storageWidth_le _)]

/-- Up to 64 bits the stored bits lie in the low word. -/
theorem signedToken_setWidth (x : Word128) {n : BitVec 8} (h : n.toNat ≤ 64) :
    signedToken (x.setWidth 64).toNat n = signedToken x.toNat n := by
  have hdvd : 2 ^ storageWidth n.toNat ∣ 2 ^ 64 := Nat.pow_dvd_pow 2 (storageWidth_le_64 h)
  have hmod : (x.setWidth 64).toNat % 2 ^ storageWidth n.toNat = x.toNat % 2 ^ storageWidth n.toNat := by
    rw [BitVec.toNat_setWidth, Nat.mod_mod_of_dvd _ hdvd]
  rw [signedToken, signedToken, signExtend_congr hmod]

/-! ## The constructors (R153 to R155) -/

theorem exec_bvNewU (value : Word128) (n : BitVec 8) (s : State) :
    exec (.bvNewU value n) s
      = if badCount n 128 then raise .invalidBitCount s else answer (okToken (unsignedToken value n)) s := rfl

theorem exec_bvNewS (value : Word64) (n : BitVec 8) (s : State) :
    exec (.bvNewS value n) s
      = if badCount n 64 then raise .invalidBitCount s else answer (okToken (signedToken value.toNat n)) s := rfl

theorem exec_bvNewS128 (value : Word128) (n : BitVec 8) (s : State) :
    exec (.bvNewS128 value n) s
      = if badCount n 128 then raise .invalidBitCount s else answer (okToken (signedToken value.toNat n)) s := rfl

/-- Settles O23: the mask is the model's own remainder. -/
theorem newUnsignedMasksToWidth : Obligations.NewUnsignedMasksToWidth := by
  intro value n s
  rw [exec_bvNewU]
  exact ⟨fun h => countGate_of_good h s _, fun h => countGate_of_bad h s _⟩

/-- Settles O24: for a count up to 64 the statement's width is the storage width. -/
theorem newSignedCutsToStorage : Obligations.NewSignedCutsToStorage := by
  intro value n s w
  rw [exec_bvNewS]
  refine ⟨fun h => ?_, fun h => countGate_of_bad h s _⟩
  have hw : storageWidth n.toNat = w := by unfold storageWidth; simp only [h.2, if_true]; rfl
  rw [countGate_of_good h, signedToken_toNat, hw, answer_eq]

/-- Settles O25: up to 64 bits both constructors make the same token and refuse the same counts. -/
theorem newSignedWideCutsToStorage : Obligations.NewSignedWideCutsToStorage := by
  intro value n s w
  rw [exec_bvNewS128, exec_bvNewS]
  refine ⟨fun h => ?_, fun h => countGate_of_bad h s _, fun h => ?_⟩
  · rw [countGate_of_good h, signedToken_toNat, answer_eq]
    rfl
  · rw [signedToken_setWidth value h, badCount_128_eq_badCount_64 h]

/-! ## The conversions (R157 to R160) -/

theorem low_eq_setWidth (x : Word128) : x.low = x.setWidth 64 :=
  (BitVec.setWidth_eq_extractLsb' (by decide)).symm

/-- A negative 128-bit value in terms of the value it carries (R157). -/
theorem negativeWide_iff (t : Token) : negativeWide t = true ↔ t.sgn = true ∧ 65 ≤ t.n.toNat ∧ t.ext.toInt < 0 := by
  have hsign : t.ext.getLsbD 127 = true ↔ t.ext.toInt < 0 := by
    rw [← BitVec.msb_eq_getLsbD_last t.ext, BitVec.msb_eq_toInt, decide_eq_true_eq]
  rw [negativeWide, Bool.and_eq_true, Bool.and_eq_true, beq_iff_eq, storageWidth_eq_128_iff, hsign, and_assoc]

theorem exec_bvToU64_of_wellFormed {t : Token} (h : tokenWellFormed t = true) (s : State) :
    exec (.bvToU64 t) s
      = if negativeWide t then raise .invalidConversion s else answer (okValue (t.ext.low.setWidth 128)) s :=
  tokenGate_of_wellFormed h s _

theorem exec_bvToU128_of_wellFormed {t : Token} (h : tokenWellFormed t = true) (s : State) :
    exec (.bvToU128 t) s = .next (s.respond (okValue t.ext)) := tokenGate_of_wellFormed h s _

theorem exec_bvToI64_of_wellFormed {t : Token} (h : tokenWellFormed t = true) (s : State) :
    exec (.bvToI64 t) s = .next (s.respond (okValue (signExtend t.ext.low.toNat 64))) := tokenGate_of_wellFormed h s _

theorem exec_bvToI128_of_wellFormed {t : Token} (h : tokenWellFormed t = true) (s : State) :
    exec (.bvToI128 t) s = .next (s.respond (okValue t.ext)) := tokenGate_of_wellFormed h s _

/-- Settles O29, by the case of a negative 128-bit value. -/
theorem toUnsignedWordTruncates : Obligations.ToUnsignedWordTruncates := by
  intro t s
  refine ⟨fun h => exec_bvToU64_of_illFormed h s, fun h => ?_⟩
  have hlow : t.ext.low.setWidth 128 = BitVec.ofNat 128 (t.ext.toNat % 2 ^ 64) := by
    rw [← BitVec.ofNat_toNat, low_eq_setWidth, BitVec.toNat_setWidth]
  rw [exec_bvToU64_of_wellFormed h, hlow]
  by_cases hneg : negativeWide t = true
  · rw [if_pos hneg, if_pos ((negativeWide_iff t).mp hneg), raise_eq]
  · rw [if_neg hneg, if_neg (mt (negativeWide_iff t).mpr hneg), answer_eq]

/-- Settles O30: the wide conversions hand on the token's bits, the narrow one the low word's sign extension. -/
theorem otherConversionsReinterpretOrTruncate : Obligations.OtherConversionsReinterpretOrTruncate := by
  intro t s
  refine ⟨fun h => ⟨exec_bvToU128_of_illFormed h s, exec_bvToI128_of_illFormed h s, exec_bvToI64_of_illFormed h s⟩,
    fun h => ⟨exec_bvToU128_of_wellFormed h s, exec_bvToI128_of_wellFormed h s, ?_⟩⟩
  rw [exec_bvToI64_of_wellFormed h, low_eq_setWidth, signExtend_toNat _ (by decide), BitVec.setWidth_eq]

/-! ## Equality (R161) -/

/-- Two values agree modulo 2^w exactly when they agree on their w low bits. -/
theorem mod_two_pow_eq_iff_testBit (a b w : Nat) :
    a % 2 ^ w = b % 2 ^ w ↔ ∀ i, i < w → a.testBit i = b.testBit i := by
  constructor
  · intro h i hi
    have hbit := congrArg (Nat.testBit · i) h
    simpa [Nat.testBit_mod_two_pow, hi] using hbit
  · intro h
    apply Nat.eq_of_testBit_eq
    intro i
    rw [Nat.testBit_mod_two_pow, Nat.testBit_mod_two_pow]
    by_cases hi : i < w
    · rw [h i hi]
    · simp [hi]

/-- The same bit count and the same stored bits; signedness is not compared, as `BV_EQ_SIGNED` is false (R9). -/
theorem tokensEqual_iff (t u : Token) :
    tokensEqual t u = true ↔
      t.n = u.n ∧ ∀ i, i < storageWidth t.n.toNat → t.ext.getLsbD i = u.ext.getLsbD i := by
  have hbits := mod_two_pow_eq_iff_testBit t.ext.toNat u.ext.toNat (storageWidth t.n.toNat)
  simp only [BitVec.testBit_toNat] at hbits
  simp only [tokensEqual, Config.bvEqSigned, Bool.not_false, Bool.true_or, Bool.and_true, Bool.and_eq_true, beq_iff_eq,
    hbits]

theorem exec_bvEq_of_wellFormed {t u : Token} (ht : tokenWellFormed t = true) (hu : tokenWellFormed u = true)
    (s : State) : exec (.bvEq t u) s = .next (s.respond (okValue (flagValue (tokensEqual t u)))) :=
  if_neg (by simp [ht, hu])

/-- Settles O31: the statement's width is the storage width. -/
theorem equalityComparesStoredBits : Obligations.EqualityComparesStoredBits := by
  intro t u s w same
  have hsame : tokensEqual t u = true ↔ same := tokensEqual_iff t u
  refine ⟨fun h => exec_bvEq_of_illFormed h s, fun ht hu => ?_⟩
  rw [exec_bvEq_of_wellFormed ht hu]
  refine ⟨fun h => ?_, fun h => ?_⟩
  · rw [hsame.mpr h]
    rfl
  · rw [Bool.eq_false_of_not_eq_true (mt hsame.mp h)]
    rfl

/-! ## The raw value of a tagged read fits its bit count (42_container.md R189, R191) -/

/-- The 128-bit path reads its n bits as one field (R70, R189). -/
theorem bcGetWide_eq_bcGet {n : Nat} (hn : n ≤ 128) (c : Container) :
    bcGetWide n c = BitVec.ofNat 128 (bcGet n c) := by
  unfold bcGetWide
  split
  · rfl
  · refine ofPair_eq_of_getLsbD (fun i hi => ?_) (fun i hi => ?_)
    · simp only [BitVec.getLsbD_ofNat, bcGet, Memory.extract_testBit]
      simp [hi, show i < 128 by omega, show i < n by omega]
    · simp only [BitVec.getLsbD_ofNat, bcGet, bcAdvance, Memory.extract_testBit]
      simp [hi, show 64 + i < 128 by omega, show i < n - 64 ↔ 64 + i < n by omega, Nat.add_assoc]

theorem bcGetWide_lt {n : Nat} (hn : n ≤ 128) (c : Container) : (bcGetWide n c).toNat < 2 ^ n := by
  rw [bcGetWide_eq_bcGet hn, BitVec.toNat_ofNat]
  exact (Nat.mod_le _ _).trans_lt (bcGet_lt n c)

/-! ## What a command's response can be (60_exceptions.md R280, R281) -/

/-- Whatever response the command sends from `s`, it has the property. -/
def Sends (P : Response → Prop) (s : State) (r : Result) : Prop :=
  ∀ t x, r = .next t → t.env.responses = s.env.responses ++ [responseFrame x] → P x

/-- A frame says which response it carries, so the one response sent is the one read back from the state. -/
theorem sends_answer {P : Response → Prop} {s u : State} {y : Response} (hsent : u.env.responses = s.env.responses)
    (hy : P y) : Sends P s (answer y u) := by
  intro t x ht hx
  cases ht
  rw [respond_responses, hsent, List.append_cancel_left_eq, List.singleton_inj] at hx
  exact responseFrame_injective hx ▸ hy

theorem sends_ite {P : Response → Prop} {c : Prop} [Decidable c] {s : State} {r r' : Result} (h : c → Sends P s r)
    (h' : ¬ c → Sends P s r') : Sends P s (if c then r else r') := by
  split
  next hc => exact h hc
  next hc => exact h' hc

/-- A reader command sends the value its field read got, or that read's failure. -/
theorem sends_finishPull {P : Response → Prop} {α : Type} {f : α → Response} {p : Pull α} {s : State}
    (hsent : ∀ u, p.leaves u → u.env.responses = s.env.responses) (hgot : ∀ v u, p = .got v u → P (f v))
    (hend : P (failed .endOfStream)) (hio : ∀ cause, P (ioFailed cause)) : Sends P s (finishPull f p) := by
  cases p with
  | got v u => exact sends_answer (hsent u rfl) (hgot v u rfl)
  | endOfStream u => exact sends_answer (hsent u rfl) hend
  | ioError cause u => exact sends_answer (hsent u rfl) (hio cause)
  | brokenContract => exact fun _ _ ht => nomatch ht

/-! ## Every token a command answers with (R152) -/

/-- If the response is a success, it carries a well-formed token of this bit count and signedness. -/
def CarriesToken (sgn : Bool) (n : BitVec 8) (x : Response) : Prop :=
  x.status = .ok → x.n = n ∧ x.sgn = sgn ∧ tokenWellFormed ⟨x.n, x.sgn, x.r⟩ = true

theorem carriesToken_okToken {t : Token} (h : tokenWellFormed t = true) : CarriesToken t.sgn t.n (okToken t) :=
  fun _ => ⟨rfl, rfl, h⟩

theorem carriesToken_failed {sgn : Bool} {n : BitVec 8} {status : Status} (h : status ≠ .ok) :
    CarriesToken sgn n (failed status) := fun hok => absurd hok h

theorem carriesToken_ioFailed {sgn : Bool} {n : BitVec 8} (cause : Word64) : CarriesToken sgn n (ioFailed cause) :=
  fun hok => nomatch hok

/-- A check that raises sends no token. -/
theorem sendsToken_gate {sgn : Bool} {n : BitVec 8} {c : Prop} [Decidable c] {status : Status} {s : State} {r : Result}
    (hstatus : status ≠ .ok) (h : ¬ c → Sends (CarriesToken sgn n) s r) :
    Sends (CarriesToken sgn n) s (if c then raise status s else r) :=
  sends_ite (fun _ => sends_answer rfl (carriesToken_failed hstatus)) h

/-- A check of the bit count leaves the counts of the command's path. -/
theorem sendsToken_countGate {sgn : Bool} {n : BitVec 8} {limit : Nat} {s : State} {r : Result} (hlimit : limit ≤ 128)
    (h : 1 ≤ n.toNat ∧ n.toNat ≤ 128 → Sends (CarriesToken sgn n) s r) :
    Sends (CarriesToken sgn n) s (if badCount n limit then raise .invalidBitCount s else r) := by
  refine sendsToken_gate (by decide) fun hgood => ?_
  obtain ⟨hpos, hle⟩ := (badCount_eq_false_iff n limit).mp (Bool.eq_false_of_not_eq_true hgood)
  exact h ⟨hpos, hle.trans hlimit⟩

theorem bvNewU_sendsToken (value : Word128) (n : BitVec 8) (s : State) :
    Sends (CarriesToken false n) s (exec (.bvNewU value n) s) :=
  sendsToken_countGate (Nat.le_refl _) fun hn =>
    sends_answer rfl (carriesToken_okToken (unsignedToken_wellFormed value hn))

theorem bvNewS_sendsToken (value : Word64) (n : BitVec 8) (s : State) :
    Sends (CarriesToken true n) s (exec (.bvNewS value n) s) :=
  sendsToken_countGate (by decide) fun hn =>
    sends_answer rfl (carriesToken_okToken (signedToken_wellFormed value.toNat hn))

theorem bvNewS128_sendsToken (value : Word128) (n : BitVec 8) (s : State) :
    Sends (CarriesToken true n) s (exec (.bvNewS128 value n) s) :=
  sendsToken_countGate (Nat.le_refl _) fun hn =>
    sends_answer rfl (carriesToken_okToken (signedToken_wellFormed value.toNat hn))

theorem bcReadV_sendsToken (sgn : Bool) (n : BitVec 8) (s : State) :
    Sends (CarriesToken sgn n) s (exec (.bcReadV sgn n) s) :=
  sendsToken_countGate (Nat.le_refl _) fun hn => sendsToken_gate (by decide) fun _ =>
    sends_answer rfl (carriesToken_okToken (readToken_wellFormed sgn hn (bcGetWide_lt hn.2 s.bc)))

/-- The reader's token is made of what its fills delivered, whatever states they left. -/
theorem rdReadV_sendsToken (sgn : Bool) (n : BitVec 8) (s : State) :
    Sends (CarriesToken sgn n) s (exec (.rdReadV sgn n) s) := by
  refine sendsToken_gate (by decide) fun _ => sendsToken_countGate (Nat.le_refl _) fun hn =>
    sends_ite (fun _ => sends_answer rfl (carriesToken_ioFailed _)) fun _ => ?_
  refine sends_finishPull (fun u hu => (rdGetWide_outside hu).responses) (fun raw u hgot => ?_)
    (carriesToken_failed (by decide)) carriesToken_ioFailed
  exact carriesToken_okToken (readToken_wellFormed sgn hn (rdGetWide_lt hn.2 hgot))

/-- Settles O27, command by command: the check of the bit count leaves 1 to 128, and each value made fits. -/
theorem tokensMadeAreWellFormed : Obligations.TokensMadeAreWellFormed := by
  intro i sgn n s t x hasked ht hx
  have hsends : Sends (CarriesToken sgn n) s (exec i s) := by
    cases i <;> cases hasked
    case bvNewU value => exact bvNewU_sendsToken value n s
    case bvNewS value => exact bvNewS_sendsToken value n s
    case bvNewS128 value => exact bvNewS128_sendsToken value n s
    case bcReadV => exact bcReadV_sendsToken sgn n s
    case rdReadV => exact rdReadV_sendsToken sgn n s
  exact hsends t x ht hx

end Sys2Proof.Machine
end

section
/-! PROOFS. The Bit Container (42_container.md R180 to R198): a field write replaces the field at the cursor, a field
read answers it, and the whole of the storage goes in and out as bytes. -/

namespace Sys2Proof.Machine

/-! ## Commands behind a bit count, `MAXBITS` or the bits that remain (60_exceptions.md R284, R185, 20_memory.md R69) -/

theorem not_badCount_iff (n : BitVec 8) (limit : Nat) :
    (!badCount n limit) = true ↔ 1 ≤ n.toNat ∧ n.toNat ≤ limit := by
  rw [Bool.not_eq_true', badCount_eq_false_iff]

theorem roomGate_of_past {n : Nat} {c : Container} (h : Config.maxBits < c.cursor + n) (s : State) (r : Result) :
    (if pastMaxBits n c then raise .illegalCommand s else r) = .next (s.respond (failed .illegalCommand)) :=
  if_pos (decide_eq_true h)

theorem restGate_of_fewer {n : Nat} {c : Container} (h : c.bitLength < c.cursor + n) (s : State) (r : Result) :
    (if fewerBits n c then raise .endOfStream s else r) = .next (s.respond (failed .endOfStream)) :=
  if_pos (decide_eq_true h)

theorem restGate_of_enough {n : Nat} {c : Container} (h : c.cursor + n ≤ c.bitLength) (s : State) (r : Result) :
    (if fewerBits n c then raise .endOfStream s else r) = r :=
  if_neg (by simpa [fewerBits] using h)

/-! ## Field writes (R184 to R190) -/

/-- `BcPut` replaces the field and nothing else (R184). -/
theorem bcPut_wroteField {c : Container} (h : c.storage.wf = true) (v n : Nat) : wroteField c (bcPut v n c) v n := by
  refine ⟨rfl, rfl, bcPut_storage_wf h v n, fun i hi => ?_, fun q hq => ?_,
    fun a ha => Memory.read_deposit_outside h ha v⟩
  · show (c.storage.deposit c.cursor n v).getBit (c.cursor + i) = v.testBit i
    rw [Memory.getBit_deposit h, if_pos (by omega), Nat.add_sub_cancel_left]
  · show (c.storage.deposit c.cursor n v).getBit q = c.storage.getBit q
    rw [Memory.getBit_deposit h, if_neg (by omega)]

theorem onlyContainer_withContainer_respond (s : State) (c : Container) (x : Response) :
    onlyContainer s ((s.withContainer c).respond x) x := ⟨rfl, rfl, rfl⟩

/-- An accepted field write that ends within `MAXBITS`, whatever its form (R186, R188, R190). -/
theorem containerWrite_replacesField {f : FieldWrite} (hf : writeAccepted f = true) {s : State}
    (hwf : s.bc.storage.wf = true) (hroom : s.bc.cursor + writeWidth f ≤ Config.maxBits) :
    ∃ t, exec (containerWrite f) s = .next t ∧ onlyContainer s t (okValue 0) ∧
      wroteField s.bc t.bc (writeValue f) (writeWidth f) :=
  ⟨_, exec_containerWrite hf hroom, onlyContainer_withContainer_respond s _ _, bcPut_wroteField hwf _ _⟩

/-- An accepted field write that would pass `MAXBITS` (R185). -/
theorem exec_containerWrite_of_past {f : FieldWrite} (hf : writeAccepted f = true) {s : State}
    (hpast : Config.maxBits < s.bc.cursor + writeWidth f) :
    exec (containerWrite f) s = .next (s.respond (failed .illegalCommand)) := by
  cases f with
  | narrow value n => exact (countGate_of_good ((not_badCount_iff n 64).mp hf) s _).trans (roomGate_of_past hpast s _)
  | wide value n => exact (countGate_of_good ((not_badCount_iff n 128).mp hf) s _).trans (roomGate_of_past hpast s _)
  | tagged t => exact (tokenGate_of_wellFormed hf s _).trans (roomGate_of_past hpast s _)

/-- Settles O35, by the forms of a field write: the check of the bit count, then the room below `MAXBITS`. -/
theorem narrowWriteReplacesTheField : Obligations.NarrowWriteReplacesTheField := by
  intro value n s hwf
  have haccepted : 1 ≤ n.toNat → n.toNat ≤ 64 → writeAccepted (.narrow value n) = true := fun hpos hle =>
    (not_badCount_iff n 64).mpr ⟨hpos, hle⟩
  exact ⟨fun hbad => countGate_of_bad hbad s _,
    fun hpos hle hroom => containerWrite_replacesField (haccepted hpos hle) hwf hroom,
    fun hpos hle hpast => exec_containerWrite_of_past (haccepted hpos hle) hpast⟩

/-- Settles O36: the two segments of the 128-bit path are one `BcPut`. -/
theorem wideWriteReplacesTheField : Obligations.WideWriteReplacesTheField := by
  intro value n s hwf
  have haccepted : 1 ≤ n.toNat → n.toNat ≤ 128 → writeAccepted (.wide value n) = true := fun hpos hle =>
    (not_badCount_iff n 128).mpr ⟨hpos, hle⟩
  exact ⟨fun hbad => countGate_of_bad hbad s _,
    fun hpos hle hroom => containerWrite_replacesField (haccepted hpos hle) hwf hroom,
    fun hpos hle hpast => exec_containerWrite_of_past (haccepted hpos hle) hpast⟩

/-- Settles O37: an ill-formed token is refused before `MAXBITS` is looked at, with the same answer. -/
theorem tokenWriteReplacesTheField : Obligations.TokenWriteReplacesTheField := by
  intro t s hwf
  refine ⟨fun ht hroom => containerWrite_replacesField (f := .tagged t) ht hwf hroom, fun hrefused => ?_⟩
  cases ht : tokenWellFormed t with
  | false => exact exec_bcWriteV_of_illFormed ht s
  | true =>
    have hpast := hrefused.resolve_left (by rw [ht]; decide)
    exact exec_containerWrite_of_past (f := .tagged t) ht hpast

/-! ## Field reads (R187 to R191) -/

/-- The number a field read gives has the bits of the field and no others (20_memory.md R63). -/
theorem readField_bcGet (c : Container) (n : Nat) : readField c n (BitVec.ofNat 128 (bcGet n c)) := by
  intro i hi
  rw [BitVec.getLsbD_ofNat, bcGet, Memory.extract_testBit, decide_eq_true hi, Bool.true_and]

/-- The 128-bit path as a number: nothing is lost above bit 127. -/
theorem bcGetWide_toNat {n : Nat} (hn : n ≤ 128) (c : Container) : (bcGetWide n c).toNat = bcGet n c := by
  have hlt : bcGet n c < 2 ^ 128 := (bcGet_lt n c).trans_le (Nat.pow_le_pow_right (by decide) hn)
  rw [bcGetWide_eq_bcGet hn, BitVec.toNat_ofNat, Nat.mod_eq_of_lt hlt]

theorem okToken_readToken {sgn : Bool} {n : BitVec 8} (hn : n.toNat ≤ 128) (c : Container) :
    okToken (readToken sgn n (bcGetWide n.toNat c)) = readResponse (.tagged sgn n) (bcGet n.toNat c) := by
  rw [readToken, bcGetWide_toNat hn, bcGetWide_eq_bcGet hn, readResponse]

/-- An accepted field read of bits that remain answers them and moves the cursor only, whatever its form. -/
theorem exec_containerRead {f : FieldRead} (hf : readAccepted f = true) {s : State}
    (hrest : s.bc.cursor + readWidth f ≤ s.bc.bitLength) :
    exec (containerRead f) s
      = .next ((s.withContainer (bcAdvance (readWidth f) s.bc)).respond
          (readResponse f (bcGet (readWidth f) s.bc))) := by
  cases f with
  | narrow n => exact (countGate_of_good ((not_badCount_iff n 64).mp hf) s _).trans (restGate_of_enough hrest s _)
  | wide n =>
    have hn := (not_badCount_iff n 128).mp hf
    refine (countGate_of_good hn s _).trans ((restGate_of_enough hrest s _).trans ?_)
    rw [bcGetWide_eq_bcGet hn.2, answer_eq]; rfl
  | tagged sgn n =>
    have hn := (not_badCount_iff n 128).mp hf
    refine (countGate_of_good hn s _).trans ((restGate_of_enough hrest s _).trans ?_)
    rw [okToken_readToken hn.2, answer_eq]; rfl

/-- An accepted field read of more bits than remain (20_memory.md R69, R72). -/
theorem exec_containerRead_of_fewer {f : FieldRead} (hf : readAccepted f = true) {s : State}
    (hfew : s.bc.bitLength < s.bc.cursor + readWidth f) :
    exec (containerRead f) s = .next (s.respond (failed .endOfStream)) := by
  cases f with
  | narrow n => exact (countGate_of_good ((not_badCount_iff n 64).mp hf) s _).trans (restGate_of_fewer hfew s _)
  | wide n => exact (countGate_of_good ((not_badCount_iff n 128).mp hf) s _).trans (restGate_of_fewer hfew s _)
  | tagged sgn n => exact (countGate_of_good ((not_badCount_iff n 128).mp hf) s _).trans (restGate_of_fewer hfew s _)

/-- Sign extension bit by bit: bit k - 1 stands in every place above it (00_scope.md R12). -/
theorem signExtend_getLsbD {k : Nat} (hpos : 1 ≤ k) (hk : k ≤ 128) (v : Nat) {i : Nat} (hi : i < 128) :
    (signExtend v k).getLsbD i = v.testBit (if i < k then i else k - 1) := by
  have hmsb : (BitVec.ofNat k v).msb = v.testBit (k - 1) := by
    rw [BitVec.msb_eq_getLsbD_last, BitVec.getLsbD_ofNat, decide_eq_true (by omega), Bool.true_and]
  rw [signExtend_eq_signExtend hk, BitVec.getLsbD_signExtend, decide_eq_true hi, Bool.true_and, hmsb]
  split
  next hlow => rw [BitVec.getLsbD_ofNat, decide_eq_true hlow, Bool.true_and]
  next => rfl

/-- Settles O38, by the forms of a field read: the check of the bit count, then the bits that remain. -/
theorem narrowReadReturnsTheField : Obligations.NarrowReadReturnsTheField := by
  intro n s
  have haccepted : 1 ≤ n.toNat → n.toNat ≤ 64 → readAccepted (.narrow n) = true := fun hpos hle =>
    (not_badCount_iff n 64).mpr ⟨hpos, hle⟩
  exact ⟨fun hbad => countGate_of_bad hbad s _,
    fun hpos hle hrest => ⟨_, readField_bcGet s.bc n.toNat, exec_containerRead (haccepted hpos hle) hrest⟩,
    fun hpos hle hfew => exec_containerRead_of_fewer (haccepted hpos hle) hfew⟩

/-- Settles O39: the two segments of the 128-bit path are one field, tested for as a whole. -/
theorem wideReadReturnsTheField : Obligations.WideReadReturnsTheField := by
  intro n s
  have haccepted : 1 ≤ n.toNat → n.toNat ≤ 128 → readAccepted (.wide n) = true := fun hpos hle =>
    (not_badCount_iff n 128).mpr ⟨hpos, hle⟩
  exact ⟨fun hbad => countGate_of_bad hbad s _,
    fun hpos hle hrest => ⟨_, readField_bcGet s.bc n.toNat, exec_containerRead (haccepted hpos hle) hrest⟩,
    fun hpos hle hfew => exec_containerRead_of_fewer (haccepted hpos hle) hfew⟩

/-- The value part of a tagged read, bit by bit (R191). -/
theorem taggedValue_getLsbD (sgn : Bool) {n : Nat} (hpos : 1 ≤ n) (hn : n ≤ 128) (v : Nat) {i : Nat} (hi : i < 128) :
    (if sgn then signExtend v n else BitVec.ofNat 128 v).getLsbD i
      = if sgn = true ∧ n ≤ i then (BitVec.ofNat 128 v).getLsbD (n - 1) else (BitVec.ofNat 128 v).getLsbD i := by
  cases sgn with
  | false => simp
  | true =>
    rw [if_pos rfl, signExtend_getLsbD hpos hn v hi, BitVec.getLsbD_ofNat, BitVec.getLsbD_ofNat]
    by_cases hlow : i < n
    · simp [hlow, hi]
    · simp [hlow, show n ≤ i by omega, show n - 1 < 128 by omega]

/-- Settles O40: the token carries the field the 128-bit path reads, extended as its flag says. -/
theorem tokenReadReturnsTheField : Obligations.TokenReadReturnsTheField := by
  intro sgn n s
  have haccepted : 1 ≤ n.toNat → n.toNat ≤ 128 → readAccepted (.tagged sgn n) = true := fun hpos hle =>
    (not_badCount_iff n 128).mpr ⟨hpos, hle⟩
  exact ⟨fun hbad => countGate_of_bad hbad s _,
    fun hpos hle hrest => ⟨_, _, readField_bcGet s.bc n.toNat,
      fun i hi => taggedValue_getLsbD sgn hpos hle (bcGet n.toNat s.bc) hi,
      exec_containerRead (haccepted hpos hle) hrest⟩,
    fun hpos hle hfew => exec_containerRead_of_fewer (haccepted hpos hle) hfew⟩

/-! ## The cursor (R192 to R195) -/

theorem exec_bcSeek_of_le {p : Word64} {s : State} (h : p.toNat ≤ s.bc.bitLength) :
    exec (.bcSeek p) s = .next ((s.withContainer { s.bc with cursor := p.toNat }).respond (okValue 0)) :=
  if_neg (Nat.not_lt.mpr h)

theorem exec_bcSeek_of_lt {p : Word64} {s : State} (h : s.bc.bitLength < p.toNat) :
    exec (.bcSeek p) s = .next (s.respond (failed .endOfStream)) :=
  if_pos h

/-- Settles O41, by the place of the position against `bit_length`. -/
theorem seekAndResetMoveTheCursor : Obligations.SeekAndResetMoveTheCursor :=
  fun _ _ => ⟨exec_bcSeek_of_le, exec_bcSeek_of_lt, rfl⟩

theorem flagValue_decide (p : Prop) [Decidable p] : flagValue (decide p) = if p then 1 else 0 := by
  by_cases hp : p
  · rw [if_pos hp, decide_eq_true hp]; rfl
  · rw [if_neg hp, decide_eq_false hp]; rfl

/-- Settles O42: under the invariant both positions fit a word (R27, D26). -/
theorem containerQueriesAnswerItsFields : Obligations.ContainerQueriesAnswerItsFields := by
  intro s
  refine ⟨?_, fun ⟨_, hcursor, hlength, _⟩ => ⟨_, rfl, ?_⟩⟩
  · rw [← flagValue_decide]; rfl
  · unfold Config.maxBits at hlength
    rw [toNat_ofPair, BitVec.toNat_ofNat, BitVec.toNat_ofNat, Nat.mod_eq_of_lt (by omega), Nat.mod_eq_of_lt (by omega),
      Nat.mul_comm]

/-! ## The storage as bytes (R181, R182, R196) -/

/-- Settles O33: the empty container is the one of reset. -/
theorem clearEmptiesTheContainer : Obligations.ClearEmptiesTheContainer := fun _ => rfl

theorem Memory.getElem?_readBytes (m : Memory) (a : Nat) {k i : Nat} (hi : i < k) :
    (m.readBytes a k)[i]? = some (m.read (a + i)) := by
  have hlen : i < (m.readBytes a k).length := by rwa [Memory.readBytes_length]
  rw [List.getElem?_eq_getElem hlen, Memory.readBytes_getElem]

/-- Bytes stored are the bytes read back. -/
theorem Memory.readBytes_writeBytes {m : Memory} (h : m.wf = true) (a : Nat) (bs : List Byte) :
    (m.writeBytes a bs).readBytes a bs.length = bs := by
  refine List.ext_getElem (Memory.readBytes_length _ _ _) fun i _ hi => ?_
  rw [Memory.readBytes_getElem, Memory.read_writeBytes h, if_pos (by omega), Nat.add_sub_cancel_left,
    List.getD_eq_getElem _ _ hi]

/-- Settles O34, by the room below `MAXBITS`: the storage is the payload written from byte 0 over nothing. -/
theorem loadHoldsThePayload : Obligations.LoadHoldsThePayload := by
  intro payload s
  have hempty : Memory.wf [] = true := rfl
  refine ⟨fun hroom => ?_, fun hpast => if_pos hpast⟩
  have hload : exec (.bcLoad payload) s = .next
      ((s.withContainer ⟨Memory.writeBytes [] 0 payload, 0, 8 * payload.length⟩).respond (okValue 0)) :=
    if_neg (Nat.not_lt.mpr hroom)
  refine ⟨_, hload, onlyContainer_withContainer_respond s _ _, rfl, rfl, Memory.writeBytes_wf hempty 0 payload,
    Memory.readBytes_writeBytes hempty 0 payload, fun a ha => ?_⟩
  show (Memory.writeBytes [] 0 payload).read a = 0#8
  rw [Memory.read_writeBytes hempty, if_neg (by omega)]
  rfl

/-- Settles O43: the bits of a byte at or beyond `bit_length` are those the invariant keeps at 0 (R27). -/
theorem bytesAnswersTheStorage : Obligations.BytesAnswersTheStorage := by
  intro s
  refine ⟨_, rfl, Memory.readBytes_length _ _ _, fun a ha => ?_, fun hok a b hb j hj hbeyond => ?_⟩
  · rw [Memory.readBytes_length] at ha
    rw [Memory.getElem?_readBytes _ _ ha, Nat.zero_add]
  · obtain ⟨-, -, -, hzero⟩ := hok
    obtain ⟨ha, rfl⟩ := List.getElem?_eq_some_iff.mp hb
    have hbit := hzero _ hbeyond
    rw [Memory.getBit, show (8 * a + j) / 8 = a by omega, show (8 * a + j) % 8 = j by omega] at hbit
    rw [Memory.readBytes_getElem, Nat.zero_add, hbit]

/-! ## Write, seek back, read (R198) -/

/-- What `Deposit` put in, `Extract` takes out: the low n bits of the value (20_memory.md R63, R64). -/
theorem Memory.extract_deposit {m : Memory} (h : m.wf = true) (p n v : Nat) :
    (m.deposit p n v).extract p n = v % 2 ^ n := by
  refine Nat.eq_of_testBit_eq fun i => ?_
  rw [Memory.extract_testBit, Nat.testBit_mod_two_pow]
  by_cases hi : i < n
  · rw [Memory.getBit_deposit h, if_pos (by omega), Nat.add_sub_cancel_left]
  · simp [hi]

/-- A seek and a read of bits that are valid answer the field at the position sought, whatever the form of the read. -/
theorem execAll_seek_read {g : FieldRead} (hg : readAccepted g = true) {p : Word64} {s : State}
    (hrest : p.toNat + readWidth g ≤ s.bc.bitLength) :
    ∃ t, execAll [.bcSeek p, containerRead g] s = .next t ∧
      t.env.responses = s.env.responses ++
        [responseFrame (okValue 0), responseFrame (readResponse g (s.bc.storage.extract p.toNat (readWidth g)))] := by
  have hseek := exec_bcSeek_of_le (p := p) (s := s) (by omega)
  have hread := exec_containerRead hg
    (s := (s.withContainer { s.bc with cursor := p.toNat }).respond (okValue 0)) hrest
  refine ⟨_, (execAll_cons_of_next hseek _).trans (execAll_cons_of_next hread []), ?_⟩
  simp [bcGet]

/-- A field written, the cursor moved back to where it stood, and a field of the same width read, whatever the forms of
the write and of the read. -/
theorem execAll_write_seek_read {f : FieldWrite} {g : FieldRead} (hf : writeAccepted f = true)
    (hg : readAccepted g = true) (hwidth : readWidth g = writeWidth f) {s : State} (hwf : s.bc.storage.wf = true)
    (hroom : s.bc.cursor + writeWidth f ≤ Config.maxBits) :
    ∃ t, execAll [containerWrite f, .bcSeek (BitVec.ofNat 64 s.bc.cursor), containerRead g] s = .next t ∧
      t.env.responses = s.env.responses ++ [responseFrame (okValue 0), responseFrame (okValue 0),
        responseFrame (readResponse g (writeValue f % 2 ^ writeWidth f))] := by
  have hcursor : (BitVec.ofNat 64 s.bc.cursor).toNat = s.bc.cursor := by
    unfold Config.maxBits at hroom
    rw [BitVec.toNat_ofNat, Nat.mod_eq_of_lt (by omega)]
  have hvalid : (BitVec.ofNat 64 s.bc.cursor).toNat + readWidth g
      ≤ (bcPut (writeValue f) (writeWidth f) s.bc).bitLength := by
    rw [hcursor, hwidth]; exact Nat.le_max_right _ _
  have hfield : (bcPut (writeValue f) (writeWidth f) s.bc).storage.extract s.bc.cursor (writeWidth f)
      = writeValue f % 2 ^ writeWidth f := Memory.extract_deposit hwf _ _ _
  obtain ⟨t, ht, hsent⟩ := execAll_seek_read hg
    (s := (s.withContainer (bcPut (writeValue f) (writeWidth f) s.bc)).respond (okValue 0)) hvalid
  refine ⟨t, (execAll_cons_of_next (exec_containerWrite hf hroom) _).trans ht, ?_⟩
  rw [hsent, hcursor, hwidth, respond_bc, withContainer_bc, hfield]
  simp

/-- Settles O44, on both paths by the same three commands. -/
theorem writeSeekReadRoundTrips : Obligations.WriteSeekReadRoundTrips := by
  refine ⟨fun v n s hwf hpos hle hroom => ?_, fun v n s hwf hpos hle hroom => ?_⟩
  · have hcount := (not_badCount_iff n 64).mpr ⟨hpos, hle⟩
    exact execAll_write_seek_read (f := .narrow v n) (g := .narrow n) hcount hcount rfl hwf hroom
  · have hcount := (not_badCount_iff n 128).mpr ⟨hpos, hle⟩
    exact execAll_write_seek_read (f := .wide v n) (g := .wide n) hcount hcount rfl hwf hroom

end Sys2Proof.Machine
end

section
/-! PROOFS. The Buffered Reader (43_reader.md R220 to R231): its commands behind their gates, and a field read as one run
of bits whatever its path. -/

namespace Sys2Proof.Machine

/-! ## Commands behind the gate of the reader or the writer (43_reader.md R222, 44_writer.md R252) -/

theorem openGate_of_closed {opened : Bool} (h : opened = false) (s : State) (r : Result) :
    (if !opened then raise .illegalCommand s else r) = .next (s.respond (failed .illegalCommand)) :=
  if_pos (by rw [h]; rfl)

theorem openGate_of_open {opened : Bool} (h : opened = true) (s : State) (r : Result) :
    (if !opened then raise .illegalCommand s else r) = r :=
  if_neg (by rw [h]; decide)

theorem exec_readerRead_of_closed {s : State} (h : s.rd.opened = false) (f : FieldRead) :
    exec (readerRead f) s = .next (s.respond (failed .illegalCommand)) := by
  cases f <;> exact openGate_of_closed h s _

theorem exec_writerWrite_of_closed {s : State} (h : s.wr.opened = false) (f : FieldWrite) :
    exec (writerWrite f) s = .next (s.respond (failed .illegalCommand)) := by
  cases f <;> exact openGate_of_closed h s _

theorem exec_rdAtEnd_of_closed {s : State} (h : s.rd.opened = false) :
    exec .rdAtEnd s = .next (s.respond (failed .illegalCommand)) := openGate_of_closed h s _

theorem exec_rdClose_of_closed {s : State} (h : s.rd.opened = false) :
    exec .rdClose s = .next (s.respond (failed .illegalCommand)) := openGate_of_closed h s _

/-- Settles O53, command by command: the gate stands in front of each. -/
theorem closedUnitsRefuseCommands : Obligations.ClosedUnitsRefuseCommands := fun s =>
  ⟨fun hrd => ⟨exec_readerRead_of_closed hrd, exec_rdAtEnd_of_closed hrd, exec_rdClose_of_closed hrd⟩,
    fun hwr => ⟨exec_writerWrite_of_closed hwr, openGate_of_closed hwr s _, openGate_of_closed hwr s _⟩⟩

/-! ## Opening, querying and closing (43_reader.md R221, R228, R229) -/

/-- The reader after an open command, which leaves the bytes of its buffer (log 18). -/
def openedReader (cap : BitVec 32) (r : Reader) : Reader :=
  ⟨true, askedCapacity cap, r.buf, 0, 0, 0, false, false, 0⟩

theorem exec_rdOpen {s : State} (hclosed : s.rd.opened = false) {cap : BitVec 32}
    (hcap : Config.capMin ≤ askedCapacity cap) :
    exec (.rdOpen cap) s = .next (({ s with rd := openedReader cap s.rd } : State).respond (okValue 0)) := by
  rw [exec, execRdOpen, hclosed, if_neg Bool.false_ne_true, if_neg (Nat.not_lt.mpr hcap), answer_eq, openedReader]

theorem exec_rdOpen_of_refused {s : State} {cap : BitVec 32}
    (h : s.rd.opened = true ∨ askedCapacity cap < Config.capMin) :
    exec (.rdOpen cap) s = .next (s.respond (failed .illegalCommand)) := by
  rw [exec, execRdOpen]
  split
  · exact raise_eq _ s
  next hclosed => exact if_pos (h.resolve_left hclosed)

/-- The capacity asked for, by the number in the frame (R33). -/
theorem askedCapacity_eq (cap : BitVec 32) : askedCapacity cap = if cap.toNat = 0 then 4096 else cap.toNat := by
  have hzero : cap = 0#32 ↔ cap.toNat = 0 := BitVec.toNat_eq
  simp only [askedCapacity, hzero, Config.capDefault]

/-- Settles O47, by the two checks in front of the new reader. -/
theorem readerOpensEmpty : Obligations.ReaderOpensEmpty := by
  intro cap s
  rw [← askedCapacity_eq]
  exact ⟨fun ⟨hclosed, hcap⟩ => ⟨s.rd.buf, exec_rdOpen hclosed hcap⟩, exec_rdOpen_of_refused⟩

theorem exec_rdAtEnd {s : State} (h : s.rd.opened = true) :
    exec .rdAtEnd s = .next (s.respond (okValue (flagValue s.rd.atEndOfSource))) := openGate_of_open h s _

theorem exec_rdClose_of_ok {s : State} (h : s.rd.opened = true) (hans : srcCloseAnswer s = .ok) :
    exec .rdClose s
      = .next (({ afterSrcClose s with rd := { s.rd with opened := false } } : State).respond (okValue 0)) := by
  refine (openGate_of_open h s _).trans ?_
  rw [hans]
  rfl

theorem exec_rdClose_of_err {s : State} (h : s.rd.opened = true) {cause : Word64} (hans : srcCloseAnswer s = .err cause) :
    exec .rdClose s = .next ((afterSrcClose s).respond (ioFailed cause)) := by
  refine (openGate_of_open h s _).trans ?_
  rw [hans]
  rfl

/-- Settles O52, by the answer the source gives to `SrcClose`. -/
theorem readerQueryAndClose : Obligations.ReaderQueryAndClose := by
  refine fun s => ⟨fun hclosed => ⟨exec_rdAtEnd_of_closed hclosed, exec_rdClose_of_closed hclosed⟩,
    fun hopen => ⟨?_, ?_⟩⟩
  · rw [exec_rdAtEnd hopen, ← flagValue_decide, Bool.decide_eq_true]
  · cases hans : srcCloseAnswer s with
    | ok =>
      refine ⟨_, exec_rdClose_of_ok hopen hans, rfl, rfl, rfl, ?_, fun _ => ⟨rfl, rfl⟩, fun _ herr => nomatch herr⟩
      rw [respond_calls, ← hans]; rfl
    | err cause =>
      refine ⟨_, exec_rdClose_of_err hopen hans, rfl, rfl, rfl, ?_, fun hok => (nomatch hok), fun _ herr => ?_⟩
      · rw [respond_calls, ← hans]; rfl
      · cases herr; exact ⟨rfl, rfl⟩

/-! ## Reader steps one after the other (43_reader.md R225, R230) -/

/-- A reader step, and where it gets a value a second one; a failure ends both (R226). -/
def Pull.andThen {α β : Type} (p : Pull α) (next : α → State → Pull β) : Pull β :=
  match p with
  | .got v t => next v t
  | .endOfStream t => .endOfStream t
  | .ioError cause t => .ioError cause t
  | .brokenContract => .brokenContract

@[simp] theorem Pull.got_andThen {α β : Type} (v : α) (t : State) (next : α → State → Pull β) :
    (Pull.got v t).andThen next = next v t := rfl

@[simp] theorem Pull.andThen_got {α : Type} (p : Pull α) : p.andThen .got = p := by
  cases p <;> rfl

theorem Pull.andThen_assoc {α β γ : Type} (p : Pull α) (q : α → State → Pull β) (r : β → State → Pull γ) :
    (p.andThen q).andThen r = p.andThen fun v t => (q v t).andThen r := by
  cases p <;> rfl

/-- Steps that agree on every value the first can get go on alike. -/
theorem Pull.andThen_congr {α β : Type} {p : Pull α} {q r : α → State → Pull β}
    (h : ∀ v t, p = .got v t → q v t = r v t) : p.andThen q = p.andThen r := by
  cases p with
  | got v t => exact h v t rfl
  | endOfStream t | ioError cause t | brokenContract => rfl

theorem finishPull_andThen_got {α β : Type} (f : β → Response) (g : α → β) (p : Pull α) :
    finishPull f (p.andThen fun v t => .got (g v) t) = finishPull (fun v => f (g v)) p := by
  cases p <;> rfl

theorem rdGet_succ (n : Nat) (s : State) :
    rdGet (n + 1) s = (rdBit s).andThen fun b t => (rdGet n t).andThen fun v u => .got (b.toNat + 2 * v) u := by
  rw [rdGet]
  cases rdBit s with
  | got b t => dsimp only [Pull.andThen]; cases rdGet n t <;> rfl
  | endOfStream t | ioError cause t | brokenContract => rfl

/-- Two consecutive slices are one run of bits. -/
theorem rdGet_add (j k : Nat) (s : State) :
    rdGet (j + k) s = (rdGet j s).andThen fun low t => (rdGet k t).andThen fun high u => .got (low + 2 ^ j * high) u := by
  induction j generalizing s with
  | zero => simp [rdGet]
  | succ j ih =>
    have hvalue : ∀ b low high : Nat, b + 2 * (low + 2 ^ j * high) = b + 2 * low + 2 ^ (j + 1) * high :=
      fun b low high => by ring
    rw [Nat.succ_add, rdGet_succ, rdGet_succ]
    simp only [ih, Pull.andThen_assoc, Pull.got_andThen, hvalue]

theorem ofPair_ofNat (high : Nat) {low : Nat} (h : low < 2 ^ 64) :
    Word128.ofPair (BitVec.ofNat 64 high) (BitVec.ofNat 64 low) = BitVec.ofNat 128 (low + 2 ^ 64 * high) := by
  apply BitVec.eq_of_toNat_eq
  rw [toNat_ofPair, BitVec.toNat_ofNat, BitVec.toNat_ofNat, BitVec.toNat_ofNat]
  omega

/-- The 128-bit path reads its n bits as one field (20_memory.md R70, R225). -/
theorem rdGetWide_eq_rdGet (n : Nat) (s : State) :
    rdGetWide n s = (rdGet n s).andThen fun v t => .got (BitVec.ofNat 128 v) t := by
  by_cases hn : n ≤ 64
  · rw [rdGetWide, if_pos hn]
    cases rdGet n s <;> rfl
  · have hsplit : rdGetWide n s = (rdGet 64 s).andThen fun low t => (rdGet (n - 64) t).andThen fun high u =>
        .got (Word128.ofPair (BitVec.ofNat 64 high) (BitVec.ofNat 64 low)) u := by
      rw [rdGetWide, if_neg hn]
      cases rdGet 64 s with
      | got low t => dsimp only [Pull.andThen]; cases rdGet (n - 64) t <;> rfl
      | endOfStream t | ioError cause t | brokenContract => rfl
    have hsum : rdGet n s = (rdGet 64 s).andThen fun low t => (rdGet (n - 64) t).andThen fun high u =>
        .got (low + 2 ^ 64 * high) u := by
      rw [← rdGet_add, Nat.add_sub_cancel' (by omega)]
    rw [hsplit, hsum, Pull.andThen_assoc]
    refine Pull.andThen_congr fun low t hlow => ?_
    rw [Pull.andThen_assoc]
    exact Pull.andThen_congr fun high u _ => by rw [ofPair_ofNat high (rdGet_lt hlow)]; rfl

/-! ## The reads as one run of bits (43_reader.md R224, R225, R227) -/

/-- The token of a tagged read takes its value from the low bits of the number read. -/
theorem okToken_readToken_ofNat (sgn : Bool) {n : BitVec 8} (hn : n.toNat ≤ 128) (v : Nat) :
    okToken (readToken sgn n (BitVec.ofNat 128 v)) = readResponse (.tagged sgn n) v := by
  have hlow : signExtend (BitVec.ofNat 128 v).toNat n.toNat = signExtend v n.toNat := by
    rw [signExtend, signExtend, BitVec.toNat_ofNat, Nat.mod_mod_of_dvd v (Nat.pow_dvd_pow 2 hn)]
  rw [readToken, hlow, readResponse]

/-- An open reader's read of a width it accepts: the sticky failure, or a run of bits, whatever the form of the read. -/
theorem exec_readerRead {f : FieldRead} (hf : readAccepted f = true) {s : State} (hopen : s.rd.opened = true) :
    exec (readerRead f) s
      = if s.rd.fatal then raiseIo s.rd.cause s else finishPull (readResponse f) (rdGet (readWidth f) s) := by
  cases f with
  | narrow n =>
    have hn := (not_badCount_iff n 64).mp hf
    exact (openGate_of_open hopen s _).trans (countGate_of_good hn s _)
  | wide n =>
    have hn := (not_badCount_iff n 128).mp hf
    refine (openGate_of_open hopen s _).trans ((countGate_of_good hn s _).trans ?_)
    rw [rdGetWide_eq_rdGet, finishPull_andThen_got]; rfl
  | tagged sgn n =>
    have hn := (not_badCount_iff n 128).mp hf
    refine (openGate_of_open hopen s _).trans ((countGate_of_good hn s _).trans ?_)
    rw [rdGetWide_eq_rdGet, finishPull_andThen_got]
    simp only [okToken_readToken_ofNat sgn hn.2]; rfl

theorem exec_readerRead_of_fatal {f : FieldRead} (hf : readAccepted f = true) {s : State} (hopen : s.rd.opened = true)
    (hfatal : s.rd.fatal = true) : exec (readerRead f) s = .next (s.respond (ioFailed s.rd.cause)) :=
  (exec_readerRead hf hopen).trans (if_pos hfatal)

theorem exec_readerRead_of_refusedCount {f : FieldRead} (hf : readAccepted f = false) {s : State}
    (hopen : s.rd.opened = true) : exec (readerRead f) s = .next (s.respond (failed .invalidBitCount)) := by
  cases f with
  | narrow n | wide n | tagged sgn n =>
    exact (openGate_of_open hopen s _).trans (if_pos (by simpa [readAccepted] using hf))

theorem readWidth_pos_of_accepted {f : FieldRead} (h : readAccepted f = true) : 0 < readWidth f := by
  cases f with
  | narrow n => exact ((not_badCount_iff n 64).mp h).1
  | wide n | tagged sgn n => exact ((not_badCount_iff n 128).mp h).1

end Sys2Proof.Machine
end

section
/-! PROOFS. The stream the reader stands in (43_reader.md R220, R223, R226, R230): a run of bits takes the next bits of
what is loaded and what the source will deliver, and where those end the source's own answer ends the run. -/

namespace Sys2Proof.Machine

/-! ## A reader that reads -/

/-- The reader is open, has not failed and meets its invariant, and its source keeps the contract of R80. -/
structure Reading (s : State) : Prop where
  ok : readerOk s.rd
  opened : s.rd.opened = true
  fatal : s.rd.fatal = false
  source : sourceKeepsContract s

section
variable {s t : State}

/-- Inside the loaded bytes the cursor is in a byte, or at the end of the bytes and at no bit of a further one. -/
theorem Reading.cursor (h : Reading s) :
    s.rd.bytePos ≤ s.rd.bufferSize ∧ s.rd.bitPos < 8 ∧ (s.rd.bytePos = s.rd.bufferSize → s.rd.bitPos = 0) ∧
      (s.rd.atEndOfSource = true → s.rd.bytePos = s.rd.bufferSize) := by
  obtain ⟨-, hopen⟩ := h.ok
  obtain ⟨-, hpos, -, hbit, hclean, hend⟩ := hopen h.opened
  exact ⟨hpos, hbit, hclean, hend⟩

theorem rdBit_got_moved {b : Bool} (hgot : rdBit s = .got b t) : t.rd = movedReader s.rd t.rd := by
  have hmarks := rdBit_marks s
  rwa [hgot] at hmarks

theorem rdGet_got_moved {n v : Nat} (hgot : rdGet n s = .got v t) : t.rd = movedReader s.rd t.rd := by
  have hmarks := rdGet_marks n s
  rwa [hgot] at hmarks

theorem Reading.of_rdBit (h : Reading s) {b : Bool} (hgot : rdBit s = .got b t) : Reading t := by
  have hleaves : (rdBit s).leaves t := by rw [hgot]; rfl
  have hsource := rdBit_sound h.source
  rw [hgot] at hsource
  exact ⟨rdBit_ok h.ok hleaves, (rdBit_outside hleaves).opened.trans h.opened,
    by rw [rdBit_got_moved hgot]; exact h.fatal, hsource⟩

theorem Reading.of_rdGet (h : Reading s) {n v : Nat} (hgot : rdGet n s = .got v t) : Reading t := by
  have hleaves : (rdGet n s).leaves t := by rw [hgot]; rfl
  have hsource := rdGet_sound n h.source
  rw [hgot] at hsource
  exact ⟨rdGet_ok h.ok hleaves, (rdGet_outside hleaves).opened.trans h.opened,
    by rw [rdGet_got_moved hgot]; exact h.fatal, hsource⟩

/-! ## Bits of the stream consumed -/

/-- From `s` to `t` the reader has consumed the next `n` bits of its stream and no others. -/
structure Consumed (n : Nat) (s t : State) : Prop where
  bits : readerBits t = readerBits s / 2 ^ n
  left : readerBitsLeft t = readerBitsLeft s - n

theorem Consumed.none (s : State) : Consumed 0 s s := ⟨by simp, rfl⟩

theorem Consumed.trans {u : State} {m n : Nat} (h : Consumed m s t) (k : Consumed n t u) : Consumed (m + n) s u :=
  ⟨by rw [k.bits, h.bits, Nat.div_div_eq_div_mul, pow_add], by rw [k.left, h.left, Nat.sub_sub]⟩

/-- A reader with the same stream and the same place in its first byte has the same bits to hand out. -/
theorem Consumed.of_same_stream (hstream : readerStream t = readerStream s) (hbit : t.rd.bitPos = s.rd.bitPos) :
    Consumed 0 s t :=
  ⟨by rw [readerBits, readerBits, hstream, hbit, pow_zero, Nat.div_one],
    by rw [readerBitsLeft, readerBitsLeft, hstream, hbit, Nat.sub_zero]⟩

/-! ## The bit under the cursor (R230) -/

/-- While a loaded byte is left, the stream starts with the byte under the cursor. -/
theorem readerStream_eq_cons (h : s.rd.bytePos < s.rd.bufferSize) (i : Nat) :
    readerStream s = s.rd.buf.read s.rd.bytePos ::
      readerStream { s with rd := { s.rd with bytePos := s.rd.bytePos + 1, bitPos := i } } := by
  obtain ⟨k, hk⟩ := Nat.exists_eq_add_of_lt h
  have hrest : s.rd.bufferSize - (s.rd.bytePos + 1) = k := by omega
  have hall : s.rd.bufferSize - s.rd.bytePos = k + 1 := by omega
  simp only [readerStream, unreadBytes, hrest, hall, Memory.readBytes, List.cons_append]

/-- With every loaded byte consumed, the stream is what the source will deliver. -/
theorem readerStream_of_consumed (h : s.rd.bytePos = s.rd.bufferSize) :
    readerStream s = if s.rd.atEndOfSource then [] else tapeBytes s.env.srcReadTape := by
  rw [readerStream, unreadBytes, h, Nat.sub_self]
  exact List.nil_append _

theorem takeBit_consumes (hpos : s.rd.bytePos < s.rd.bufferSize) (hbit : s.rd.bitPos < 8) :
    ∃ t, takeBit s = .got ((readerBits s).testBit 0) t ∧ Consumed 1 s t := by
  have hstream := readerStream_eq_cons hpos 0
  have hvalue : readerBit s.rd = (readerBits s).testBit 0 := by
    rw [readerBits, Nat.testBit_div_two_pow, leValue_testBit, Nat.zero_add, Nat.div_eq_of_lt hbit,
      Nat.mod_eq_of_lt hbit, hstream]
    rfl
  refine ⟨{ s with rd := readerAdvance s.rd }, by rw [← hvalue]; rfl, ?_⟩
  unfold readerAdvance
  split
  next h8 =>
    have h7 : s.rd.bitPos = 7 := by omega
    constructor
    · rw [readerBits, readerBits, hstream, h7, Nat.div_div_eq_div_mul, leValue]
      have hbyte := (s.rd.buf.read s.rd.bytePos).isLt
      dsimp only
      omega
    · rw [readerBitsLeft, readerBitsLeft, hstream, h7, List.length_cons]
      dsimp only
      omega
  next h8 =>
    constructor
    · show _ / 2 ^ (s.rd.bitPos + 1) = _ / 2 ^ s.rd.bitPos / 2 ^ 1
      rw [Nat.div_div_eq_div_mul, ← pow_add]
      rfl
    · exact Nat.sub_add_eq _ _ _

/-! ## The fill (R223) -/

/-- A source whose next answers deliver a byte answers with a chunk, and the bytes to come are those of the chunk. -/
theorem tapeBytes_ne_nil {tape : List ReadAnswer} (h : tapeBytes tape ≠ []) :
    ∃ b bytes rest, tape = .ok (b :: bytes) :: rest := by
  match tape, h with
  | .ok (b :: bytes) :: rest, _ => exact ⟨b, bytes, rest, rfl⟩

/-- A source that delivers no byte before an answer that is no chunk gives that answer next. -/
theorem tape_of_stop {tape : List ReadAnswer} {stop : ReadAnswer} (hbytes : tapeBytes tape = [])
    (hstop : tapeStop tape = some stop) :
    ∃ rest, tape = stop :: rest ∧ (stop = .ok [] ∨ ∃ cause, stop = .err cause) := by
  match tape, hbytes, hstop with
  | .err cause :: rest, _, hstop => cases hstop; exact ⟨rest, rfl, .inr ⟨cause, rfl⟩⟩
  | .ok [] :: rest, _, hstop => cases hstop; exact ⟨rest, rfl, .inl rfl⟩

/-- Filling moves bytes of the stream from the source into the buffer, which are then the whole of what is loaded. -/
theorem fillBuffer_consumes (h : Reading s) (hdone : s.rd.bytePos = s.rd.bufferSize)
    (hmore : s.rd.atEndOfSource = false) (hbytes : tapeBytes s.env.srcReadTape ≠ []) :
    ∃ t, fillBuffer s = .got () t ∧ t.rd.bytePos < t.rd.bufferSize ∧ t.rd.bitPos < 8 ∧ Consumed 0 s t := by
  obtain ⟨b, bytes, rest, htape⟩ := tapeBytes_ne_nil hbytes
  have hfits : (b :: bytes).length ≤ s.rd.capacity :=
    h.source (.ok (b :: bytes)) (by rw [htape]; exact List.mem_cons_self)
  have hans : srcReadAnswer s s.rd.capacity = .ok (b :: bytes) := by rw [srcReadAnswer, htape]
  obtain ⟨hwf, -⟩ := h.ok
  obtain ⟨-, -, hclean, -⟩ := h.cursor
  have hloaded : (s.rd.buf.writeBytes 0 (b :: bytes)).readBytes 0 (b :: bytes).length = b :: bytes :=
    Memory.readBytes_writeBytes hwf 0 _
  rcases fillBuffer_cases s with ⟨_, hc, -⟩ | ⟨_, hc, hlong, -⟩ | ⟨hc, -⟩ | ⟨b', bytes', hc, -, e⟩ <;>
    rw [hans] at hc <;> cases hc
  · omega
  · refine ⟨_, e, Nat.zero_lt_succ _, Nat.zero_lt_succ 7, .of_same_stream ?_ (hclean hdone).symm⟩
    rw [readerStream_of_consumed hdone, hmore, htape]
    simp only [readerStream, unreadBytes, loadChunk, afterSrcRead_srcReadTape, htape, List.tail_cons, Nat.sub_zero,
      hloaded, hmore]
    rfl

/-! ## Bits that are left (R224, R230) -/

/-- With no bit left every loaded byte is consumed, and the source will deliver none. -/
theorem Reading.consumed_of_no_bits (h : Reading s) (hnone : readerBitsLeft s = 0) :
    s.rd.bytePos = s.rd.bufferSize ∧ (s.rd.atEndOfSource = false → tapeBytes s.env.srcReadTape = []) := by
  obtain ⟨hpos, hbit, -, -⟩ := h.cursor
  have hstream : readerStream s = [] := by
    rw [readerBitsLeft] at hnone
    exact List.eq_nil_of_length_eq_zero (by omega)
  have hdone : s.rd.bytePos = s.rd.bufferSize := by
    by_contra hne
    rw [readerStream_eq_cons (by omega) 0] at hstream
    cases hstream
  refine ⟨hdone, fun hmore => ?_⟩
  rwa [readerStream_of_consumed hdone, hmore] at hstream

/-- While a bit is left, a bit step gets the next one and consumes it, after a fill if it must. -/
theorem rdBit_of_bits_left (h : Reading s) (hleft : 0 < readerBitsLeft s) :
    ∃ t, rdBit s = .got ((readerBits s).testBit 0) t ∧ Consumed 1 s t := by
  obtain ⟨hpos, hbit, -, -⟩ := h.cursor
  by_cases hdone : s.rd.bytePos = s.rd.bufferSize
  · have hstream : (readerStream s).length ≠ 0 := by rw [readerBitsLeft] at hleft; omega
    rw [readerStream_of_consumed hdone] at hstream
    cases hmore : s.rd.atEndOfSource with
    | true => rw [hmore] at hstream; exact absurd rfl hstream
    | false =>
      have hbytes : tapeBytes s.env.srcReadTape ≠ [] := fun hnil => hstream (by rw [hmore, hnil]; rfl)
      obtain ⟨t, e, htpos, htbit, hfill⟩ := fillBuffer_consumes h hdone hmore hbytes
      obtain ⟨u, e', htake⟩ := takeBit_consumes htpos htbit
      have hbits : readerBits t = readerBits s := by simpa using hfill.bits
      refine ⟨u, ?_, by simpa using hfill.trans htake⟩
      rw [rdBit, if_pos hdone, hmore, e, ← hbits]
      exact e'
  · obtain ⟨t, e, htake⟩ := takeBit_consumes (s := s) (by omega) hbit
    exact ⟨t, by rw [rdBit, if_neg hdone, e], htake⟩

/-- A run of bits that are left gets the next ones as a number and consumes them. -/
theorem rdGet_of_bits_left {n : Nat} (h : Reading s) (hleft : n ≤ readerBitsLeft s) :
    ∃ t, rdGet n s = .got (readerBits s % 2 ^ n) t ∧ Consumed n s t := by
  induction n generalizing s with
  | zero => exact ⟨s, by rw [pow_zero, Nat.mod_one]; rfl, .none s⟩
  | succ n ih =>
    obtain ⟨t, e, hbit⟩ := rdBit_of_bits_left h (by omega)
    have htleft := hbit.left
    obtain ⟨u, e', hrest⟩ := ih (h.of_rdBit e) (by omega)
    refine ⟨u, ?_, Nat.add_comm 1 n ▸ hbit.trans hrest⟩
    have hfirst : ((readerBits s).testBit 0).toNat = readerBits s % 2 := by
      rw [Nat.testBit_zero]; rcases Nat.mod_two_eq_zero_or_one (readerBits s) with h2 | h2 <;> simp [h2]
    rw [rdGet_succ, e, Pull.got_andThen, e', Pull.got_andThen, hbit.bits, hfirst, pow_one, pow_succ', Nat.mod_mul]

/-! ## A run past the last bit (R226) -/

/-- The step fails as the source's answer says: at end of data with `EndOfStream`, else with the cause. -/
def Pull.stopsAs {α : Type} (stop : ReadAnswer) : Pull α → Prop
  | .got _ _ => False
  | .endOfStream _ => stop = .ok []
  | .ioError cause _ => stop = .err cause
  | .brokenContract => False

theorem Pull.andThen_stopsAs {α β : Type} {stop : ReadAnswer} {p : Pull α} (h : p.stopsAs stop)
    (next : α → State → Pull β) : (p.andThen next).stopsAs stop := by
  cases p with
  | endOfStream t | ioError cause t => exact h
  | got v t | brokenContract => exact h.elim

/-- With no bit left before the source's next answer that is no chunk, a bit step ends as that answer says. -/
theorem rdBit_stopsAs (h : Reading s) (hnone : readerBitsLeft s = 0) (hmore : s.rd.atEndOfSource = false)
    {stop : ReadAnswer} (hstop : tapeStop s.env.srcReadTape = some stop) : (rdBit s).stopsAs stop := by
  obtain ⟨hdone, hbytes⟩ := h.consumed_of_no_bits hnone
  obtain ⟨rest, htape, hkind⟩ := tape_of_stop (hbytes hmore) hstop
  have hans : srcReadAnswer s s.rd.capacity = stop := by rw [srcReadAnswer, htape]
  rw [rdBit, if_pos hdone, hmore]
  rcases fillBuffer_cases s with ⟨cause, hc, e⟩ | ⟨bytes, hc, hlong, -⟩ | ⟨hc, e⟩ | ⟨b, bytes, hc, -, -⟩
  · rw [e]; exact hans.symm.trans hc
  · rcases hkind with rfl | ⟨cause, rfl⟩ <;> rw [hans] at hc <;> cases hc
    exact absurd hlong (Nat.not_lt_zero _)
  · rw [e]; exact hans.symm.trans hc
  · rcases hkind with rfl | ⟨cause, rfl⟩ <;> rw [hans] at hc <;> cases hc

/-- Chunks the reader takes do not change where its source stops delivering them. -/
theorem fillBuffer_tapeStop (hgot : fillBuffer s = .got () t) :
    tapeStop t.env.srcReadTape = tapeStop s.env.srcReadTape := by
  rcases fillBuffer_cases s with ⟨_, -, e⟩ | ⟨_, -, -, e⟩ | ⟨-, e⟩ | ⟨b, bytes, hans, -, e⟩ <;> rw [e] at hgot <;>
    cases hgot
  show tapeStop s.env.srcReadTape.tail = _
  unfold srcReadAnswer at hans
  split at hans
  next htape => cases hans; rw [htape]; rfl
  next htape => rw [htape]; rfl

theorem rdBit_tapeStop {b : Bool} (hgot : rdBit s = .got b t) :
    tapeStop t.env.srcReadTape = tapeStop s.env.srcReadTape := by
  unfold rdBit at hgot
  split at hgot
  · split at hgot
    · cases hgot
    · cases e : fillBuffer s <;> rw [e] at hgot <;> cases hgot
      exact (fillBuffer_tapeStop e :)
  · cases hgot; rfl

/-- A run of more bits than are left ends as the source's first answer that is no chunk says. -/
theorem rdGet_stopsAs {n : Nat} (h : Reading s) (hfew : readerBitsLeft s < n) (hmore : s.rd.atEndOfSource = false)
    {stop : ReadAnswer} (hstop : tapeStop s.env.srcReadTape = some stop) : (rdGet n s).stopsAs stop := by
  induction n generalizing s with
  | zero => exact absurd hfew (Nat.not_lt_zero _)
  | succ n ih =>
    rw [rdGet_succ]
    rcases Nat.eq_zero_or_pos (readerBitsLeft s) with hnone | hleft
    · exact Pull.andThen_stopsAs (rdBit_stopsAs h hnone hmore hstop) _
    · obtain ⟨t, e, hbit⟩ := rdBit_of_bits_left h hleft
      have htleft := hbit.left
      rw [e, Pull.got_andThen]
      exact Pull.andThen_stopsAs (ih (h.of_rdBit e) (by omega) (by rw [rdBit_got_moved e]; exact hmore)
        (by rw [rdBit_tapeStop e]; exact hstop)) _

/-- A step that fails leaves every loaded byte consumed. -/
def Pull.failsConsumed {α : Type} : Pull α → Prop
  | .got _ _ => True
  | .endOfStream t => t.rd.bytePos = t.rd.bufferSize
  | .ioError _ t => t.rd.bytePos = t.rd.bufferSize
  | .brokenContract => True

theorem Pull.andThen_failsConsumed {α β : Type} {p : Pull α} (h : p.failsConsumed) {next : α → State → Pull β}
    (hnext : ∀ v t, (next v t).failsConsumed) : (p.andThen next).failsConsumed := by
  cases p with
  | got v t => exact hnext v t
  | endOfStream t | ioError cause t | brokenContract => exact h

/-- A bit step fails only in a fill or at the end of the source, both met with the cursor at the end of the buffer. -/
theorem rdBit_failsConsumed (s : State) : (rdBit s).failsConsumed := by
  unfold rdBit
  split
  next hdone =>
    split
    · exact hdone
    · rcases fillBuffer_cases s with ⟨_, -, e⟩ | ⟨_, -, -, e⟩ | ⟨-, e⟩ | ⟨_, _, -, -, e⟩ <;> rw [e]
      · exact hdone
      · trivial
      · exact hdone
      · trivial
  next => trivial

theorem rdGet_failsConsumed (n : Nat) (s : State) : (rdGet n s).failsConsumed := by
  induction n generalizing s with
  | zero => trivial
  | succ n ih =>
    rw [rdGet_succ]
    exact Pull.andThen_failsConsumed (rdBit_failsConsumed s) fun _ t =>
      Pull.andThen_failsConsumed (ih t) fun _ _ => trivial

/-- A run that leaves every loaded byte consumed leaves the cursor at no bit of a further one (R226). -/
theorem Reading.bitPos_of_consumed (h : Reading s) {n : Nat} (hleaves : (rdGet n s).leaves t)
    (hconsumed : t.rd.bytePos = t.rd.bufferSize) : t.rd.bitPos = 0 := by
  obtain ⟨-, hopen⟩ := rdGet_ok h.ok hleaves
  obtain ⟨-, -, -, -, hclean, -⟩ := hopen ((rdGet_outside hleaves).opened.trans h.opened)
  exact hclean hconsumed

/-- All a run of more bits than are left can leave: every loaded byte consumed, and the reader marked as the source's
first answer that is no chunk says (60_exceptions.md R289). -/
theorem rdGet_past_last_bit {n : Nat} (h : Reading s) (hfew : readerBitsLeft s < n) (hmore : s.rd.atEndOfSource = false)
    {stop : ReadAnswer} (hstop : tapeStop s.env.srcReadTape = some stop) :
    ∃ t, OutsideReader s t ∧ t.rd.bytePos = t.rd.bufferSize ∧ t.rd.bitPos = 0 ∧
      ((stop = .ok [] ∧ rdGet n s = .endOfStream t ∧ t.rd = { movedReader s.rd t.rd with atEndOfSource := true }) ∨
        ∃ cause, stop = .err cause ∧ rdGet n s = .ioError cause t ∧
          t.rd = { movedReader s.rd t.rd with fatal := true, cause := cause }) := by
  have hstops := rdGet_stopsAs h hfew hmore hstop
  have hmarks := rdGet_marks n s
  have hconsumed := rdGet_failsConsumed n s
  have houtside : ∀ t, (rdGet n s).leaves t → OutsideReader s t := fun _ => rdGet_outside
  have hbit : ∀ t, (rdGet n s).leaves t → t.rd.bytePos = t.rd.bufferSize → t.rd.bitPos = 0 :=
    fun _ => h.bitPos_of_consumed
  cases e : rdGet n s <;> rw [e] at hstops hmarks hconsumed houtside hbit
  case endOfStream t =>
    exact ⟨t, houtside t rfl, hconsumed, hbit t rfl hconsumed, .inl ⟨hstops, rfl, hmarks⟩⟩
  case ioError cause t =>
    exact ⟨t, houtside t rfl, hconsumed, hbit t rfl hconsumed, .inr ⟨cause, hstops, rfl, hmarks⟩⟩
  all_goals exact hstops.elim

theorem OutsideReader.onlyReading_respond (h : OutsideReader s t) (x : Response) : onlyReading s (t.respond x) :=
  ⟨h.bc, h.wr, h.opened, h.capacity, h.inbox, h.srcCloseTape, h.sinkWriteTape, h.sinkFlushTape, h.sinkCloseTape⟩

/-! ## The read of a reader that reads (R224 to R227) -/

theorem exec_readerRead_of_live {f : FieldRead} (hf : readAccepted f = true) (h : Reading s) :
    exec (readerRead f) s = finishPull (readResponse f) (rdGet (readWidth f) s) :=
  (exec_readerRead hf h.opened).trans (if_neg (by rw [h.fatal]; decide))

/-- A read of bits that are left answers them and consumes them. -/
theorem exec_readerRead_of_bits_left {f : FieldRead} (hf : readAccepted f = true) (h : Reading s)
    (hleft : readWidth f ≤ readerBitsLeft s) :
    ∃ t, exec (readerRead f) s = .next (t.respond (readResponse f (readerBits s % 2 ^ readWidth f))) ∧
      rdGet (readWidth f) s = .got (readerBits s % 2 ^ readWidth f) t ∧ Consumed (readWidth f) s t := by
  obtain ⟨t, e, hconsumed⟩ := rdGet_of_bits_left h hleft
  exact ⟨t, by rw [exec_readerRead_of_live hf h, e]; rfl, e, hconsumed⟩

/-- A reader at the end of its source answers a read at its first bit (R223). -/
theorem rdGet_of_atEnd (h : Reading s) (hend : s.rd.atEndOfSource = true) {n : Nat} (hn : 0 < n) :
    rdGet n s = .endOfStream s := by
  obtain ⟨-, -, -, hdone⟩ := h.cursor
  obtain ⟨m, rfl⟩ := Nat.exists_eq_succ_of_ne_zero hn.ne'
  have hbit : rdBit s = .endOfStream s := by rw [rdBit, if_pos (hdone hend), if_pos hend]
  rw [rdGet_succ, hbit]; rfl

end

/-! ## The statements about one read -/

/-- Settles O48, by a run of bits: each is the next of the stream, whether it is loaded or takes a fill. -/
theorem readerReadsItsStream : Obligations.ReaderReadsItsStream := by
  intro f s hok hopen hlive hsource hf hleft
  have h : Reading s := ⟨hok, hopen, hlive, hsource⟩
  obtain ⟨t, hexec, hget, hconsumed⟩ := exec_readerRead_of_bits_left hf h hleft
  have hmoved := rdGet_got_moved hget
  have ho : OutsideReader s t := rdGet_outside (n := readWidth f) (by rw [hget]; rfl)
  refine ⟨_, hexec, ?_, hconsumed.bits, hconsumed.left, ho.bc, ho.wr, ho.opened.trans hopen, ho.capacity,
    (h.of_rdGet hget).fatal, ?_, ?_, ho.inbox, ho.srcCloseTape, ho.sinkWriteTape, ho.sinkFlushTape, ho.sinkCloseTape⟩
  · rw [respond_responses, ho.responses]
  · rw [respond_rd, hmoved]; rfl
  · rw [respond_rd, hmoved]; rfl

/-- Settles O49: at the end already, or at the end the source answers with where its chunks end. -/
theorem readerMeetsTheEndOfItsSource : Obligations.ReaderMeetsTheEndOfItsSource := by
  intro f s hok hopen hlive hsource hf
  have h : Reading s := ⟨hok, hopen, hlive, hsource⟩
  rw [exec_readerRead_of_live hf h]
  refine ⟨fun hend => ?_, fun hmore hstop hfew => ?_⟩
  · rw [rdGet_of_atEnd h hend (readWidth_pos_of_accepted hf)]; rfl
  · obtain ⟨t, ho, hpos, hbit, ⟨-, e, hended⟩ | ⟨_, hc, -⟩⟩ := rdGet_past_last_bit h hfew hmore hstop
    · refine ⟨t.respond (failed .endOfStream), by rw [e]; rfl, ?_, ?_, ?_, ?_, hpos, hbit, ho.onlyReading_respond _⟩
      · rw [respond_responses, ho.responses]
      · rw [respond_rd, hended]
      · rw [respond_rd, hended]; exact hlive
      · rw [respond_rd, hended]; rfl
    · cases hc

/-- Settles O50: the sticky failure, or the failure the source answers with where its chunks end. -/
theorem readerFailureIsFatalAndSticky : Obligations.ReaderFailureIsFatalAndSticky := by
  intro f s hopen hf
  refine ⟨exec_readerRead_of_fatal hf hopen, fun cause hok hlive hmore hsource hstop hfew => ?_⟩
  have h : Reading s := ⟨hok, hopen, hlive, hsource⟩
  rw [exec_readerRead_of_live hf h]
  obtain ⟨t, ho, hpos, hbit, ⟨hc, -⟩ | ⟨_, hc, e, hfailed⟩⟩ := rdGet_past_last_bit h hfew hmore hstop <;> cases hc
  refine ⟨t.respond (ioFailed cause), by rw [e]; rfl, ?_, ?_, ?_, ?_, hpos, hbit, ho.onlyReading_respond _⟩
  · rw [respond_responses, ho.responses]
  · rw [respond_rd, hfailed]
  · rw [respond_rd, hfailed]
  · rw [respond_rd, hfailed]; exact hmore

end Sys2Proof.Machine
end

section
/-! PROOFS. The source calls of a read (43_reader.md R223, R230, 70_reset_and_hazards.md R320): a fill is made only with
every loaded bit taken and loads at least one byte. -/

namespace Sys2Proof.Machine

/-! ## Calls of the source -/

/-- From `s` to `t` the block has made `k` port calls, each a `SrcRead` of the reader's whole capacity. -/
def CallsSource (k : Nat) (s t : State) : Prop :=
  ∃ calls : List PortCall, t.env.calls = s.env.calls ++ calls ∧ calls.length = k ∧
    ∀ c ∈ calls, ∃ a, c = .srcRead s.rd.capacity a

theorem callsSource_none {s t : State} (h : t.env.calls = s.env.calls) : CallsSource 0 s t :=
  ⟨[], by rw [h, List.append_nil], rfl, fun _ hc => nomatch hc⟩

theorem callsSource_fill {s t : State} (h : t.env.calls = (afterSrcRead s s.rd.capacity).env.calls) :
    CallsSource 1 s t :=
  ⟨_, h, rfl, fun _ hc => ⟨_, List.mem_singleton.mp hc⟩⟩

theorem CallsSource.trans {s t u : State} {j k : Nat} (h : CallsSource j s t) (h' : CallsSource k t u)
    (hcap : t.rd.capacity = s.rd.capacity) : CallsSource (j + k) s u := by
  obtain ⟨calls, hcalls, rfl, hread⟩ := h
  obtain ⟨calls', hcalls', rfl, hread'⟩ := h'
  refine ⟨calls ++ calls', by rw [hcalls', hcalls, List.append_assoc], List.length_append, fun c hc => ?_⟩
  rcases List.mem_append.mp hc with hc | hc
  · exact hread c hc
  · exact hcap ▸ hread' c hc

/-! ## Bits a reader takes without a fill -/

/-- The bits that are left of the byte under the cursor, all of which can be taken before the next fill. -/
def bitsOfByteLeft (r : Reader) : Nat := if r.bytePos = r.bufferSize then 0 else 8 - r.bitPos

theorem bitsOfByteLeft_le_readerAdvance (r : Reader) : bitsOfByteLeft r ≤ bitsOfByteLeft (readerAdvance r) + 1 := by
  unfold bitsOfByteLeft readerAdvance
  split
  · exact Nat.zero_le _
  next =>
    split
    · omega
    · dsimp only; omega

/-- The first bit of a chunk leaves the seven others of its byte. -/
theorem bitsOfByteLeft_first (b : Byte) (bytes : List Byte) (r : Reader) :
    bitsOfByteLeft (readerAdvance (loadChunk (b :: bytes) r)) = 7 := rfl

/-- A bit step calls the source once or not at all: once only at the end of the loaded bytes, and then seven further
bits stand ready if it got one. -/
theorem rdBit_callsSource {s t : State} (h : (rdBit s).leaves t) :
    (CallsSource 0 s t ∧ bitsOfByteLeft s.rd ≤ bitsOfByteLeft t.rd + 1) ∨
      (CallsSource 1 s t ∧ bitsOfByteLeft s.rd = 0 ∧ ((∃ b, rdBit s = .got b t) → bitsOfByteLeft t.rd = 7)) := by
  by_cases hdone : s.rd.bytePos = s.rd.bufferSize
  · have hnone : bitsOfByteLeft s.rd = 0 := if_pos hdone
    have hstep : rdBit s = if s.rd.atEndOfSource then .endOfStream s else (fillBuffer s).andThen fun _ => takeBit := by
      rw [rdBit, if_pos hdone]
      cases fillBuffer s <;> rfl
    rw [hstep] at h ⊢
    split at h
    next => cases h; exact .inl ⟨callsSource_none rfl, by omega⟩
    next hmore =>
      rw [if_neg hmore]
      rcases fillBuffer_cases s with ⟨_, -, e⟩ | ⟨_, -, -, e⟩ | ⟨-, e⟩ | ⟨b, bytes, -, -, e⟩ <;> rw [e] at h ⊢ <;>
        cases h
      · exact .inr ⟨callsSource_fill rfl, hnone, fun ⟨_, hgot⟩ => nomatch hgot⟩
      · exact .inr ⟨callsSource_fill rfl, hnone, fun ⟨_, hgot⟩ => nomatch hgot⟩
      · exact .inr ⟨callsSource_fill rfl, hnone, fun _ => bitsOfByteLeft_first b bytes s.rd⟩
  · rw [rdBit, if_neg hdone] at h
    cases h
    exact .inl ⟨callsSource_none rfl, bitsOfByteLeft_le_readerAdvance s.rd⟩

/-- A run of n bits calls the source once for each eight bits it takes beyond those that stand ready. -/
theorem rdGet_callsSource {n : Nat} {s u : State} (h : (rdGet n s).leaves u) :
    ∃ k, CallsSource k s u ∧ 8 * k ≤ n - bitsOfByteLeft s.rd + 7 := by
  induction n generalizing s with
  | zero => cases h; exact ⟨0, callsSource_none rfl, Nat.zero_le _⟩
  | succ n ih =>
    have hstep := fun t => rdBit_callsSource (s := s) (t := t)
    have houtside := fun t => rdBit_outside (s := s) (u := t)
    rw [rdGet_succ] at h
    cases e : rdBit s <;> rw [e] at h hstep houtside
    case got b t =>
      have hrest : (rdGet n t).leaves u := by
        rw [Pull.got_andThen] at h
        cases e' : rdGet n t <;> rw [e'] at h <;> exact h
      obtain ⟨k, hcalls, hle⟩ := ih hrest
      have hcap := (houtside t rfl).capacity
      rcases hstep t rfl with ⟨hnone, hready⟩ | ⟨hfill, hready, hseven⟩
      · exact ⟨0 + k, hnone.trans hcalls hcap, by omega⟩
      · have hseven := hseven ⟨b, rfl⟩
        exact ⟨1 + k, hfill.trans hcalls hcap, by omega⟩
    case brokenContract => exact h.elim
    all_goals
      rcases hstep u h with ⟨hnone, -⟩ | ⟨hfill, hready, -⟩
      · exact ⟨0, hnone, by omega⟩
      · exact ⟨1, hfill, by omega⟩

/-- A read that has a next state answers from the state it met or from the one its run of bits left. -/
theorem readerRead_answersFrom (f : FieldRead) (s : State) :
    AnswersFrom (fun u => u = s ∨ (rdGet (readWidth f) s).leaves u) (exec (readerRead f) s) := by
  cases hopen : s.rd.opened with
  | false => rw [exec_readerRead_of_closed hopen f]; exact answersFrom_answer (.inl rfl) _
  | true =>
    cases hf : readAccepted f with
    | false => rw [exec_readerRead_of_refusedCount hf hopen]; exact answersFrom_answer (.inl rfl) _
    | true =>
      rw [exec_readerRead hf hopen]
      exact answersFrom_ite (answersFrom_answer (.inl rfl) _) fun _ => answersFrom_finishPull fun _ => .inr

/-- Settles O51: a read that is refused or fails at once makes no call, and a run of bits makes few. -/
theorem readsMakeFewSourceCalls : Obligations.ReadsMakeFewSourceCalls := by
  intro f s t ht
  obtain ⟨u, x, rfl | hleaves, rfl⟩ := readerRead_answersFrom f s t ht
  · exact ⟨[], (List.append_nil _).symm, Nat.zero_le _, fun _ hc => nomatch hc⟩
  · obtain ⟨k, ⟨calls, hcalls, rfl, hread⟩, hle⟩ := rdGet_callsSource hleaves
    exact ⟨calls, hcalls, by omega, hread⟩

end Sys2Proof.Machine
end

section
/-! PROOFS. The reader in front of its source answers what the container loaded with the source's bytes answers
(43_reader.md R231, 42_container.md R197). -/

namespace Sys2Proof.Machine

/-! ## Slices of what is left (20_memory.md R63) -/

theorem Memory.extract_mod (m : Memory) (p : Nat) {n k : Nat} (h : n ≤ k) : m.extract p k % 2 ^ n = m.extract p n := by
  refine Nat.eq_of_testBit_eq fun i => ?_
  rw [Nat.testBit_mod_two_pow, Memory.extract_testBit, Memory.extract_testBit]
  by_cases hi : i < n
  · simp [hi, show i < k by omega]
  · simp [hi]

theorem Memory.extract_div (m : Memory) (p n k : Nat) : m.extract p k / 2 ^ n = m.extract (p + n) (k - n) := by
  refine Nat.eq_of_testBit_eq fun i => ?_
  rw [Nat.testBit_div_two_pow, Memory.extract_testBit, Memory.extract_testBit, show p + n + i = p + (i + n) by omega]
  congr 1
  exact decide_eq_decide.mpr (by omega)

/-! ## The simulation -/

/-- The container of `s` and the reader of `t` have the same bits to hand out, and have answered alike. -/
structure ReadsAlike (s t : State) : Prop where
  reading : Reading t
  left : s.bc.bitLength = s.bc.cursor + readerBitsLeft t
  bits : bcGet (readerBitsLeft t) s.bc = readerBits t
  responses : t.env.responses = s.env.responses

/-- The same field read of bits that are left is answered alike. -/
theorem fieldRead_readsAlike {s t : State} (h : ReadsAlike s t) {f : FieldRead} (hf : readAccepted f = true)
    (hleft : readWidth f ≤ readerBitsLeft t) :
    ∃ s' t', exec (containerRead f) s = .next s' ∧ exec (readerRead f) t = .next t' ∧ ReadsAlike s' t' ∧
      readerBitsLeft t' = readerBitsLeft t - readWidth f := by
  obtain ⟨u, hexec, hget, hconsumed⟩ := exec_readerRead_of_bits_left hf h.reading hleft
  obtain ⟨hok, hopened, hfatal, hsource⟩ := h.reading.of_rdGet hget
  have hsent : u.env.responses = t.env.responses :=
    (rdGet_outside (n := readWidth f) (by rw [hget]; rfl)).responses
  have hsame : bcGet (readWidth f) s.bc = readerBits t % 2 ^ readWidth f := by
    rw [← h.bits]; exact (Memory.extract_mod _ _ hleft).symm
  have hslength := h.left
  have huleft := hconsumed.left
  refine ⟨_, _, exec_containerRead hf (by omega), hexec, ⟨⟨hok, hopened, hfatal, hsource⟩, ?_, ?_, ?_⟩, huleft⟩
  · show s.bc.bitLength = s.bc.cursor + readWidth f + readerBitsLeft u
    omega
  · show s.bc.storage.extract (s.bc.cursor + readWidth f) (readerBitsLeft u) = readerBits u
    rw [hconsumed.bits, huleft, ← Memory.extract_div, ← h.bits]
    rfl
  · rw [respond_responses, respond_responses, hsent, h.responses, hsame]
    rfl

theorem fieldReads_readsAlike {fs : List FieldRead} {s t : State} (h : ReadsAlike s t)
    (hfs : ∀ f ∈ fs, readAccepted f = true) (hleft : (fs.map readWidth).sum ≤ readerBitsLeft t) :
    ∃ s' t', execAll (fs.map containerRead) s = .next s' ∧ execAll (fs.map readerRead) t = .next t' ∧
      ReadsAlike s' t' := by
  induction fs generalizing s t with
  | nil => exact ⟨s, t, rfl, rfl, h⟩
  | cons f fs ih =>
    rw [List.map_cons, List.sum_cons] at hleft
    obtain ⟨hf, hrest⟩ := List.forall_mem_cons.mp hfs
    obtain ⟨s₁, t₁, es, et, h₁, hleft₁⟩ := fieldRead_readsAlike h hf (by omega)
    obtain ⟨s₂, t₂, es', et', h₂⟩ := ih h₁ hrest (by omega)
    refine ⟨s₂, t₂, ?_, ?_, h₂⟩
    · rw [List.map_cons, execAll_cons_of_next es, es']
    · rw [List.map_cons, execAll_cons_of_next et, et']

/-! ## The start: a container just loaded and a reader just opened -/

/-- The container that holds the bytes of a payload (42_container.md R182). -/
def loadedContainer (payload : List Byte) : Container := ⟨Memory.writeBytes [] 0 payload, 0, 8 * payload.length⟩

theorem exec_bcLoad {payload : List Byte} (h : 8 * payload.length ≤ Config.maxBits) (s : State) :
    exec (.bcLoad payload) s = .next ((s.withContainer (loadedContainer payload)).respond (okValue 0)) :=
  if_neg (Nat.not_lt.mpr h)

/-- The whole of a loaded container is the number its payload spells. -/
theorem bcGet_loadedContainer (payload : List Byte) :
    bcGet (8 * payload.length) (loadedContainer payload) = leValue payload := by
  have hwhole : leValue payload < 2 ^ (8 * payload.length) := by
    rw [pow_mul]; exact leValue_lt payload
  have hcover : 0 % 8 + 8 * payload.length ≤ 8 * payload.length := by omega
  show (Memory.writeBytes [] 0 payload).extract 0 (8 * payload.length) = _
  rw [Memory.extract_eq_window hcover, Nat.zero_div, Nat.zero_mod, pow_zero, Nat.div_one,
    Memory.readBytes_writeBytes rfl, Nat.mod_eq_of_lt hwhole]

theorem openedReader_ok {r : Reader} (hwf : r.buf.wf = true) {cap : BitVec 32}
    (hcap : Config.capMin ≤ askedCapacity cap) : readerOk (openedReader cap r) :=
  ⟨hwf, fun _ => ⟨askedCapacity_ok (Nat.not_lt.mpr hcap), Nat.le_refl 0, Nat.zero_le _, Nat.zero_lt_succ 7,
    fun _ => rfl, fun _ => rfl⟩⟩

/-- A reader just opened stands in the bytes its source will deliver (R220, R221), and a container just loaded with them
stands at the first of their bits. -/
theorem opened_readsAlike {s : State} (hwf : s.rd.buf.wf = true) {cap : BitVec 32}
    (hcap : Config.capMin ≤ askedCapacity cap)
    (hsource : ∀ a ∈ s.env.srcReadTape, keepsContract (askedCapacity cap) a) :
    ReadsAlike ((s.withContainer (loadedContainer (tapeBytes s.env.srcReadTape))).respond (okValue 0))
      (({ s with rd := openedReader cap s.rd } : State).respond (okValue 0)) where
  reading := ⟨openedReader_ok hwf hcap, rfl, rfl, hsource⟩
  left := (Nat.zero_add _).symm
  bits := (bcGet_loadedContainer _).trans (Nat.div_one _).symm
  responses := rfl

/-- Settles O54, by running the container and the reader over the same fields: at the start both have all the bits of
the source's bytes to hand out, and every field takes the same bits from both. -/
theorem readerAgreesWithTheContainer : Obligations.ReaderAgreesWithTheContainer := by
  intro fs cap s hclosed hwf hcap hsource hfs hsum hmax
  obtain ⟨t, u, et, eu, halike⟩ := fieldReads_readsAlike (opened_readsAlike hwf hcap hsource) hfs hsum
  refine ⟨t, u, ?_, ?_, halike.responses⟩
  · rw [execAll_cons_of_next (exec_bcLoad hmax s), et]
  · rw [execAll_cons_of_next (exec_rdOpen hclosed hcap), eu]

end Sys2Proof.Machine
end

section
/-! PROOFS. The Buffered Writer's field writes (44_writer.md R250, R253 to R257): a run of bits as bits placed in the
buffer with at most one full buffer handed over on the way, and the stream of bytes it appends to. -/

namespace Sys2Proof.Machine

/-! ## Bits placed in the buffer (R257) -/

/-- The bits pending in the buffer. -/
def bufferBits (w : Writer) : Nat := 8 * w.bytePos + w.bitPos

/-- The writer with one bit more in its buffer, before a full buffer is handed over. -/
def placeNext (b : Bool) (w : Writer) : Writer :=
  { placeBit b w with
    bitPos := if w.bitPos + 1 = 8 then 0 else w.bitPos + 1
    bytePos := if w.bitPos + 1 = 8 then w.bytePos + 1 else w.bytePos }

/-- The writer with the n low bits of v more in its buffer, before a full buffer is handed over. -/
def placeBits : Nat → Nat → Writer → Writer
  | 0, _, w => w
  | n + 1, v, w => placeBits n (v / 2) (placeNext (v.testBit 0) w)

/-- Hand the buffer over where it is full (R253). -/
def flushIfFull (s : State) : Push := if s.wr.bytePos = s.wr.capacity then flushFull s else .done s

@[simp] theorem placeNext_capacity (b : Bool) (w : Writer) : (placeNext b w).capacity = w.capacity := rfl

theorem placeNext_bitPos_lt {w : Writer} (h : w.bitPos < 8) (b : Bool) : (placeNext b w).bitPos < 8 := by
  unfold placeNext; dsimp only; split <;> omega

theorem bufferBits_placeNext (b : Bool) (w : Writer) : bufferBits (placeNext b w) = bufferBits w + 1 := by
  unfold bufferBits placeNext; dsimp only; split <;> omega

@[simp] theorem placeBits_capacity (n v : Nat) (w : Writer) : (placeBits n v w).capacity = w.capacity := by
  induction n generalizing v w with
  | zero => rfl
  | succ n ih => rw [placeBits, ih, placeNext_capacity]

theorem placeBits_bitPos_lt {n v : Nat} {w : Writer} (h : w.bitPos < 8) : (placeBits n v w).bitPos < 8 := by
  induction n generalizing v w with
  | zero => exact h
  | succ n ih => exact ih (placeNext_bitPos_lt h _)

theorem bufferBits_placeBits (n v : Nat) (w : Writer) : bufferBits (placeBits n v w) = bufferBits w + n := by
  induction n generalizing v w with
  | zero => rfl
  | succ n ih => rw [placeBits, ih, bufferBits_placeNext]; omega

/-- One bit is placed, and the buffer handed over where it is then full (R257). -/
theorem wrBit_eq_flushIfFull {s : State} (h : s.wr.bytePos < s.wr.capacity) (b : Bool) :
    wrBit b s = flushIfFull { s with wr := placeNext b s.wr } := by
  rcases wrBit_cases b s with ⟨h8, hend, e⟩ | ⟨h8, hend, e⟩ | ⟨h8, e⟩ <;>
    simp only [e, flushIfFull, placeNext, h8, if_true, if_false]
  · exact (if_pos hend).symm
  · exact (if_neg hend).symm
  · exact (if_neg h.ne).symm

/-- A run of bits that stays within the buffer places them, and hands the buffer over where it fills it. -/
theorem wrBits_eq_flushIfFull {n : Nat} {s : State} (hpos : s.wr.bytePos < s.wr.capacity) (hbit : s.wr.bitPos < 8)
    (hroom : bufferBits s.wr + n ≤ 8 * s.wr.capacity) (v : Nat) :
    wrBits n v s = flushIfFull { s with wr := placeBits n v s.wr } := by
  induction n generalizing v s with
  | zero => exact (if_neg hpos.ne).symm
  | succ n ih =>
    have hnext := bufferBits_placeNext (v.testBit 0) s.wr
    rw [wrBits, wrBit_eq_flushIfFull hpos, placeBits]
    by_cases hfull : (placeNext (v.testBit 0) s.wr).bytePos = s.wr.capacity
    · obtain rfl : n = 0 := by unfold bufferBits at hnext hroom; omega
      rw [placeBits]
      cases flushIfFull { s with wr := placeNext (v.testBit 0) s.wr } <;> rfl
    · have hbit' := placeNext_bitPos_lt hbit (v.testBit 0)
      have hdone : flushIfFull { s with wr := placeNext (v.testBit 0) s.wr }
        = .done { s with wr := placeNext (v.testBit 0) s.wr } := if_neg hfull
      rw [hdone]
      refine ih ?_ hbit' ?_ (v / 2)
      · show (placeNext (v.testBit 0) s.wr).bytePos < s.wr.capacity
        unfold bufferBits at hnext hroom; omega
      · show bufferBits (placeNext (v.testBit 0) s.wr) + n ≤ 8 * s.wr.capacity
        omega

/-- A run of bits goes on after its first j as a run of the others. -/
theorem wrBits_add_of_done {j v : Nat} {s t : State} (h : wrBits j v s = .done t) (k : Nat) :
    wrBits (j + k) v s = wrBits k (v / 2 ^ j) t := by
  rw [← wrSegments_pair, wrSegments, h, ← wrSegments_singleton]

theorem wrBits_add_of_ioError {j v : Nat} {s t : State} {cause : Word64} (h : wrBits j v s = .ioError cause t)
    (k : Nat) : wrBits (j + k) v s = .ioError cause t := by
  rw [← wrSegments_pair, wrSegments, h]

/-! ## The bits the writer stands after (R250) -/

theorem placeNext_buf_wf {w : Writer} (h : w.buf.wf = true) (b : Bool) : (placeNext b w).buf.wf = true :=
  placeBit_buf_wf h b

theorem placeBits_buf_wf {n v : Nat} {w : Writer} (h : w.buf.wf = true) : (placeBits n v w).buf.wf = true := by
  induction n generalizing v w with
  | zero => exact h
  | succ n ih => exact ih (placeNext_buf_wf h _)

section
variable {calls : List PortCall} {m : Memory} {p : Nat} {w : Writer}

theorem Mirrors.placeNext (h : Mirrors calls m p w) (hwf : w.buf.wf = true) (b : Bool) :
    Mirrors calls (m.setBit p b) (p + 1) (placeNext b w) :=
  h.place hwf b (by by_cases h8 : w.bitPos + 1 = 8 <;> simp [h8])

/-- Bits placed in the buffer are the `Deposit` of their field (20_memory.md R64). -/
theorem Mirrors.placeBits (h : Mirrors calls m p w) (hwf : w.buf.wf = true) (n v : Nat) :
    Mirrors calls (m.deposit p n v) (p + n) (placeBits n v w) := by
  induction n generalizing m p v w with
  | zero => exact h
  | succ n ih =>
    have hrest := ih (h.placeNext hwf (v.testBit 0)) (placeNext_buf_wf hwf _) (v / 2)
    rwa [Nat.add_assoc, Nat.add_comm 1 n] at hrest

theorem Mirrors.position (h : Mirrors calls m p w) : 8 * (sunkBytes calls).length + bufferBits w = p := by
  have hlen := h.length
  have hbit := h.bitPos
  unfold bufferBits; omega

theorem pendingByte_lt (hok : writerOk w) (hopen : w.opened = true) : (pendingByte w).toNat < 2 ^ w.bitPos := by
  obtain ⟨-, hinv⟩ := hok
  obtain ⟨-, -, -, hpending⟩ := hinv hopen
  unfold pendingByte
  split
  next hzero => simp [hzero]
  next hbegun => exact hpending (Nat.pos_of_ne_zero hbegun)

/-- Whatever the sink has taken, it and the buffer hold the first bits of a memory: their bytes, the byte begun with
them, stored over nothing. -/
theorem exists_mirrors (calls : List PortCall) (hbit : w.bitPos < 8) :
    ∃ m, Mirrors calls m (8 * (sunkBytes calls).length + bufferBits w) w := by
  have hempty : Memory.wf [] = true := rfl
  obtain ⟨full, hfull⟩ : ∃ full, full = sunkBytes calls ++ w.buf.readBytes 0 w.bytePos := ⟨_, rfl⟩
  have hlen : full.length = (sunkBytes calls).length + w.bytePos := by simp [hfull]
  have hstored := Memory.readBytes_writeBytes hempty 0 (full ++ [pendingByte w])
  rw [List.length_append, List.length_singleton, Memory.readBytes_succ, Nat.zero_add] at hstored
  obtain ⟨hbytes, hbyte⟩ := List.append_inj hstored (Memory.readBytes_length _ _ _)
  have hdiv : (8 * (sunkBytes calls).length + bufferBits w) / 8 = full.length := by
    unfold bufferBits; omega
  refine ⟨Memory.writeBytes [] 0 (full ++ [pendingByte w]), ?_, ?_, ?_, Memory.writeBytes_wf hempty 0 _, fun a ha => ?_⟩
  · rw [hdiv, hbytes, hfull]
  · rw [hdiv]; exact (List.singleton_inj.mp hbyte).symm
  · unfold bufferBits; omega
  · by_cases hend : a = full.length
    · have hzero : w.bitPos = 0 := by unfold bufferBits at ha; omega
      rw [hend, List.singleton_inj.mp hbyte, pendingByte, if_pos hzero]
    · have hpast : full.length < a := by unfold bufferBits at ha; omega
      rw [Memory.read_writeBytes hempty, if_neg (by simp; omega)]; rfl

/-- The memory has no bit set from the writer's position on. -/
theorem Mirrors.getBit_beyond (h : Mirrors calls m p w) (hpending : (pendingByte w).toNat < 2 ^ w.bitPos) {q : Nat}
    (hq : p ≤ q) : m.getBit q = false := by
  rw [Memory.getBit]
  by_cases hbyte : q / 8 = p / 8
  · rw [hbyte, ← h.pending, ← BitVec.testBit_toNat]
    refine Nat.testBit_lt_two_pow (hpending.trans_le (Nat.pow_le_pow_right (by decide) ?_))
    rw [h.bitPos]; omega
  · rw [h.beyond _ (by omega)]; simp

end

/-- A field deposited where no bit is set adds its low bits at its position. -/
theorem Memory.leValue_readBytes_deposit {m : Memory} (hwf : m.wf = true) {p : Nat}
    (hclear : ∀ q, p ≤ q → m.getBit q = false) (n v : Nat) :
    leValue ((m.deposit p n v).readBytes 0 (ceil8 (p + n)))
      = leValue (m.readBytes 0 (ceil8 p)) + 2 ^ p * (v % 2 ^ n) := by
  have hlow : leValue (m.readBytes 0 (ceil8 p)) < 2 ^ p := Nat.lt_pow_two_of_testBit _ fun q hq => by
    rw [Memory.leValue_readBytes_testBit, Nat.mul_zero, Nat.zero_add, hclear q hq, Bool.and_false]
  refine Nat.eq_of_testBit_eq fun q => ?_
  rw [Nat.add_comm (leValue _), Nat.testBit_two_pow_mul_add _ hlow, Nat.testBit_mod_two_pow,
    Memory.leValue_readBytes_testBit, Memory.leValue_readBytes_testBit, Memory.getBit_deposit hwf]
  unfold ceil8
  by_cases hbelow : q < p
  · simp [hbelow, show q < 8 * ((p + n + 7) / 8) by omega, show q < 8 * ((p + 7) / 8) by omega]
  by_cases hfield : q - p < n
  · simp [hbelow, hfield, show q < 8 * ((p + n + 7) / 8) by omega, show p ≤ q ∧ q < p + n by omega]
  · simp [hbelow, hfield, show ¬ q < p + n by omega, hclear q (by omega)]

/-- What a field adds to the bytes the sink has taken and the bytes pending (R254). -/
theorem Mirrors.leValue_appended {calls calls' : List PortCall} {m : Memory} {p n v : Nat} {w w' : Writer}
    (h : Mirrors calls m p w) (hpending : (pendingByte w).toNat < 2 ^ w.bitPos)
    (h' : Mirrors calls' (m.deposit p n v) (p + n) w') :
    leValue (sunkBytes calls' ++ unsentBytes w')
      = leValue (sunkBytes calls ++ unsentBytes w) + 2 ^ p * (v % 2 ^ n) := by
  rw [h.stream, h'.stream, Memory.leValue_readBytes_deposit h.memory fun q hq => h.getBit_beyond hpending hq]

/-! ## A field in the writer (R253, R257) -/

/-- The bits that fill the buffer. -/
def bitsToFill (w : Writer) : Nat := 8 * w.capacity - bufferBits w

/-- The writer with its buffer filled by the first bits of v, before it is handed over. -/
def filledWriter (v : Nat) (w : Writer) : Writer := placeBits (bitsToFill w) v w

/-- The full buffer that a field with the bits of v makes. -/
def filledBytes (v : Nat) (w : Writer) : List Byte := (filledWriter v w).buf.readBytes 0 w.capacity

@[simp] theorem filledWriter_capacity (v : Nat) (w : Writer) : (filledWriter v w).capacity = w.capacity :=
  placeBits_capacity _ _ _

@[simp] theorem filledBytes_length (v : Nat) (w : Writer) : (filledBytes v w).length = w.capacity :=
  Memory.readBytes_length _ _ _

theorem filledWriter_buf_wf {w : Writer} (h : w.buf.wf = true) (v : Nat) : (filledWriter v w).buf.wf = true :=
  placeBits_buf_wf h

/-- A writer between commands that is open: what R32 says of it, and the capacity from `CAP_MIN` up (R33). -/
structure Writing (w : Writer) : Prop where
  wf : w.buf.wf = true
  room : 16 ≤ w.capacity
  bytePos : w.bytePos < w.capacity
  bitPos : w.bitPos < 8
  pending : (pendingByte w).toNat < 2 ^ w.bitPos

section
variable {s : State} {w : Writer} {n v : Nat}

theorem writing_of_ok (hok : writerOk w) (hopen : w.opened = true) : Writing w := by
  have hpending := pendingByte_lt hok hopen
  obtain ⟨hwf, hinv⟩ := hok
  obtain ⟨⟨hroom, -⟩, hbyte, hbit, -⟩ := hinv hopen
  exact ⟨hwf, hroom, hbyte, hbit, hpending⟩

theorem Writing.bufferBits_add_bitsToFill (h : Writing w) : bufferBits w + bitsToFill w = 8 * w.capacity := by
  have hbyte := h.bytePos
  have hbit := h.bitPos
  unfold bitsToFill bufferBits; omega

theorem Writing.bitsToFill_pos (h : Writing w) : 0 < bitsToFill w := by
  have hbyte := h.bytePos
  have hbit := h.bitPos
  unfold bitsToFill bufferBits; omega

theorem Writing.bufferBits_filledWriter (h : Writing w) (v : Nat) : bufferBits (filledWriter v w) = 8 * w.capacity :=
  (bufferBits_placeBits _ _ _).trans h.bufferBits_add_bitsToFill

theorem Writing.filledWriter_bytePos (h : Writing w) (v : Nat) : (filledWriter v w).bytePos = w.capacity := by
  have hbits := h.bufferBits_filledWriter v
  have hbit : (filledWriter v w).bitPos < 8 := placeBits_bitPos_lt h.bitPos
  unfold bufferBits at hbits; omega

theorem Writing.filledWriter_bitPos (h : Writing w) (v : Nat) : (filledWriter v w).bitPos = 0 := by
  have hbits := h.bufferBits_filledWriter v
  have hbyte := h.filledWriter_bytePos v
  unfold bufferBits at hbits; omega

/-- A field that does not fill the buffer is placed in it. -/
theorem wrBits_of_fits (hpos : s.wr.bytePos < s.wr.capacity) (hbit : s.wr.bitPos < 8)
    (hfits : bufferBits s.wr + n < 8 * s.wr.capacity) (v : Nat) :
    wrBits n v s = .done { s with wr := placeBits n v s.wr } := by
  have hbits := bufferBits_placeBits n v s.wr
  have hnotFull : (placeBits n v s.wr).bytePos ≠ (placeBits n v s.wr).capacity := by
    rw [placeBits_capacity]
    unfold bufferBits at hbits hfits; omega
  rw [wrBits_eq_flushIfFull hpos hbit hfits.le, flushIfFull]
  exact if_neg hnotFull

/-- The bits that fill the buffer end with the flush of the full one (R253). -/
theorem wrBits_bitsToFill (h : Writing s.wr) (v : Nat) :
    wrBits (bitsToFill s.wr) v s = flushFull { s with wr := filledWriter v s.wr } := by
  rw [wrBits_eq_flushIfFull h.bytePos h.bitPos h.bufferBits_add_bitsToFill.le, flushIfFull]
  exact if_pos ((h.filledWriter_bytePos v).trans (filledWriter_capacity v s.wr).symm)

/-- The state after the sink has taken the buffer that the bits of v fill. -/
def afterFullBuffer (v : Nat) (s : State) : State :=
  { afterSinkWrite s (filledBytes v s.wr) with wr := { filledWriter v s.wr with bytePos := 0 } }

/-- A field that fills the buffer goes on at the start of an empty one, once the sink has taken the full one. -/
theorem wrBits_of_fills (h : Writing s.wr) (hn : n ≤ 128) (hfills : 8 * s.wr.capacity ≤ bufferBits s.wr + n)
    (haccepts : sinkWriteAnswer s = .ok) (v : Nat) :
    wrBits n v s = .done { afterFullBuffer v s with
      wr := placeBits (n - bitsToFill s.wr) (v / 2 ^ bitsToFill s.wr) (afterFullBuffer v s).wr } := by
  have hroom := h.room
  have hleft := h.bitsToFill_pos
  have hbits := h.bufferBits_add_bitsToFill
  have hfull : wrBits (bitsToFill s.wr) v s = .done (afterFullBuffer v s) := by
    rw [wrBits_bitsToFill h]
    rcases flushFull_cases { s with wr := filledWriter v s.wr } with ⟨cause, herr, -⟩ | ⟨-, e⟩
    · exact absurd (haccepts.symm.trans herr) nofun
    · rw [e, filledWriter_capacity]; rfl
  rw [show n = bitsToFill s.wr + (n - bitsToFill s.wr) by omega, wrBits_add_of_done hfull, Nat.add_sub_cancel_left]
  refine wrBits_of_fits ?_ ?_ ?_ _
  · show 0 < (filledWriter v s.wr).capacity
    rw [filledWriter_capacity]; omega
  · exact (h.filledWriter_bitPos v).trans_lt (by decide)
  · show 8 * 0 + (filledWriter v s.wr).bitPos + _ < 8 * (filledWriter v s.wr).capacity
    rw [h.filledWriter_bitPos, filledWriter_capacity]
    omega

/-- A field that fills the buffer stops where the sink refuses the full one. -/
theorem wrBits_of_refused (h : Writing s.wr) (hfills : 8 * s.wr.capacity ≤ bufferBits s.wr + n) {cause : Word64}
    (herr : sinkWriteAnswer s = .err cause) (v : Nat) :
    wrBits n v s
      = .ioError cause (afterSinkWrite { s with wr := filledWriter v s.wr } (filledBytes v s.wr)) := by
  have hbits := h.bufferBits_add_bitsToFill
  have hfull : wrBits (bitsToFill s.wr) v s
      = .ioError cause (afterSinkWrite { s with wr := filledWriter v s.wr } (filledBytes v s.wr)) := by
    rw [wrBits_bitsToFill h]
    rcases flushFull_cases { s with wr := filledWriter v s.wr } with ⟨cause', herr', e⟩ | ⟨hok, -⟩
    · obtain rfl : cause = cause' := PortAnswer.err.inj (herr.symm.trans herr')
      rw [e, filledWriter_capacity]; rfl
    · exact absurd (herr.symm.trans hok) nofun
  rw [show n = bitsToFill s.wr + (n - bitsToFill s.wr) by omega, wrBits_add_of_ioError hfull]

/-- The bits the writer stands after, past a full buffer that the sink has taken. -/
theorem Mirrors.afterFullBuffer {calls : List PortCall} {m : Memory} {p : Nat} (h : Mirrors calls m p s.wr)
    (hw : Writing s.wr) (v : Nat) :
    Mirrors (calls ++ [.sinkWrite (filledBytes v s.wr) .ok]) (m.deposit p (bitsToFill s.wr) v) (p + bitsToFill s.wr)
      (afterFullBuffer v s).wr := by
  have hfilled : Mirrors calls (m.deposit p (bitsToFill s.wr) v) (p + bitsToFill s.wr) (filledWriter v s.wr) :=
    h.placeBits hw.wf _ v
  have htaken := hfilled.handOver (hw.filledWriter_bitPos v)
  rwa [hw.filledWriter_bytePos] at htaken

/-- A field that the sink, if it is asked, lets through: its bits follow those the writer stands after, and the port
call is the full buffer's (R253, R254). -/
theorem wrBits_completes {m : Memory} {p : Nat} (h : Mirrors s.env.calls m p s.wr) (hw : Writing s.wr) (hn : n ≤ 128)
    (hthrough : bufferBits s.wr + n < 8 * s.wr.capacity ∨ sinkWriteAnswer s = .ok) (v : Nat) :
    ∃ t, wrBits n v s = .done t ∧ Mirrors t.env.calls (m.deposit p n v) (p + n) t.wr ∧
      (bufferBits s.wr + n < 8 * s.wr.capacity → t.env.calls = s.env.calls) ∧
      (8 * s.wr.capacity ≤ bufferBits s.wr + n →
        t.env.calls = s.env.calls ++ [.sinkWrite (filledBytes v s.wr) .ok]) := by
  by_cases hfits : bufferBits s.wr + n < 8 * s.wr.capacity
  · exact ⟨_, wrBits_of_fits hw.bytePos hw.bitPos hfits v, h.placeBits hw.wf n v, fun _ => rfl,
      fun hfills => absurd hfits (Nat.not_lt.mpr hfills)⟩
  · have hfills := Nat.not_lt.mp hfits
    have haccepts := hthrough.resolve_left hfits
    have hbits := hw.bufferBits_add_bitsToFill
    have hcalls : (afterSinkWrite s (filledBytes v s.wr)).env.calls
        = s.env.calls ++ [.sinkWrite (filledBytes v s.wr) .ok] := by rw [afterSinkWrite_calls, haccepts]
    refine ⟨_, wrBits_of_fills hw hn hfills haccepts v, ?_, fun hlt => absurd hlt hfits, fun _ => hcalls⟩
    have hrest := (h.afterFullBuffer hw v).placeBits (filledWriter_buf_wf hw.wf v) (n - bitsToFill s.wr)
      (v / 2 ^ bitsToFill s.wr)
    rw [← Memory.deposit_add, Nat.add_assoc, Nat.add_sub_cancel' (by omega), ← hcalls] at hrest
    exact hrest

end

/-! ## The statements about a field write -/

/-- Settles O56: the bytes the sink has taken and those pending hold the bits of one memory, and the field is deposited
behind them. -/
theorem writerAppendsTheField : Obligations.WriterAppendsTheField := by
  intro f s hok hopen hf hthrough
  have hw := writing_of_ok hok hopen
  obtain ⟨m, hmirrors⟩ := exists_mirrors s.env.calls hw.bitPos
  obtain ⟨t, hbits, hmirrors', hfits, hfills⟩ :=
    wrBits_completes hmirrors hw (writeWidth_le_of_accepted hf) hthrough (writeValue f)
  have houtside := wrBits_leaves (R := OutsideWriter) .refl .trans wrBit_outside (writeWidth f) (writeValue f) s
  rw [hbits] at houtside
  have hposition : writerPosition t = writerPosition s + writeWidth f := by
    have hp := hmirrors'.position
    unfold writerPosition; unfold bufferBits at hp; omega
  refine ⟨_, exec_writerWrite hf hopen hbits, ?_, hposition, ?_, houtside.bc, houtside.rd, houtside.opened.trans hopen,
    houtside.capacity, houtside.leaveOpen, houtside.inbox, hfits,
    fun hfull => ⟨_, filledBytes_length _ _, hfills hfull⟩⟩
  · rw [respond_responses, show t.env.responses = s.env.responses from houtside.responses]
  · rw [show writerPosition s = 8 * (sunkBytes s.env.calls).length + bufferBits s.wr from Nat.add_assoc _ _ _]
    exact hmirrors.leValue_appended hw.pending hmirrors'

/-- The bytes of a full buffer are what was pending and the field's first bits. -/
theorem leValue_filledBytes {w : Writer} (h : Writing w) (v : Nat) :
    leValue (filledBytes v w) = leValue (unsentBytes w) + 2 ^ bufferBits w * (v % 2 ^ bitsToFill w) := by
  obtain ⟨m, hmirrors⟩ := exists_mirrors [] h.bitPos
  rw [sunkBytes, List.length_nil, Nat.mul_zero, Nat.zero_add] at hmirrors
  have hfilled : unsentBytes (filledWriter v w) = filledBytes v w := by
    rw [unsentBytes, pendingBytes, h.filledWriter_bitPos, h.filledWriter_bytePos]; rfl
  rw [← hfilled]
  exact hmirrors.leValue_appended h.pending (hmirrors.placeBits h.wf _ v)

/-- An accepted field write puts its bits in, in one segment or two (R254 to R256). -/
theorem exec_writerWrite_eq_wrPut {f : FieldWrite} (hf : writeAccepted f = true) {s : State}
    (hopen : s.wr.opened = true) :
    ∃ segments, wrSegments segments s = wrBits (writeWidth f) (writeValue f) s ∧
      exec (writerWrite f) s = finishPush (wrPut segments s) := by
  cases f with
  | narrow value n =>
    have hcount : badCount n 64 = false := by simpa [writeAccepted] using hf
    exact ⟨_, wrSegments_singleton _ _ s, by
      simp [writerWrite, exec, execWrWrite, hopen, hcount, writeValue, writeWidth]⟩
  | wide value n =>
    have hcount : badCount n 128 = false := by simpa [writeAccepted] using hf
    exact ⟨_, wrSegments_wideSegments value n.toNat s, by simp [writerWrite, exec, execWrWrite128, hopen, hcount]⟩
  | tagged t =>
    have hwf : tokenWellFormed t = true := hf
    exact ⟨_, wrSegments_wideSegments t.ext t.n.toNat s, by simp [writerWrite, exec, execWrWriteV, hopen, hwf]⟩

/-- A field write whose full buffer the sink refuses answers the cause and undoes the write (R257). -/
theorem exec_writerWrite_of_ioError {f : FieldWrite} (hf : writeAccepted f = true) {s t : State}
    (hopen : s.wr.opened = true) {cause : Word64}
    (hbits : wrBits (writeWidth f) (writeValue f) s = .ioError cause t) :
    exec (writerWrite f) s = .next (({ t with wr := s.wr } : State).respond (ioFailed cause)) := by
  obtain ⟨segments, hsegments, hexec⟩ := exec_writerWrite_eq_wrPut hf hopen
  obtain ⟨w, hput⟩ : ∃ w, wrPut segments s = .ioError cause { t with wr := w } := by
    rw [wrPut, hsegments, hbits]; exact ⟨_, rfl⟩
  have hundone : w = s.wr := wrPut_failed hput
  rw [hexec, hput, hundone]; rfl

/-- The low bits of a longer field, where they fill a window of bits, are what the window holds of the field. -/
theorem mod_two_pow_window {u q j n v : Nat} (hjn : j ≤ n) (hwindow : u + 2 ^ q * (v % 2 ^ j) < 2 ^ (q + j)) :
    (u + 2 ^ q * (v % 2 ^ n)) % 2 ^ (q + j) = u + 2 ^ q * (v % 2 ^ j) := by
  obtain ⟨high, hsplit⟩ : ∃ high, v % 2 ^ n = v % 2 ^ j + 2 ^ j * high :=
    ⟨v % 2 ^ n / 2 ^ j, by rw [← Nat.mod_mod_of_dvd v (Nat.pow_dvd_pow 2 hjn), Nat.mod_add_div]⟩
  calc (u + 2 ^ q * (v % 2 ^ n)) % 2 ^ (q + j)
      = (u + 2 ^ q * (v % 2 ^ j) + 2 ^ (q + j) * high) % 2 ^ (q + j) := by
        rw [hsplit, Nat.mul_add, ← Nat.mul_assoc, ← pow_add, ← Nat.add_assoc]
    _ = u + 2 ^ q * (v % 2 ^ j) := by rw [Nat.add_mul_mod_self_left, Nat.mod_eq_of_lt hwindow]

/-- Settles O57: the refused buffer is full, so of the field it holds the bits that fit. -/
theorem failedFlushUndoesTheWrite : Obligations.FailedFlushUndoesTheWrite := by
  intro f s cause hok hopen hf hfills herr
  have hw := writing_of_ok hok hopen
  have hbits := wrBits_of_refused hw hfills herr (writeValue f)
  refine ⟨_, exec_writerWrite_of_ioError hf hopen hbits, rfl, rfl, rfl, rfl, filledBytes (writeValue f) s.wr,
    filledBytes_length _ _, ?_, ?_⟩
  · show s.env.calls ++ [.sinkWrite _ (sinkWriteAnswer s)] = _
    rw [herr]
  · have hfull := hw.bufferBits_add_bitsToFill
    have hbytes := leValue_filledBytes hw (writeValue f)
    have hlt := leValue_lt (filledBytes (writeValue f) s.wr)
    rw [filledBytes_length, show (256 : Nat) = 2 ^ 8 by norm_num, ← pow_mul, hbytes, ← hfull] at hlt
    have hfits : bitsToFill s.wr ≤ writeWidth f := by unfold bitsToFill bufferBits; omega
    rw [hbytes, ← hfull]
    exact (mod_two_pow_window hfits hlt).symm

end Sys2Proof.Machine
end

section
/-! PROOFS. Opening, flushing and closing the Buffered Writer (44_writer.md R251, R258, R259), for every answer of the
sink. -/

namespace Sys2Proof.Machine

/-! ## Opening (R251) -/

theorem exec_wrOpen_of_refused {s : State} {cap : BitVec 32}
    (h : s.wr.opened = true ∨ askedCapacity cap < Config.capMin) (leave : Bool) :
    exec (.wrOpen leave cap) s = .next (s.respond (failed .illegalCommand)) := by
  rw [exec, execWrOpen]
  split
  · exact raise_eq _ s
  next hclosed => exact if_pos (h.resolve_left hclosed)

/-- Settles O55, by the two checks in front of the new writer. -/
theorem writerOpensEmpty : Obligations.WriterOpensEmpty := by
  intro leave cap s
  rw [← askedCapacity_eq]
  exact ⟨fun ⟨hclosed, hcap⟩ => ⟨s.wr.buf, exec_wrOpen hclosed hcap leave⟩, fun h => exec_wrOpen_of_refused h leave⟩

/-! ## Flushing and closing (R258, R259) -/

/-- The state a flush leaves that has handed over the pending bytes, whatever the sink's own flush answers. -/
def flushedState (s : State) : State := afterSinkFlush { afterHandOver s with wr := emptiedWriter s.wr }

@[simp] theorem flushedState_bc (s : State) : (flushedState s).bc = s.bc := afterHandOver_bc s
@[simp] theorem flushedState_rd (s : State) : (flushedState s).rd = s.rd := afterHandOver_rd s
@[simp] theorem flushedState_responses (s : State) : (flushedState s).env.responses = s.env.responses :=
  afterHandOver_responses s

theorem flushedState_env (s : State) : (flushedState s).env = (afterSinkFlush (afterHandOver s)).env := rfl

theorem flushedState_calls {s : State} (h : unsentBytes s.wr = [] ∨ sinkWriteAnswer s = .ok) :
    (flushedState s).env.calls
      = s.env.calls ++ handOverCalls s ++ [.sinkFlush (sinkFlushAnswer (afterHandOver s))] := by
  rw [flushedState_env, afterSinkFlush_calls, afterHandOver_calls h]

/-- All the steps of a flush can do, by the answers of the sink (R258). -/
theorem flushSteps_cases (s : State) :
    (∃ cause, unsentBytes s.wr ≠ [] ∧ sinkWriteAnswer s = .err cause ∧
      flushSteps s = .ioError cause (afterSinkWrite s (unsentBytes s.wr))) ∨
    ((unsentBytes s.wr = [] ∨ sinkWriteAnswer s = .ok) ∧
      ((∃ cause, sinkFlushAnswer (afterHandOver s) = .err cause ∧ flushSteps s = .ioError cause (flushedState s)) ∨
        (sinkFlushAnswer (afterHandOver s) = .ok ∧ flushSteps s = .done (flushedState s)))) := by
  rcases flushPending_eq s with ⟨cause, hpending, herr, e⟩ | ⟨hthrough, e⟩
  · exact .inl ⟨cause, hpending, herr, by rw [flushSteps, e]⟩
  · have hanswer : sinkFlushAnswer { afterHandOver s with wr := emptiedWriter s.wr }
        = sinkFlushAnswer (afterHandOver s) := rfl
    refine .inr ⟨hthrough, ?_⟩
    rw [flushSteps, e]
    dsimp only
    rw [hanswer]
    cases sinkFlushAnswer (afterHandOver s) with
    | err cause => exact .inl ⟨cause, rfl, rfl⟩
    | ok => exact .inr ⟨rfl, rfl⟩

theorem exec_wrFlush {s : State} (hopen : s.wr.opened = true) : exec .wrFlush s = finishPush (flushSteps s) :=
  openGate_of_open hopen s _

/-- Settles O58, by the answers of the sink. -/
theorem flushHandsOverThePendingBytes : Obligations.FlushHandsOverThePendingBytes := by
  refine ⟨fun s hclosed => openGate_of_closed hclosed s _, fun s hopen => ?_⟩
  dsimp only
  rw [exec_wrFlush hopen]
  rcases flushSteps_cases s with ⟨cause, hpending, hrefused, e⟩ | ⟨hthrough, ⟨cause, herr, e⟩ | ⟨hok, e⟩⟩ <;> rw [e]
  · refine ⟨_, rfl, rfl, rfl, fun cause' _ hrefused' => ?_,
      fun hthrough => (nomatch hrefused.symm.trans (hthrough.resolve_left hpending))⟩
    cases hrefused.symm.trans hrefused'
    exact ⟨rfl, rfl, by rw [respond_calls, afterSinkWrite_calls, hrefused], rfl⟩
  · refine ⟨_, rfl, flushedState_bc s, flushedState_rd s,
      fun _ hpending hrefused => (nomatch hrefused.symm.trans (hthrough.resolve_left hpending)),
      fun _ => ⟨rfl, rfl, flushedState_calls hthrough, fun hok => (nomatch hok.symm.trans herr),
        fun cause' herr' => ?_⟩⟩
    cases herr.symm.trans herr'
    rw [respond_responses, flushedState_responses]
  · refine ⟨_, rfl, flushedState_bc s, flushedState_rd s,
      fun _ hpending hrefused => (nomatch hrefused.symm.trans (hthrough.resolve_left hpending)),
      fun _ => ⟨rfl, rfl, flushedState_calls hthrough, fun _ => ?_, fun _ herr => (nomatch hok.symm.trans herr)⟩⟩
    rw [respond_responses, flushedState_responses]

theorem exec_wrClose_of_flush_failed {s t : State} (hopen : s.wr.opened = true) {cause : Word64}
    (hflush : flushSteps s = .ioError cause t) : exec .wrClose s = .next (t.respond (ioFailed cause)) := by
  refine (openGate_of_open hopen s _).trans ?_
  rw [hflush]; rfl

theorem exec_wrClose_of_sink_closed {s t u : State} (hopen : s.wr.opened = true) (hflush : flushSteps s = .done t)
    (hclose : closeSink t = .done u) :
    exec .wrClose s = .next (({ u with wr := { u.wr with opened := false } } : State).respond (okValue 0)) := by
  refine (openGate_of_open hopen s _).trans ?_
  rw [hflush]; dsimp only
  rw [hclose]; rfl

theorem exec_wrClose_of_close_failed {s t u : State} (hopen : s.wr.opened = true) (hflush : flushSteps s = .done t)
    {cause : Word64} (hclose : closeSink t = .ioError cause u) :
    exec .wrClose s = .next (u.respond (ioFailed cause)) := by
  refine (openGate_of_open hopen s _).trans ?_
  rw [hflush]; dsimp only
  rw [hclose]; rfl

/-- All that closing the sink can do (R259). -/
theorem closeSink_cases (s : State) :
    (s.wr.leaveOpen = true ∧ closeSink s = .done s) ∨
    (s.wr.leaveOpen = false ∧ sinkCloseAnswer s = .ok ∧ closeSink s = .done (afterSinkClose s)) ∨
    (s.wr.leaveOpen = false ∧ ∃ cause, sinkCloseAnswer s = .err cause ∧
      closeSink s = .ioError cause (afterSinkClose s)) := by
  unfold closeSink
  cases hleave : s.wr.leaveOpen with
  | true => exact .inl ⟨rfl, rfl⟩
  | false =>
    cases sinkCloseAnswer s with
    | ok => exact .inr (.inl ⟨rfl, rfl, rfl⟩)
    | err cause => exact .inr (.inr ⟨rfl, cause, rfl, rfl⟩)

/-- Settles O59, by the answers of the sink to each call and by `leave_open`. -/
theorem closeFlushesAndThenCloses : Obligations.CloseFlushesAndThenCloses := by
  refine ⟨fun s hclosed => openGate_of_closed hclosed s _, fun s hopen => ?_⟩
  dsimp only
  rcases flushSteps_cases s with ⟨cause, hpending, hrefused, e⟩ | ⟨hthrough, hflush⟩
  · refine ⟨_, exec_wrClose_of_flush_failed hopen e, rfl, rfl, fun cause' _ hrefused' => ?_,
      fun hthrough => (nomatch hrefused.symm.trans (hthrough.resolve_left hpending))⟩
    cases hrefused.symm.trans hrefused'
    exact ⟨rfl, rfl, by rw [respond_calls, afterSinkWrite_calls, hrefused], rfl⟩
  have hnotRefused : ∀ {cause}, unsentBytes s.wr ≠ [] → sinkWriteAnswer s ≠ .err cause :=
    fun hpending hrefused => nomatch hrefused.symm.trans (hthrough.resolve_left hpending)
  have hcalls := flushedState_calls hthrough
  have hresponses : ∀ x, (flushedState s).env.responses ++ [responseFrame x] = s.env.responses ++ [responseFrame x] :=
    fun x => by rw [flushedState_responses]
  rcases hflush with ⟨cause, herr, e⟩ | ⟨hok, e⟩
  · refine ⟨_, exec_wrClose_of_flush_failed hopen e, flushedState_bc s, flushedState_rd s,
      fun _ hpending hrefused => absurd hrefused (hnotRefused hpending), fun _ => ⟨fun cause' herr' => ?_,
        fun hok => (nomatch hok.symm.trans herr), fun hok => (nomatch hok.symm.trans herr)⟩⟩
    cases herr.symm.trans herr'
    exact ⟨rfl, rfl, hcalls, hresponses _⟩
  rcases closeSink_cases (flushedState s) with ⟨hleave, ec⟩ | ⟨hleave, hclosed, ec⟩ | ⟨hleave, cause, hclose, ec⟩
  · exact ⟨_, exec_wrClose_of_sink_closed hopen e ec, flushedState_bc s, flushedState_rd s,
      fun _ hpending hrefused => absurd hrefused (hnotRefused hpending),
      fun _ => ⟨fun _ herr => (nomatch hok.symm.trans herr), fun _ _ => ⟨rfl, rfl, hcalls, hresponses _⟩,
        fun _ hcloses => (nomatch hcloses.symm.trans hleave)⟩⟩
  · exact ⟨_, exec_wrClose_of_sink_closed hopen e ec, flushedState_bc s, flushedState_rd s,
      fun _ hpending hrefused => absurd hrefused (hnotRefused hpending),
      fun _ => ⟨fun _ herr => (nomatch hok.symm.trans herr), fun _ hleaves => (nomatch hleaves.symm.trans hleave),
        fun _ _ => ⟨rfl, congrArg (· ++ _) hcalls, fun _ => ⟨rfl, hresponses _⟩,
          fun _ herr => (nomatch hclosed.symm.trans herr)⟩⟩⟩
  · refine ⟨_, exec_wrClose_of_close_failed hopen e ec, flushedState_bc s, flushedState_rd s,
      fun _ hpending hrefused => absurd hrefused (hnotRefused hpending),
      fun _ => ⟨fun _ herr => (nomatch hok.symm.trans herr), fun _ hleaves => (nomatch hleaves.symm.trans hleave),
        fun _ _ => ⟨rfl, congrArg (· ++ _) hcalls, fun hclosed => (nomatch hclosed.symm.trans hclose),
          fun cause' hclose' => ?_⟩⟩⟩
    cases hclose.symm.trans hclose'
    exact ⟨rfl, hresponses _⟩

end Sys2Proof.Machine
end

section
/-! PROOFS. How a command ends (60_exceptions.md R280, R281, R284, R289): one walk over the commands says which response a
command sends and what a failing one leaves changed; and the steps that run no command (R300, 70_reset_and_hazards.md
R310, R311). -/

namespace Sys2Proof.Machine

/-! ## The ends of a command -/

/-- From `s` to `u` no response was sent and no input of the host was taken. -/
structure PortHeld (s u : State) : Prop where
  responses : u.env.responses = s.env.responses
  inbox : u.env.inbox = s.env.inbox

theorem PortHeld.refl (s : State) : PortHeld s s := ⟨rfl, rfl⟩

theorem OutsideReader.portHeld {s u : State} (h : OutsideReader s u) : PortHeld s u := ⟨h.responses, h.inbox⟩

theorem OutsideWriter.portHeld {s u : State} (h : OutsideWriter s u) : PortHeld s u := ⟨h.responses, h.inbox⟩

/-- The command has a bit count outside its range, and the gate of its unit lets it through (R284). -/
def CountOutOfRange (i : Instr) (s : State) : Prop :=
  ∃ n limit, bitCount i = some (n, limit) ∧ (n.toNat = 0 ∨ limit < n.toNat) ∧ unitReady i s = true

/-- What a failing command may have done to the writer: nothing, or a flush that handed the pending bytes over before it
failed (44_writer.md R258, R259). -/
def HeldOrEmptied (i : Instr) (w w' : Writer) : Prop :=
  w' = w ∨ ((i = .wrFlush ∨ i = .wrClose) ∧ w' = emptiedWriter w)

/-- The ways a command that started in `s` can end: the state it answers from, and its response (R281, R289). -/
inductive Ends (i : Instr) (s : State) : State → Response → Prop
  | done {u : State} {x : Response} (hok : x.status = .ok) : Ends i s u x
  | refused {status : Status} (hcount : status = .invalidBitCount → CountOutOfRange i s) : Ends i s s (failed status)
  | callFailed {u : State} (cause : Word64) (hbc : u.bc = s.bc) (hrd : u.rd = s.rd)
      (hwr : HeldOrEmptied i s.wr u.wr) : Ends i s u (ioFailed cause)
  | readEnded {u : State} (f : FieldRead) (hi : i = readerRead f) (houtside : OutsideReader s u)
      (hrd : u.rd = { movedReader s.rd u.rd with atEndOfSource := true }) : Ends i s u (failed .endOfStream)
  | readFailed {u : State} (cause : Word64) (f : FieldRead) (hi : i = readerRead f) (houtside : OutsideReader s u)
      (hrd : u.rd = { movedReader s.rd u.rd with fatal := true, cause := cause }) : Ends i s u (ioFailed cause)

/-- If the command goes on, it sent one response, and it ended in one of the ways listed. -/
def Ended (i : Instr) (s : State) (r : Result) : Prop :=
  ∀ t, r = .next t → ∃ u x, PortHeld s u ∧ Ends i s u x ∧ t = u.respond x

section
variable {i : Instr} {s u : State} {r r' : Result}

theorem ended_answer {x : Response} (hport : PortHeld s u) (h : Ends i s u x) : Ended i s (answer x u) :=
  fun _ ht => ⟨u, x, hport, h, (Host.Outcome.next.inj ht).symm⟩

theorem ended_done {x : Response} (hport : PortHeld s u) (hok : x.status = .ok) : Ended i s (answer x u) :=
  ended_answer hport (.done hok)

/-! ## Checks in front of a command -/

theorem ended_ite {c : Prop} [Decidable c] (h : c → Ended i s r) (h' : ¬ c → Ended i s r') :
    Ended i s (if c then r else r') := by
  split
  next hc => exact h hc
  next hc => exact h' hc

/-- A check that refuses with a status other than `InvalidBitCount`. -/
theorem ended_gate {c : Prop} [Decidable c] {status : Status} (hstatus : status ≠ .invalidBitCount)
    (h : ¬ c → Ended i s r) : Ended i s (if c then raise status s else r) :=
  ended_ite (fun _ => ended_answer (.refl s) (.refused fun hcount => absurd hcount hstatus)) h

theorem ended_openGate {opened : Bool} (h : opened = true → Ended i s r) :
    Ended i s (if !opened then raise .illegalCommand s else r) :=
  ended_gate (by decide) fun hopen => h (by simpa using hopen)

/-- The check of the bit count, which stands behind the gate of the unit (R284). -/
theorem ended_countGate {n : BitVec 8} {limit : Nat} (hcount : bitCount i = some (n, limit))
    (hready : unitReady i s = true) (h : Ended i s r) :
    Ended i s (if badCount n limit then raise .invalidBitCount s else r) :=
  ended_ite (fun hbad => ended_answer (.refl s)
    (.refused fun _ => ⟨n, limit, hcount, (badCount_eq_true_iff n limit).mp hbad, hready⟩)) fun _ => h

/-! ## The reader (43_reader.md R224 to R229) -/

theorem ended_finishPull {α : Type} {g : α → Response} {p : Pull α} {f : FieldRead} (hi : i = readerRead f)
    (hok : ∀ v, (g v).status = .ok) (houtside : ∀ u, p.leaves u → OutsideReader s u) (hmarks : p.marks s.rd) :
    Ended i s (finishPull g p) := by
  cases p with
  | got v t => exact ended_done (houtside t rfl).portHeld (hok v)
  | endOfStream t => exact ended_answer (houtside t rfl).portHeld (.readEnded f hi (houtside t rfl) hmarks)
  | ioError cause t => exact ended_answer (houtside t rfl).portHeld (.readFailed cause f hi (houtside t rfl) hmarks)
  | brokenContract => exact fun _ ht => nomatch ht

/-- A read of a reader that has failed answers the cause again and changes nothing (R226). -/
theorem ended_fatalGate (h : Ended i s r) : Ended i s (if s.rd.fatal then raiseIo s.rd.cause s else r) :=
  ended_ite (fun _ => ended_answer (.refl s) (.callFailed _ rfl rfl (.inl rfl))) fun _ => h

theorem readerRead_ended (f : FieldRead) (s : State) : Ended (readerRead f) s (exec (readerRead f) s) := by
  cases f
  all_goals
    refine ended_openGate fun hopen => ended_countGate rfl hopen (ended_fatalGate ?_)
  case narrow n =>
    exact ended_finishPull (f := .narrow n) rfl (fun _ => rfl) (fun _ => rdGet_outside) (rdGet_marks _ s)
  case wide n =>
    exact ended_finishPull (f := .wide n) rfl (fun _ => rfl) (fun _ => rdGetWide_outside) (rdGetWide_marks _ s)
  case tagged sgn n =>
    exact ended_finishPull (f := .tagged sgn n) rfl (fun _ => rfl) (fun _ => rdGetWide_outside) (rdGetWide_marks _ s)

theorem rdClose_ended (s : State) : Ended .rdClose s (execRdClose s) := by
  refine ended_openGate fun _ => ?_
  cases srcCloseAnswer s with
  | ok => exact ended_done ⟨rfl, rfl⟩ rfl
  | err cause => exact ended_answer ⟨rfl, rfl⟩ (.callFailed cause rfl rfl (.inl rfl))

/-! ## The writer (44_writer.md R254 to R259) -/

theorem ended_raiseIo {cause : Word64} (houtside : OutsideWriter s u) (hwr : HeldOrEmptied i s.wr u.wr) :
    Ended i s (raiseIo cause u) :=
  ended_answer houtside.portHeld (.callFailed cause houtside.bc houtside.rd hwr)

theorem ended_finishPush {p : Push} (houtside : OutsideWriter s p.leaves)
    (hfailed : ∀ cause t, p = .ioError cause t → HeldOrEmptied i s.wr t.wr) : Ended i s (finishPush p) := by
  cases p with
  | done t => exact ended_done houtside.portHeld rfl
  | ioError cause t => exact ended_raiseIo houtside (hfailed cause t rfl)

theorem writerPut_ended (segments : List (Nat × Nat)) : Ended i s (finishPush (wrPut segments s)) :=
  ended_finishPush (wrPut_outside segments s) fun _ _ hfailed => .inl (wrPut_failed hfailed)

/-- A flush hands over the whole buffer or leaves the writer alone. -/
theorem flushSteps_heldOrEmptied (hi : i = .wrFlush ∨ i = .wrClose) (s : State) :
    HeldOrEmptied i s.wr (flushSteps s).leaves.wr := by
  rcases flushSteps_cases s with ⟨cause, -, -, e⟩ | ⟨-, ⟨cause, -, e⟩ | ⟨-, e⟩⟩ <;> rw [e]
  · exact .inl rfl
  · exact .inr ⟨hi, rfl⟩
  · exact .inr ⟨hi, rfl⟩

theorem closeSink_outside (s : State) : OutsideWriter s (closeSink s).leaves := by
  rcases closeSink_cases s with ⟨-, e⟩ | ⟨-, -, e⟩ | ⟨-, cause, -, e⟩ <;> rw [e]
  · exact .refl s
  · constructor <;> rfl
  · constructor <;> rfl

theorem closeSink_wr (s : State) : (closeSink s).leaves.wr = s.wr := by
  rcases closeSink_cases s with ⟨-, e⟩ | ⟨-, -, e⟩ | ⟨-, cause, -, e⟩ <;> rw [e] <;> rfl

theorem wrFlush_ended (s : State) : Ended .wrFlush s (execWrFlush s) := by
  refine ended_openGate fun _ => ended_finishPush (flushSteps_outside s) fun cause t hfailed => ?_
  simpa only [hfailed, Push.leaves] using flushSteps_heldOrEmptied (.inl rfl) s

theorem wrClose_ended (s : State) : Ended .wrClose s (execWrClose s) := by
  refine ended_openGate fun _ => ?_
  have hflush := flushSteps_outside s
  have hwr := flushSteps_heldOrEmptied (i := .wrClose) (.inr rfl) s
  cases e : flushSteps s with
  | ioError cause t => rw [e] at hflush hwr; exact ended_raiseIo hflush hwr
  | done t =>
    rw [e] at hflush hwr
    have hsink := hflush.trans (closeSink_outside t)
    have hwrSink : HeldOrEmptied .wrClose s.wr (closeSink t).leaves.wr := by rw [closeSink_wr]; exact hwr
    dsimp only
    cases e' : closeSink t with
    | ioError cause u => rw [e'] at hsink hwrSink; exact ended_raiseIo hsink hwrSink
    | done u => rw [e'] at hsink; exact ended_done ⟨hsink.responses, hsink.inbox⟩ rfl

end

/-! ## Every command -/

/-- All the ways a command can end, command by command in the order of its checks. -/
theorem exec_ended (i : Instr) (s : State) : Ended i s (exec i s) := by
  cases i with
  | wAdd | wSub | wAnd | wOr | wXor | wNot | wCmpU | wCmpS => exact ended_done (.refl s) rfl
  | wShl | wShr | wSar => exact ended_gate (by decide) fun _ => ended_done (.refl s) rfl
  | bvNewU | bvNewS | bvNewS128 => exact ended_countGate rfl rfl (ended_done (.refl s) rfl)
  | bvToU128 | bvToI64 | bvToI128 | bvEq => exact ended_gate (by decide) fun _ => ended_done (.refl s) rfl
  | bvToU64 => exact ended_gate (by decide) fun _ => ended_gate (by decide) fun _ => ended_done (.refl s) rfl
  | bcClear | bcReset => exact ended_done ⟨rfl, rfl⟩ rfl
  | bcLoad | bcSeek => exact ended_gate (by decide) fun _ => ended_done ⟨rfl, rfl⟩ rfl
  | bcWrite | bcWrite128 | bcRead | bcRead128 | bcReadV =>
    exact ended_countGate rfl rfl (ended_gate (by decide) fun _ => ended_done ⟨rfl, rfl⟩ rfl)
  | bcWriteV => exact ended_gate (by decide) fun _ => ended_gate (by decide) fun _ => ended_done ⟨rfl, rfl⟩ rfl
  | bcAtEnd | bcStat | bcBytes => exact ended_done (.refl s) rfl
  | rdOpen | wrOpen => exact ended_gate (by decide) fun _ => ended_gate (by decide) fun _ => ended_done ⟨rfl, rfl⟩ rfl
  | rdRead n => exact readerRead_ended (.narrow n) s
  | rdRead128 n => exact readerRead_ended (.wide n) s
  | rdReadV sgn n => exact readerRead_ended (.tagged sgn n) s
  | rdAtEnd => exact ended_openGate fun _ => ended_done (.refl s) rfl
  | rdClose => exact rdClose_ended s
  | wrWrite | wrWrite128 => exact ended_openGate fun hopen => ended_countGate rfl hopen (writerPut_ended _)
  | wrWriteV => exact ended_openGate fun _ => ended_gate (by decide) fun _ => writerPut_ended _
  | wrFlush => exact wrFlush_ended s
  | wrClose => exact wrClose_ended s

/-! ## The statements -/

/-- Settles O13, by the way the command ended. -/
theorem failuresChangeOnlyWhatIsListed : Obligations.FailuresChangeOnlyWhatIsListed := by
  intro i s t ht
  obtain ⟨u, x, hport, hends, rfl⟩ := exec_ended i s t ht
  refine ⟨x, by rw [respond_responses, hport.responses], hport.inbox, fun hfail => ?_⟩
  simp only [respond_bc, respond_rd, respond_wr]
  cases hends with
  | done hok => exact absurd hok hfail
  | refused => exact ⟨rfl, .inl rfl, .inl rfl⟩
  | callFailed cause hbc hrd hwr => exact ⟨hbc, hwr, .inl hrd⟩
  | readEnded f hi houtside hrd => exact ⟨houtside.bc, .inl houtside.wr, .inr ⟨⟨f, hi⟩, .inl ⟨rfl, hrd⟩⟩⟩
  | readFailed cause f hi houtside hrd =>
    exact ⟨houtside.bc, .inl houtside.wr, .inr ⟨⟨f, hi⟩, .inr ⟨cause, rfl, hrd⟩⟩⟩

/-- The check of the bit count is the first one of a command, or the first behind the gate of its unit (R284). -/
theorem exec_of_countOutOfRange {i : Instr} {s : State} (h : CountOutOfRange i s) :
    exec i s = .next (s.respond (failed .invalidBitCount)) := by
  obtain ⟨n, limit, hcount, hbad, hready⟩ := h
  cases i <;> cases hcount
  case bvNewU | bvNewS | bvNewS128 | bcWrite | bcRead | bcWrite128 | bcRead128 | bcReadV =>
    exact countGate_of_bad hbad s _
  case rdRead | rdRead128 | rdReadV | wrWrite | wrWrite128 =>
    exact (openGate_of_open hready s _).trans (countGate_of_bad hbad s _)

/-- Of the ways a command can end, only a refusal of its bit count answers `InvalidBitCount`. -/
theorem Ends.countOutOfRange {i : Instr} {s u : State} {x : Response} (h : Ends i s u x)
    (hstatus : x.status = .invalidBitCount) : CountOutOfRange i s := by
  cases h with
  | done hok => exact nomatch hok.symm.trans hstatus
  | refused hcount => exact hcount hstatus
  | callFailed | readEnded | readFailed => exact nomatch hstatus

/-- Whatever response a command is seen to send, it is the one its end gives (30_encoding.md R92). -/
theorem exec_sends_countOutOfRange (i : Instr) (s : State) :
    Sends (fun x => x.status = .invalidBitCount → CountOutOfRange i s) s (exec i s) := by
  intro t x ht hx
  obtain ⟨u, y, hport, hends, rfl⟩ := exec_ended i s t ht
  exact sends_answer hport.responses (P := fun x => x.status = .invalidBitCount → CountOutOfRange i s)
    hends.countOutOfRange _ x rfl hx

/-- Settles O32: the check of the count refuses, and no other end of a command answers `InvalidBitCount`. -/
theorem badBitCountsAreRefused : Obligations.BadBitCountsAreRefused :=
  ⟨fun _ _ n limit hcount hbad hready => exec_of_countOutOfRange ⟨n, limit, hcount, hbad, hready⟩,
    exec_sends_countOutOfRange⟩

/-- Settles O8, by what the host presents. -/
theorem idleHoldsAndResetEmpties : Obligations.IdleHoldsAndResetEmpties :=
  ⟨fun _ => step_of_idle, fun _ _ hreset => ⟨_, step_of_reset hreset, rfl, rfl, rfl, rfl⟩⟩

end Sys2Proof.Machine
end
